-- ==== Sys2Proof/Word.lean ====
section
/-! DEFINITION. The word types of the DLMS ciphering core: bytes, bus words and byte strings of a fixed length. -/

namespace Sys2Proof

/-- An unsigned 8-bit value (00_scope.md R8). -/
abbrev Byte := BitVec 8

/-- A 32-bit word: the data of one bus access, a command word, a numeric register (R9, R11). -/
abbrev Word := BitVec 32

/-- A byte string of the fixed length `n` (R8). Byte 0, the leftmost byte of the hex string, is the
most significant one, so a literal reads as the spec's hex string; `A ++ B` is the spec's `A ‖ B`
and `A ^^^ B` its byte-wise exclusive OR (log entry 6). -/
abbrev Bytes (n : Nat) := BitVec (8 * n)

/-- A 16-byte block: the AES state, a GHASH block, a counter block (R6). -/
abbrev Block := Bytes 16

end Sys2Proof
end

