-- ==== Sys2Proof/Config.lean ====
section
/-! DEFINITION. The implementation parameters (00_scope.md R7) and the sizes fixed by the source (R6). -/

namespace Sys2Proof.Config

/-- Which of the legal buffer capacities this implementation has. No body: nothing in Lean can
evaluate it, so whatever is proved holds for every legal `BUF_MAX` (R7, I1; log entry 1). -/
opaque bufMaxIndex : Fin 4093

/-- `BUF_MAX`, the capacity in bytes of each of `AADBUF`, `INBUF` and `OUTBUF`: a multiple of 16 with
64 <= `BUF_MAX` <= 65536, and nothing else is known of it (R7). -/
def bufMax : Nat := 16 * bufMaxIndex.val + 64

/-- The number of byte offsets the block decodes, 0x00000 .. 0x3FFFF (20_memory.md R61). -/
def windowSize : Nat := 0x40000

end Sys2Proof.Config
end

