-- ==== Sys2Proof/Syntax.lean ====
section
/-! DEFINITION. The commands of the block (30_encoding.md R94), one constructor per row of the opcode table, and the
events of its port: host accesses and the reset input. -/

namespace Sys2Proof

/-- The eleven commands. Every operand but `KLEN` is implicit (R91). -/
inductive Instr where
  /-- NOP (44_system.md R210). -/
  | nop
  /-- AES.KEYEXP `klen` (40_aes.md R140); `klen` is the immediate of R93, 0 to 3. -/
  | aesKeyexp (klen : Nat)
  /-- AES.ENC (R141). -/
  | aesEnc
  /-- AES.DEC (R142). -/
  | aesDec
  /-- GH.LOADH (41_ghash.md R160). -/
  | ghLoadh
  /-- GH.MULH (R161). -/
  | ghMulh
  /-- GH.HASH (R162). -/
  | ghHash
  /-- GCM.SEAL (42_gcm.md R176). -/
  | gcmSeal
  /-- GCM.OPEN (R177). -/
  | gcmOpen
  /-- KW.WRAP (43_keywrap.md R196). -/
  | kwWrap
  /-- KW.UNWRAP (R197). -/
  | kwUnwrap
deriving DecidableEq, Repr

/-- What can happen at the block's port. Offsets are byte offsets from `BASE` (20_memory.md R61). -/
inductive HostEvent where
  /-- `HostRead32(off)` (R62). -/
  | read32 (off : Nat)
  /-- `HostWrite32(off, v)` (R63). -/
  | write32 (off : Nat) (v : Word)
  /-- An access of another width, which the spec gives no meaning (R66). -/
  | otherWidth (bits : Nat)
  /-- The reset input is asserted and released (70_reset_and_hazards.md R250). -/
  | reset
deriving DecidableEq, Repr

/-- How the bus answers one host access. -/
inductive BusAnswer where
  /-- A read completed with this word (R62). -/
  | data (v : Word)
  /-- A write completed (R63, R70). -/
  | done
  /-- The error response `BusError`, with no data (R69). -/
  | busError
deriving DecidableEq, Repr

end Sys2Proof
end

