-- ==== Sys2Proof/WellFormed.lean ====
section
/-! DEFINITION. Which commands and port events are well formed. -/

namespace Sys2Proof

/-- A command whose operand fits its field: `KLEN` is two bits, 0 to 3 (30_encoding.md R93, R100).
The reserved value 3 is well formed: it is a legal command word (R96). -/
def Instr.wellFormed : Instr → Bool
  | .nop => true
  | .aesKeyexp klen => decide (klen ≤ 3)
  | .aesEnc => true
  | .aesDec => true
  | .ghLoadh => true
  | .ghMulh => true
  | .ghHash => true
  | .gcmSeal => true
  | .gcmOpen => true
  | .kwWrap => true
  | .kwUnwrap => true

/-- A port event the spec gives a meaning: a 32-bit access inside the offsets the block decodes
(20_memory.md R61, R66), misaligned and unmapped ones included, or a reset. -/
def HostEvent.wellFormed : HostEvent → Bool
  | .read32 off => decide (off < Config.windowSize)
  | .write32 off _ => decide (off < Config.windowSize)
  | .otherWidth _ => false
  | .reset => true

end Sys2Proof
end

