-- ==== Sys2Proof/Decode.lean ====
section
/-! DEFINITION. The decoder and the encoder of command words (30_encoding.md R90 to R98). -/

namespace Sys2Proof

/-- Why a command word is illegal (R95). -/
inductive DecodeError where
  /-- `OP` is none of the eleven opcodes. -/
  | unassignedOpcode (op : Byte)
  /-- `OP` is assigned and a bit that must be zero is set. -/
  | reservedBits (op : Byte)
deriving DecidableEq, Repr

/-- `OP`, bits 7:0 of a command word (R91, R92). -/
def opField (c : Word) : Byte := c.extractLsb' 0 8

/-- `KLEN`, bits 9:8 of a format K word, zero-extended (R92, R93). -/
def klenField (c : Word) : Nat := (c.extractLsb' 8 2).toNat

/-- One row of the opcode map (R94). -/
structure OpcodeRow where
  mtch : Word
  mask : Word
  instr : Word → Instr

/-- A word selects a row when `(c AND mask) = match` (R94). -/
def OpcodeRow.selects (r : OpcodeRow) (c : Word) : Bool := c &&& r.mask == r.mtch

/-- The complete opcode map (R94), row by row. -/
def opcodeMap : List OpcodeRow :=
  [ ⟨0x00000000, 0xFFFFFFFF, fun _ => .nop⟩,
    ⟨0x00000001, 0xFFFFFCFF, fun c => .aesKeyexp (klenField c)⟩,
    ⟨0x00000002, 0xFFFFFFFF, fun _ => .aesEnc⟩,
    ⟨0x00000003, 0xFFFFFFFF, fun _ => .aesDec⟩,
    ⟨0x00000010, 0xFFFFFFFF, fun _ => .ghLoadh⟩,
    ⟨0x00000011, 0xFFFFFFFF, fun _ => .ghMulh⟩,
    ⟨0x00000012, 0xFFFFFFFF, fun _ => .ghHash⟩,
    ⟨0x00000020, 0xFFFFFFFF, fun _ => .gcmSeal⟩,
    ⟨0x00000021, 0xFFFFFFFF, fun _ => .gcmOpen⟩,
    ⟨0x00000030, 0xFFFFFFFF, fun _ => .kwWrap⟩,
    ⟨0x00000031, 0xFFFFFFFF, fun _ => .kwUnwrap⟩ ]

/-- The assigned opcodes (R95). -/
def assignedOpcodes : List Byte :=
  [0x00, 0x01, 0x02, 0x03, 0x10, 0x11, 0x12, 0x20, 0x21, 0x30, 0x31]

/-- Decodes one command word, independently of all state (R94, R95, R98). -/
def decode (c : Word) : Except DecodeError Instr :=
  match opcodeMap.find? (·.selects c) with
  | some r => .ok (r.instr c)
  | none =>
    .error (if opField c ∈ assignedOpcodes then .reservedBits (opField c)
      else .unassignedOpcode (opField c))

/-- The command word of a command: its `match`, with `0x100 * KLEN` added for AES.KEYEXP (R94, R100). -/
def encode : Instr → Word
  | .nop => 0x00000000
  | .aesKeyexp klen => 0x00000001 + 0x100 * BitVec.ofNat 32 klen
  | .aesEnc => 0x00000002
  | .aesDec => 0x00000003
  | .ghLoadh => 0x00000010
  | .ghMulh => 0x00000011
  | .ghHash => 0x00000012
  | .gcmSeal => 0x00000020
  | .gcmOpen => 0x00000021
  | .kwWrap => 0x00000030
  | .kwUnwrap => 0x00000031

/-- The command the decoder reads from the word whose low `nbits` bits are `w` and whose other bits
are 0. -/
def decodeTableWord (nbits w : Nat) : Option Instr :=
  match decode (BitVec.ofNat 32 (w % 2 ^ nbits)) with
  | .ok i => some i
  | .error _ => none

end Sys2Proof
end

