-- ==== Sys2Proof/Machine/Bytes.lean ====
section
/-! DEFINITION. Byte strings of a fixed length: their bytes, slices, big-endian integers (00_scope.md R8 to R10), and the
little-endian lanes of the bus (20_memory.md R64). -/

namespace Sys2Proof.Machine

/-- `B[i]`, for `i < n` (R8). -/
def byte {n : Nat} (x : Bytes n) (i : Nat) : Byte := x.extractLsb' (8 * (n - 1 - i)) 8

/-- The byte string with byte `i` equal to `f i`, for `i < n` (R8). -/
def bytesOf : (n : Nat) → (Nat → Byte) → Bytes n
  | 0, _ => 0#0
  | n + 1, f => bytesOf n f ++ f n

/-- The first `n` bytes of a list, extended on the right with 0x00. -/
def ofList (n : Nat) (l : List Byte) : Bytes n := bytesOf n fun i => l.getD i 0

/-- The bytes of a byte string, first byte first. -/
def toList {n : Nat} (x : Bytes n) : List Byte := (List.range n).map (byte x)

/-- `B[i .. i+len)` (R8). -/
def slice {n : Nat} (x : Bytes n) (i len : Nat) : Bytes len := bytesOf len fun k => byte x (i + k)

/-- `f` applied to each byte. -/
def mapBytes {n : Nat} (f : Byte → Byte) (x : Bytes n) : Bytes n := bytesOf n fun i => f (byte x i)

/-- `BE32(v)` (R10). -/
def be32 (v : Nat) : Bytes 4 := BitVec.ofNat (8 * 4) v

/-- `BE64(v)` (R10). -/
def be64 (v : Nat) : Bytes 8 := BitVec.ofNat (8 * 8) v

/-- `be_val(B)` (R10). -/
def beVal {n : Nat} (x : Bytes n) : Nat := x.toNat

/-- Byte lane `k` of a bus word, `v[8k+7:8k]` (20_memory.md R62, R64). -/
def lane (v : Word) (k : Nat) : Byte := v.extractLsb' (8 * k) 8

/-- The bus word with byte `f k` in lane `k` (R64). -/
def wordOfLanes (f : Nat → Byte) : Word := f 3 ++ f 2 ++ f 1 ++ f 0

/-- A byte-array register read at byte offset `off` (R62, R64). -/
def readLanes {n : Nat} (x : Bytes n) (off : Nat) : Word := wordOfLanes fun k => byte x (off + k)

/-- A byte-array register after the word `v` is written at byte offset `off` (R63, R64). -/
def writeLanes {n : Nat} (x : Bytes n) (off : Nat) (v : Word) : Bytes n :=
  bytesOf n fun i => if off ≤ i ∧ i < off + 4 then lane v (i - off) else byte x i

/-- Byte-wise exclusive OR of two byte strings, to the shorter length (R8). -/
def xorBytes (a b : List Byte) : List Byte := List.zipWith (· ^^^ ·) a b

end Sys2Proof.Machine
end

