-- ==== Sys2Proof/Machine/State.lean ====
section
/-! DEFINITION. The state of the block (10_state.md), its reset values (R44), and the reasons a step of the model can stop. -/

namespace Sys2Proof.Machine

/-- Why the model stops with a fault. -/
inductive Fault where
  /-- Raised by a host access whose offset is outside the 256 KiB window the block decodes: what
  lies there belongs to the platform and is not the block's (20_memory.md R61). Safe: the model
  says nothing of such an access (log entry 4). -/
  | outsideBlock
deriving DecidableEq, Repr

/-- Why the model refuses. -/
inductive Refusal where
  /-- Raised by no arm: every command has its meaning. Safe. -/
  | notModelled (mnemonic : String)
  /-- Raised by a host access of another width than 32 bits: an attempt at one is outside what the
  spec gives a meaning, and a model refuses it (20_memory.md R66). Safe (log entry 5). -/
  | accessWidth (bits : Nat)
deriving DecidableEq, Repr

/-- The bytes of one buffer: cells at strictly rising offsets from the buffer's start, none holding
0x00, since an unlisted offset reads as the reset content 0x00 (R41, R44). -/
abbrev Memory := List Host.Cell

/-- A register file of 60 words of 4 bytes (R33, R34). -/
abbrev KeyFile := Vector (Bytes 4) 60

/-- The GHASH multiplication table, 32 x 16 entries (R35). -/
abbrev Table := Vector (Vector Block 16) 32

/-- Everything the block holds (R20), and the model's two fields for the bus. -/
structure State where
  /-- `KEY`, the staging register of the cipher key (R23). -/
  key : Bytes 32
  /-- `BLK_IN` (R24). -/
  blkIn : Block
  /-- `BLK_OUT` (R25). -/
  blkOut : Block
  /-- `H`, the GHASH subkey (R26). -/
  h : Block
  /-- `Y`, the GHASH accumulator (R27). -/
  y : Block
  /-- `NONCE` (R28). -/
  nonce : Bytes 12
  /-- `TAG_IN` (R29). -/
  tagIn : Bytes 12
  /-- `TAG` (R30). -/
  tag : Bytes 12
  /-- `STATUS` (R32), as the word the host reads. -/
  status : Word
  /-- `AAD_LEN` (R37). -/
  aadLen : Word
  /-- `IN_LEN` (R38). -/
  inLen : Word
  /-- `OUT_LEN` (R39). -/
  outLen : Word
  /-- `W`, the encryption round-key file (R33). -/
  w : KeyFile
  /-- `DW`, the decryption round-key file (R34). -/
  dw : KeyFile
  /-- `NK`, the key length in words of the valid schedules, 0 for none (R36). -/
  nk : Nat
  /-- `M`, the GHASH multiplication table (R35). -/
  m : Table
  /-- `AADBUF` (R41). -/
  aadBuf : Memory
  /-- `INBUF` (R41). -/
  inBuf : Memory
  /-- `OUTBUF` (R41). -/
  outBuf : Memory
  /-- The MODEL's own: the port events still to come, the next one first (log entry 2). -/
  script : List HostEvent
  /-- The MODEL's own: how the bus answered the last host access, if there was one since reset
  (log entry 3). -/
  answer : Option BusAnswer
deriving DecidableEq, Repr

/-- The machine after reset (R44, 70_reset_and_hazards.md R250): every register, file, table and
buffer byte zero; nothing of the bus has happened and nothing is to come (log entries 2 and 3). -/
def State.reset : State where
  key := 0
  blkIn := 0
  blkOut := 0
  h := 0
  y := 0
  nonce := 0
  tagIn := 0
  tag := 0
  status := 0
  aadLen := 0
  inLen := 0
  outLen := 0
  w := Vector.replicate 60 0
  dw := Vector.replicate 60 0
  nk := 0
  m := Vector.replicate 32 (Vector.replicate 16 0)
  aadBuf := []
  inBuf := []
  outBuf := []
  script := []
  answer := none

end Sys2Proof.Machine
end

