-- ==== Sys2Proof/Machine/Flags.lean ====
section
/-! DEFINITION. The fields of `STATUS` (10_state.md R32) and the result codes (60_exceptions.md R220). -/

namespace Sys2Proof.Machine

/-- The result codes (R220). -/
inductive ResultCode where
  | ok
  | authFailed
  | keyUnwrapFailed
  | config
  | length
  | illegalCmd
deriving DecidableEq, Repr

/-- The value a result code has in `STATUS.ERR` (R220). -/
def errValue : ResultCode → BitVec 4
  | .ok => 0
  | .authFailed => 1
  | .keyUnwrapFailed => 2
  | .config => 3
  | .length => 4
  | .illegalCmd => 5

/-- A word with the `n`-bit field at bit `lo` replaced by `v`; the other bits keep their values. -/
def putField (st : Word) (lo : Nat) {n : Nat} (v : BitVec n) : Word :=
  (st &&& ~~~((BitVec.allOnes n).setWidth 32 <<< lo)) ||| (v.setWidth 32 <<< lo)

/-- `KEY_VALID`, bit 0 (R32). -/
def keyValidOf (st : Word) : Bool := st.getLsbD 0

/-- `H_VALID`, bit 1 (R32). -/
def hValidOf (st : Word) : Bool := st.getLsbD 1

/-- `KLEN`, bits 3:2 (R32). -/
def klenOf (st : Word) : BitVec 2 := st.extractLsb' 2 2

/-- `ERR`, bits 7:4 (R32). -/
def errOf (st : Word) : BitVec 4 := st.extractLsb' 4 4

/-- `ESTICKY`, bit 8 (R32). -/
def estickyOf (st : Word) : Bool := st.getLsbD 8

/-- The reserved bits 31:9 (R32). -/
def reservedOf (st : Word) : BitVec 23 := st.extractLsb' 9 23

/-- `STATUS.KEY_VALID <- b`. -/
def putKeyValid (st : Word) (b : Bool) : Word := putField st 0 (BitVec.ofBool b)

/-- `STATUS.H_VALID <- b`. -/
def putHValid (st : Word) (b : Bool) : Word := putField st 1 (BitVec.ofBool b)

/-- `STATUS.KLEN <- v`. -/
def putKlen (st : Word) (v : BitVec 2) : Word := putField st 2 v

/-- `STATUS.ERR <- v`. -/
def putErr (st : Word) (v : BitVec 4) : Word := putField st 4 v

/-- `STATUS.ESTICKY <- b`. -/
def putEsticky (st : Word) (b : Bool) : Word := putField st 8 (BitVec.ofBool b)

/-- `STATUS.KEY_VALID` (R40). -/
def State.keyValid (s : State) : Bool := keyValidOf s.status

/-- `STATUS.H_VALID` (R40). -/
def State.hValid (s : State) : Bool := hValidOf s.status

/-- `STATUS.KLEN`. -/
def State.klen (s : State) : BitVec 2 := klenOf s.status

/-- `STATUS.ERR`. -/
def State.err (s : State) : BitVec 4 := errOf s.status

/-- `STATUS.ESTICKY` (R40). -/
def State.esticky (s : State) : Bool := estickyOf s.status

/-- `STATUS` with `ERR` recording a success; `ESTICKY` keeps its value (R32, R220). -/
def statusOk (st : Word) : Word := putErr st (errValue .ok)

/-- `STATUS` with `ERR` recording an error and `ESTICKY` set (R32, R222, R225). -/
def statusError (st : Word) (c : ResultCode) : Word := putEsticky (putErr st (errValue c)) true

end Sys2Proof.Machine
end

