-- ==== Sys2Proof/Machine/Ops.lean ====
section
/-! DEFINITION. The named operations over the buffers and the registers, and how a command ends: with success, with a
precondition error, or with an outcome error (60_exceptions.md). -/

namespace Sys2Proof.Machine

/-! ### Buffers -/

/-- The byte at offset `k`; an unlisted offset reads 0x00, the reset content (10_state.md R44). -/
def Memory.read : Memory → Nat → Byte
  | [], _ => 0
  | (a, b) :: m, k => if a = k then b else Memory.read m k

/-- The buffer with the byte at offset `k` replaced by `b`, in canonical form. -/
def Memory.write : Memory → Nat → Byte → Memory
  | [], k, b => if b = 0 then [] else [(k, b)]
  | (a, c) :: m, k, b =>
    if k < a then (if b = 0 then (a, c) :: m else (k, b) :: (a, c) :: m)
    else if k = a then (if b = 0 then m else (k, b) :: m)
    else (a, c) :: Memory.write m k b

/-- `MemRead(S, off, n)` (00_scope.md R12). -/
def memRead (m : Memory) (off n : Nat) : List Byte := (List.range n).map fun i => m.read (off + i)

/-- `MemWrite(S, off, n, v)`, where `n` is the length of `v` (R12). -/
def memWrite (m : Memory) (off : Nat) : List Byte → Memory
  | [] => m
  | b :: v => memWrite (m.write off b) (off + 1) v

/-- A buffer whose every byte is 0x00 (R44, R225). -/
def Memory.zeros : Memory := []

/-- The canonical form: offsets strictly rising, no listed byte equal to what an unlisted offset
reads as. -/
def Memory.wf : Memory → Bool
  | [] => true
  | (a, b) :: m => b != 0 && m.all (fun c => decide (a < c.1)) && Memory.wf m

/-- Every listed offset lies in the buffer, below `BUF_MAX` (R41). -/
abbrev Memory.inBounds (m : Memory) : Prop := ∀ c ∈ m, c.1 < Config.bufMax

/-! ### Register files -/

/-- A register file with its first words replaced; the words above keep their content (R33, 40_aes.md R140). -/
def loadFile (f : KeyFile) (ws : List (Bytes 4)) : KeyFile :=
  Vector.ofFn fun i => if i.val < ws.length then ws.getD i.val 0 else f[i]

/-! ### How a command ends -/

/-- The state with another `STATUS`. -/
def State.withStatus (s : State) (st : Word) : State := { s with status := st }

/-- The command did what its rule says: `STATUS.ERR <- 0`, `ESTICKY` as it was (60_exceptions.md R220). -/
def State.succeed (s : State) : State := s.withStatus (statusOk s.status)

/-- `raise`: the error is recorded in `STATUS.ERR` and `STATUS.ESTICKY`, and nothing else changes. This
is all of a precondition error (R222), and the block has no other entry to save or to jump to (R231). -/
def State.raise (s : State) (c : ResultCode) : State := s.withStatus (statusError s.status c)

/-- An outcome error: the whole of `OUTBUF` cleared, `OUT_LEN <- 0`, the error recorded (R225). The
block stays usable; there is nothing to return from (R232). -/
def State.raiseOutcome (s : State) (c : ResultCode) : State :=
  { s with outBuf := Memory.zeros, outLen := 0 }.raise c

/-- `STATUS.H_VALID <- b` (10_state.md R26, R32). -/
def State.setHValid (s : State) (b : Bool) : State := s.withStatus (putHValid s.status b)

/-- `NK`, `STATUS.KEY_VALID` and `STATUS.KLEN` after a successful expansion (R36, 40_aes.md R140). -/
def State.setKeyLoaded (s : State) (nk klen : Nat) : State :=
  { s with nk := nk }.withStatus (putKlen (putKeyValid s.status true) (BitVec.ofNat 2 klen))

/-- `OUTBUF[0 .. len(v)) <- v` and `OUT_LEN <- len(v)`; bytes above keep their content (42_gcm.md R175,
43_keywrap.md R196). -/
def State.putOutput (s : State) (v : List Byte) : State :=
  { s with outBuf := memWrite s.outBuf 0 v, outLen := BitVec.ofNat 32 v.length }

end Sys2Proof.Machine
end

