-- ==== Sys2Proof/Machine/Bus.lean ====
section
/-! DEFINITION. The address map of the block and what a host access to a register or a buffer does (20_memory.md). The one
access that runs a command, the write to `CMD`, is in Machine/Port.lean. -/

namespace Sys2Proof.Machine

/-- The named locations of the address map (R61). -/
inductive Loc where
  | cmd | status | aadLen | inLen | outLen
  | key | blkIn | blkOut | h | y | nonce | tagIn | tag
  | aadBuf | inBuf | outBuf
deriving DecidableEq, Repr

/-- The host's access to a location (10_state.md R21, R70). -/
inductive Access where
  | rw | ro | wo
deriving DecidableEq, Repr

/-- The offset of a location's first byte (R61). -/
def locOffset : Loc → Nat
  | .cmd => 0x00000
  | .status => 0x00004
  | .aadLen => 0x00008
  | .inLen => 0x0000C
  | .outLen => 0x00010
  | .key => 0x00020
  | .blkIn => 0x00040
  | .blkOut => 0x00050
  | .h => 0x00060
  | .y => 0x00070
  | .nonce => 0x00080
  | .tagIn => 0x00090
  | .tag => 0x000A0
  | .aadBuf => 0x10000
  | .inBuf => 0x20000
  | .outBuf => 0x30000

/-- The size of a location in bytes (R61). -/
def locSize : Loc → Nat
  | .cmd => 4
  | .status => 4
  | .aadLen => 4
  | .inLen => 4
  | .outLen => 4
  | .key => 32
  | .blkIn => 16
  | .blkOut => 16
  | .h => 16
  | .y => 16
  | .nonce => 12
  | .tagIn => 12
  | .tag => 12
  | .aadBuf => Config.bufMax
  | .inBuf => Config.bufMax
  | .outBuf => Config.bufMax

/-- The host's access to each location (R61). -/
def locAccess : Loc → Access
  | .cmd => .wo
  | .status => .ro
  | .aadLen => .rw
  | .inLen => .rw
  | .outLen => .ro
  | .key => .wo
  | .blkIn => .rw
  | .blkOut => .ro
  | .h => .rw
  | .y => .rw
  | .nonce => .rw
  | .tagIn => .rw
  | .tag => .ro
  | .aadBuf => .rw
  | .inBuf => .rw
  | .outBuf => .ro

/-- The mapped entries in the order of R61. -/
def addressMap : List Loc :=
  [.cmd, .status, .aadLen, .inLen, .outLen, .key, .blkIn, .blkOut, .h, .y, .nonce, .tagIn, .tag,
    .aadBuf, .inBuf, .outBuf]

/-- The four bytes from `off` lie inside the location (R62). -/
def holdsWord (off : Nat) (l : Loc) : Bool :=
  decide (locOffset l ≤ off) && decide (off - locOffset l + 4 ≤ locSize l)

/-- The location a 32-bit access at `off` reaches, or none for a bus error: misaligned, or not all
inside one mapped entry (R62, R66, R69). -/
def locate (off : Nat) : Option Loc :=
  if off % 4 = 0 then addressMap.find? (holdsWord off) else none

/-- The word a buffer holds at a byte offset inside it (R64). -/
def bufWord (m : Memory) (k : Nat) : Word := wordOfLanes fun i => m.read (k + i)

/-- A buffer after a word is written at a byte offset inside it (R63, R64). -/
def bufStore (m : Memory) (k : Nat) (v : Word) : Memory := memWrite m k ((List.range 4).map (lane v))

/-- The word a location holds at byte offset `k` inside it. `CMD` holds nothing (10_state.md R31). -/
def locWord (s : State) (l : Loc) (k : Nat) : Word :=
  match l with
  | .cmd => 0
  | .status => s.status
  | .aadLen => s.aadLen
  | .inLen => s.inLen
  | .outLen => s.outLen
  | .key => readLanes s.key k
  | .blkIn => readLanes s.blkIn k
  | .blkOut => readLanes s.blkOut k
  | .h => readLanes s.h k
  | .y => readLanes s.y k
  | .nonce => readLanes s.nonce k
  | .tagIn => readLanes s.tagIn k
  | .tag => readLanes s.tag k
  | .aadBuf => bufWord s.aadBuf k
  | .inBuf => bufWord s.inBuf k
  | .outBuf => bufWord s.outBuf k

/-- The state after the word `v` is stored at byte offset `k` inside a location the host may write.
A write to a word of `H` also clears `STATUS.H_VALID` (R63, R67); a location the host may not write,
and `CMD`, which is not storage, keep their content (R70). -/
def locStore (s : State) (l : Loc) (k : Nat) (v : Word) : State :=
  match l with
  | .cmd => s
  | .status => s
  | .aadLen => { s with aadLen := v }
  | .inLen => { s with inLen := v }
  | .outLen => s
  | .key => { s with key := writeLanes s.key k v }
  | .blkIn => { s with blkIn := writeLanes s.blkIn k v }
  | .blkOut => s
  | .h => { s with h := writeLanes s.h k v }.setHValid false
  | .y => { s with y := writeLanes s.y k v }
  | .nonce => { s with nonce := writeLanes s.nonce k v }
  | .tagIn => { s with tagIn := writeLanes s.tagIn k v }
  | .tag => s
  | .aadBuf => { s with aadBuf := bufStore s.aadBuf k v }
  | .inBuf => { s with inBuf := bufStore s.inBuf k v }
  | .outBuf => s

/-- `HostRead32(off)`: the answer; a read changes no state (R62, R67). -/
def hostRead32 (s : State) (off : Nat) : BusAnswer :=
  match locate off with
  | none => .busError
  | some l => .data (if locAccess l = .wo then 0 else locWord s l (off - locOffset l))

/-- The state with the bus's answer recorded. -/
def State.answered (s : State) (a : BusAnswer) : State := { s with answer := some a }

end Sys2Proof.Machine
end

