-- ==== Sys2Proof/Machine/Operands.lean ====
section
/-! DEFINITION. The operands of the commands and the checks made on them before a command body runs (60_exceptions.md R226). -/

namespace Sys2Proof.Machine

/-- The key length in words that `KLEN` selects, `4 + 2 * KLEN`, or none for the reserved value 3
(30_encoding.md R93, R96). -/
def keyWords? (klen : Nat) : Option Nat := if klen < 3 then some (4 + 2 * klen) else none

/-- `Nr = NK + 6` (10_state.md R36). -/
def State.nr (s : State) : Nat := s.nk + 6

/-- `KEY[0 .. 4*nk)` (R23). -/
def State.keyOperand (s : State) (nk : Nat) : List Byte := (toList s.key).take (4 * nk)

/-- `AADBUF[0 .. AAD_LEN)` (R37). -/
def State.aadOperand (s : State) : List Byte := memRead s.aadBuf 0 s.aadLen.toNat

/-- `INBUF[0 .. IN_LEN)` (R38). -/
def State.dataOperand (s : State) : List Byte := memRead s.inBuf 0 s.inLen.toNat

/-- The lengths GH.HASH, GCM.SEAL and GCM.OPEN accept (R224), compared as unsigned integers. -/
def State.lengthsOk (s : State) : Bool :=
  decide (s.aadLen.toNat ≤ Config.bufMax) && decide (s.inLen.toNat ≤ Config.bufMax)

/-- The length KW.WRAP accepts (43_keywrap.md R193). -/
def State.wrapLengthOk (s : State) : Bool :=
  decide (s.inLen.toNat % 8 = 0) && decide (16 ≤ s.inLen.toNat)
    && decide (s.inLen.toNat + 8 ≤ Config.bufMax)

/-- The length KW.UNWRAP accepts (R193). -/
def State.unwrapLengthOk (s : State) : Bool :=
  decide (s.inLen.toNat % 8 = 0) && decide (24 ≤ s.inLen.toNat)
    && decide (s.inLen.toNat ≤ Config.bufMax)

/-- The first check of a list that fails, with the error it raises; the checks stand in the order of
R226 and a command ends at the first that fails. -/
def firstFailure : List (Bool × ResultCode) → Option ResultCode
  | [] => none
  | (passed, c) :: rest => if passed then firstFailure rest else some c

/-- Check 3 of R226: a key has been expanded, else CONFIG (R223). -/
def State.keyCheck (s : State) : Bool × ResultCode := (s.keyValid, .config)

/-- Check 4 of R226: the table matches `H`, else CONFIG (R223). -/
def State.tableCheck (s : State) : Bool × ResultCode := (s.hValid, .config)

/-- Check 5 of R226 for GH.HASH, GCM.SEAL and GCM.OPEN, else LENGTH (R224). -/
def State.lengthCheck (s : State) : Bool × ResultCode := (s.lengthsOk, .length)

/-- Check 5 of R226 for KW.WRAP (R224, R193). -/
def State.wrapCheck (s : State) : Bool × ResultCode := (s.wrapLengthOk, .length)

/-- Check 5 of R226 for KW.UNWRAP (R224, R193). -/
def State.unwrapCheck (s : State) : Bool × ResultCode := (s.unwrapLengthOk, .length)

/-- A command behind its checks: the first that fails ends it with a precondition error, and the body
does not run at all (R222, R226). -/
def State.checked (s : State) (checks : List (Bool × ResultCode))
    (body : Unit → Host.Outcome State Fault Refusal) : Host.Outcome State Fault Refusal :=
  match firstFailure checks with
  | some c => .next (s.raise c)
  | none => body ()

end Sys2Proof.Machine
end

