-- ==== Sys2Proof/Machine/Aes.lean ====
section
/-! DEFINITION. The AES block cipher (40_aes.md) and the commands AES.KEYEXP, AES.ENC and AES.DEC. -/

namespace Sys2Proof.Machine

/-! ### Bytes and tables (R121 to R123, R128) -/

/-- `xtime(a)` (R121). -/
def xtime (a : Byte) : Byte := if a.getLsbD 7 then (a <<< 1) ^^^ 0x1B else a <<< 1

/-- `xtime^k(a)` (R121). -/
def xtimePow (a : Byte) : Nat → Byte
  | 0 => a
  | k + 1 => xtime (xtimePow a k)

/-- The product `a • b`: the exclusive OR of `xtime^k(a)` over the bits `k` of `b` that are 1 (R121). -/
def gmul (a b : Byte) : Byte :=
  (List.range 8).foldl (fun z k => if b.getLsbD k then z ^^^ xtimePow a k else z) 0

/-- `2•a`, `3•a`, `9•a`, `11•a`, `13•a` and `14•a` as R121 gives them. -/
def mul2 (a : Byte) : Byte := xtime a
@[inherit_doc mul2] def mul3 (a : Byte) : Byte := xtime a ^^^ a
@[inherit_doc mul2] def mul9 (a : Byte) : Byte := xtimePow a 3 ^^^ a
@[inherit_doc mul2] def mul11 (a : Byte) : Byte := xtimePow a 3 ^^^ xtime a ^^^ a
@[inherit_doc mul2] def mul13 (a : Byte) : Byte := xtimePow a 3 ^^^ xtimePow a 2 ^^^ a
@[inherit_doc mul2] def mul14 (a : Byte) : Byte := xtimePow a 3 ^^^ xtimePow a 2 ^^^ xtime a

/-- The rows 0x to Fx of the table of R122. -/
def sboxRows : List Block :=
  [ 0x637c777bf26b6fc53001672bfed7ab76,
    0xca82c97dfa5947f0add4a2af9ca472c0,
    0xb7fd9326363ff7cc34a5e5f171d83115,
    0x04c723c31896059a071280e2eb27b275,
    0x09832c1a1b6e5aa0523bd6b329e32f84,
    0x53d100ed20fcb15b6acbbe394a4c58cf,
    0xd0efaafb434d338545f9027f503c9fa8,
    0x51a3408f929d38f5bcb6da2110fff3d2,
    0xcd0c13ec5f974417c4a77e3d645d1973,
    0x60814fdc222a908846eeb814de5e0bdb,
    0xe0323a0a4906245cc2d3ac629195e479,
    0xe7c8376d8dd54ea96c56f4ea657aae08,
    0xba78252e1ca6b4c6e8dd741f4bbd8b8a,
    0x703eb5664803f60e613557b986c11d9e,
    0xe1f8981169d98e949b1e87e9ce5528df,
    0x8ca1890dbfe6426841992d0fb054bb16 ]

/-- The rows 0x to Fx of the table of R123. -/
def invSboxRows : List Block :=
  [ 0x52096ad53036a538bf40a39e81f3d7fb,
    0x7ce339829b2fff87348e4344c4dee9cb,
    0x547b9432a6c2233dee4c950b42fac34e,
    0x082ea16628d924b2765ba2496d8bd125,
    0x72f8f66486689816d4a45ccc5d65b692,
    0x6c704850fdedb9da5e154657a78d9d84,
    0x90d8ab008cbcd30af7e45805b8b34506,
    0xd02c1e8fca3f0f02c1afbd0301138a6b,
    0x3a9111414f67dcea97f2cfcef0b4e673,
    0x96ac7422e7ad3585e2f937e81c75df6e,
    0x47f11a711d29c5896fb7620eaa18be1b,
    0xfc563e4bc6d279209adbc0fe78cd5af4,
    0x1fdda8338807c731b11210592780ec5f,
    0x60517fa919b54a0d2de57a9f93c99cef,
    0xa0e03b4dae2af5b0c8ebbb3c83539961,
    0x172b047eba77d626e169146355210c7d ]

/-- The entry of a table of 16 rows for `a = 16*row + col` (R122). -/
def tableEntry (rows : List Block) (a : Byte) : Byte :=
  byte (rows.getD (a.toNat / 16) 0) (a.toNat % 16)

/-- `SBOX[a]` (R122). -/
def sbox (a : Byte) : Byte := tableEntry sboxRows a

/-- `INV_SBOX[a]` (R123). -/
def invSbox (a : Byte) : Byte := tableEntry invSboxRows a

/-- `RCON[1..10]` (R128). -/
def rconTable : List Byte := [0x01, 0x02, 0x04, 0x08, 0x10, 0x20, 0x40, 0x80, 0x1b, 0x36]

/-- `RCON[i]`, for `1 <= i <= 10`; no other index is used (R128). -/
def rcon (i : Nat) : Byte := rconTable.getD (i - 1) 0

/-! ### Round transformations (R124 to R126, R130) -/

/-- `SubBytes` and, on a word, `SubWord` (R124). -/
def subBytes {n : Nat} (s : Bytes n) : Bytes n := mapBytes sbox s

/-- `InvSubBytes` (R124). -/
def invSubBytes {n : Nat} (s : Bytes n) : Bytes n := mapBytes invSbox s

/-- `ShiftRows`: row `r = i mod 4`, column `c = i div 4` takes column `(c + r) mod 4` (R125). -/
def shiftRows (s : Block) : Block :=
  bytesOf 16 fun i => byte s (i % 4 + 4 * ((i / 4 + i % 4) % 4))

/-- `InvShiftRows`: row `r`, column `c` takes column `(c - r) mod 4` (R125). -/
def invShiftRows (s : Block) : Block :=
  bytesOf 16 fun i => byte s (i % 4 + 4 * ((i / 4 + 4 - i % 4) % 4))

/-- `MixColumns` on one column (R126). -/
def mixWord (w : Bytes 4) : Bytes 4 :=
  let a0 := byte w 0
  let a1 := byte w 1
  let a2 := byte w 2
  let a3 := byte w 3
  (mul2 a0 ^^^ mul3 a1 ^^^ a2 ^^^ a3) ++ (a0 ^^^ mul2 a1 ^^^ mul3 a2 ^^^ a3)
    ++ (a0 ^^^ a1 ^^^ mul2 a2 ^^^ mul3 a3) ++ (mul3 a0 ^^^ a1 ^^^ a2 ^^^ mul2 a3)

/-- `InvMixWord`: `InvMixColumns` on one column or word (R126). -/
def invMixWord (w : Bytes 4) : Bytes 4 :=
  let a0 := byte w 0
  let a1 := byte w 1
  let a2 := byte w 2
  let a3 := byte w 3
  (mul14 a0 ^^^ mul11 a1 ^^^ mul13 a2 ^^^ mul9 a3) ++ (mul9 a0 ^^^ mul14 a1 ^^^ mul11 a2 ^^^ mul13 a3)
    ++ (mul13 a0 ^^^ mul9 a1 ^^^ mul14 a2 ^^^ mul11 a3)
    ++ (mul11 a0 ^^^ mul13 a1 ^^^ mul9 a2 ^^^ mul14 a3)

/-- Column `c` of the state, `s[4c .. 4c+4)` (R120). -/
def column (s : Block) (c : Nat) : Bytes 4 := slice s (4 * c) 4

/-- A map of columns applied to each column of the state. -/
def mapColumns (f : Bytes 4 → Bytes 4) (s : Block) : Block :=
  f (column s 0) ++ f (column s 1) ++ f (column s 2) ++ f (column s 3)

/-- `MixColumns` (R126). -/
def mixColumns (s : Block) : Block := mapColumns mixWord s

/-- `InvMixColumns` (R126). -/
def invMixColumns (s : Block) : Block := mapColumns invMixWord s

/-- The words of a round-key schedule, `W[0]` first. -/
abbrev Schedule := List (Bytes 4)

/-- `RoundKey(W, r)` (R130). -/
def roundKey (w : Schedule) (r : Nat) : Block :=
  w.getD (4 * r) 0 ++ w.getD (4 * r + 1) 0 ++ w.getD (4 * r + 2) 0 ++ w.getD (4 * r + 3) 0

/-- `AddRoundKey(s, k)` (R130). -/
def addRoundKey (s k : Block) : Block := s ^^^ k

/-! ### Key schedules (R127, R129) -/

/-- `RotWord` (R127). -/
def rotWord (w : Bytes 4) : Bytes 4 := slice w 1 3 ++ byte w 0

/-- The round-constant word `(RCON[i], 0, 0, 0)` (R128). -/
def rconWord (i : Nat) : Bytes 4 := rcon i ++ (0 : BitVec 24)

/-- Appends `W[i]`, `i` being the number of words there are (the second loop of R127). -/
def expandWord (nk : Nat) (w : Schedule) : Schedule :=
  let i := w.length
  let t := w.getD (i - 1) 0
  let t :=
    if i % nk = 0 then subBytes (rotWord t) ^^^ rconWord (i / nk)
    else if 6 < nk ∧ i % nk = 4 then subBytes t
    else t
  w ++ [w.getD (i - nk) 0 ^^^ t]

/-- The first `Nk` words of the schedule, the key itself (the first loop of R127). -/
def keyWords (nk : Nat) (k : List Byte) : Schedule :=
  (List.range nk).map fun i => ofList 4 (k.drop (4 * i))

/-- `expandWord` `n` times. -/
def expandTimes (nk : Nat) : Nat → Schedule → Schedule
  | 0, w => w
  | n + 1, w => expandTimes nk n (expandWord nk w)

/-- `KeyExpansion(K)` for a key `K` of `4*Nk` bytes: the words `W[0 .. 4*(Nr+1))`, `Nr = Nk + 6` (R127). -/
def keyExpansion (nk : Nat) (k : List Byte) : Schedule :=
  expandTimes nk (4 * (nk + 7) - nk) (keyWords nk k)

/-- `DecKeySchedule(W, Nr)`: the inverse mix-column transform on the round keys 1 to `Nr - 1` (R129;
90_conflicts.md C3). -/
def decKeySchedule (w : Schedule) (nr : Nat) : Schedule :=
  (List.range (4 * (nr + 1))).map fun i =>
    if 4 ≤ i ∧ i < 4 * nr then invMixWord (w.getD i 0) else w.getD i 0

/-! ### The block functions (R131, R137) -/

/-- The state after the initial `AddRoundKey` and the rounds 1 to `r` of `AesEnc` (R131). -/
def encRounds (w : Schedule) (x : Block) : Nat → Block
  | 0 => addRoundKey x (roundKey w 0)
  | r + 1 => addRoundKey (mixColumns (shiftRows (subBytes (encRounds w x r)))) (roundKey w (r + 1))

/-- `AesEnc(W, Nr, X)` (R131). -/
def aesEnc (w : Schedule) (nr : Nat) (x : Block) : Block :=
  addRoundKey (shiftRows (subBytes (encRounds w x (nr - 1)))) (roundKey w nr)

/-- The rounds `r` down to 1 of `AesDec` (R137). -/
def decRounds (dw : Schedule) (s : Block) : Nat → Block
  | 0 => s
  | r + 1 =>
    decRounds dw (addRoundKey (invMixColumns (invShiftRows (invSubBytes s))) (roundKey dw (r + 1))) r

/-- `AesDec(DW, Nr, X)`, the equivalent inverse cipher (R137). -/
def aesDec (dw : Schedule) (nr : Nat) (x : Block) : Block :=
  addRoundKey (invShiftRows (invSubBytes (decRounds dw (addRoundKey x (roundKey dw nr)) (nr - 1))))
    (roundKey dw 0)

/-- `AesEnc` under the current key, `AesEnc(W, NK + 6, X)`. -/
def State.encBlock (s : State) (x : Block) : Block := aesEnc s.w.toList s.nr x

/-- `AesDec` under the current key, `AesDec(DW, NK + 6, X)`. -/
def State.decBlock (s : State) (x : Block) : Block := aesDec s.dw.toList s.nr x

/-! ### Commands (R139 to R142) -/

/-- AES.KEYEXP (R140); `KLEN` = 3 ends with CONFIG (30_encoding.md R96). -/
def execAesKeyexp (klen : Nat) (s : State) : Host.Outcome State Fault Refusal :=
  match keyWords? klen with
  | none => .next (s.raise .config)
  | some nk =>
    let wn := keyExpansion nk (s.keyOperand nk)
    let s1 := { s with w := loadFile s.w wn, dw := loadFile s.dw (decKeySchedule wn (nk + 6)) }
    .next (s1.setKeyLoaded nk klen).succeed

/-- AES.ENC (R141). -/
def execAesEnc (s : State) : Host.Outcome State Fault Refusal :=
  s.checked [s.keyCheck] fun _ => .next { s with blkOut := s.encBlock s.blkIn }.succeed

/-- AES.DEC (R142). -/
def execAesDec (s : State) : Host.Outcome State Fault Refusal :=
  s.checked [s.keyCheck] fun _ => .next { s with blkOut := s.decBlock s.blkIn }.succeed

end Sys2Proof.Machine
end

