-- ==== Sys2Proof/Machine/Ghash.lean ====
section
/-! DEFINITION. The Galois-field multiplier and GHASH (41_ghash.md) and the commands GH.LOADH, GH.MULH and GH.HASH. -/

namespace Sys2Proof.Machine

/-! ### The field (R150 to R152) -/

/-- `gbit(X, i)`, the coefficient of x^i (R150). -/
def gbit (x : Block) (i : Nat) : Bool := (byte x (i / 8)).getLsbD (7 - i % 8)

/-- `MulX(V)`: the 128-bit string shifted right by one bit position, with 0xE1 XORed into byte 0 when
the bit shifted out was 1 (R151). -/
def mulX (v : Block) : Block :=
  if v.getLsbD 0 then (v >>> 1) ^^^ ((0xE1 : Byte) ++ (0 : BitVec 120)) else v >>> 1

/-- The steps `i`, `i + 1`, ... of the loop of `GfMul`, `n` of them (R152). -/
def gfMulLoop (x : Block) : Nat → Nat → Block → Block → Block
  | 0, _, z, _ => z
  | n + 1, i, z, v => gfMulLoop x n (i + 1) (if gbit x i then z ^^^ v else z) (mulX v)

/-- `GfMul(X, Y)` (R152). -/
def gfMul (x y : Block) : Block := gfMulLoop x 128 0 0 y

/-! ### The table (R154, R155) -/

/-- `nib(X, p)`, the nibble at position `p` (R154). -/
def nib (x : Block) (p : Nat) : Nat :=
  if p % 2 = 0 then (byte x (p / 2)).toNat / 16 else (byte x (p / 2)).toNat % 16

/-- `E(p, j)`, the block whose nibble at position `p` is `j` and whose other nibbles are 0 (R154). -/
def nibbleBlock (p j : Nat) : Block :=
  bytesOf 16 fun k =>
    if k = p / 2 then BitVec.ofNat 8 (if p % 2 = 0 then 16 * j else j) else 0

/-- `BuildTable(H)` (R154). -/
def buildTable (h : Block) : Table :=
  Vector.ofFn fun p => Vector.ofFn fun j => gfMul (nibbleBlock p.val j.val) h

/-- `M[p][j]`, for `p < 32` and `j < 16` (10_state.md R35). -/
def tableAt (m : Table) (p j : Nat) : Block := (m[p]?.getD (Vector.replicate 16 0))[j]?.getD 0

/-- `MulH(X)` through the table `M` (R155). -/
def mulH (m : Table) (x : Block) : Block :=
  (List.range 32).foldl (fun z p => z ^^^ tableAt m p (nib x p)) 0

/-! ### GHASH (R157) -/

/-- `ceil(n / 16)` (44_system.md R214). -/
def blockCount (n : Nat) : Nat := (n + 15) / 16

/-- `Blocks(D)`: consecutive 16-byte pieces, the last one zero-padded on the right (R157). -/
def blocks (d : List Byte) : List Block :=
  (List.range (blockCount d.length)).map fun k => ofList 16 (d.drop (16 * k))

/-- XOR-then-multiply over a list of blocks, starting from `y` (R157). -/
def foldBlocks (mul : Block → Block) (y : Block) (bs : List Block) : Block :=
  bs.foldl (fun y b => mul (y ^^^ b)) y

/-- The length block `BE64(8 * len(A)) ‖ BE64(8 * len(C))` (R157). -/
def lengthBlock (a c : List Byte) : Block := be64 (8 * a.length) ++ be64 (8 * c.length)

/-- The fold of `Ghash` with multiplication by the subkey done by `mul`; `A` and `C` are padded
separately (R157; 90_conflicts.md C1). -/
def ghashWith (mul : Block → Block) (a c : List Byte) : Block :=
  mul (foldBlocks mul (foldBlocks mul 0 (blocks a)) (blocks c) ^^^ lengthBlock a c)

/-- `Ghash(H, A, C)` (R157). -/
def ghash (h : Block) (a c : List Byte) : Block := ghashWith (fun x => gfMul x h) a c

/-! ### Commands (R159 to R162) -/

/-- GH.LOADH (R160). -/
def execGhLoadh (s : State) : Host.Outcome State Fault Refusal :=
  .next ({ s with m := buildTable s.h }.setHValid true).succeed

/-- GH.MULH (R161). -/
def execGhMulh (s : State) : Host.Outcome State Fault Refusal :=
  s.checked [s.tableCheck] fun _ => .next { s with y := mulH s.m s.y }.succeed

/-- GH.HASH, every multiplication done through the table (R162). -/
def execGhHash (s : State) : Host.Outcome State Fault Refusal :=
  s.checked [s.tableCheck, s.lengthCheck] fun _ =>
    .next { s with y := ghashWith (mulH s.m) s.aadOperand s.dataOperand }.succeed

end Sys2Proof.Machine
end

