-- ==== Sys2Proof/Machine/Gcm.lean ====
section
/-! DEFINITION. The GCM engine (42_gcm.md) and the commands GCM.SEAL and GCM.OPEN. -/

namespace Sys2Proof.Machine

/-- The pre-counter block `J0 = NONCE ‖ 00 00 00 01` (R171). -/
def preCounter (nonce : Bytes 12) : Block := nonce ++ be32 1

/-- `Inc32(CB)`: bytes 12..15 incremented modulo 2^32, bytes 0..11 unchanged (R172). -/
def inc32 (cb : Block) : Block := slice cb 0 12 ++ be32 (beVal (slice cb 12 4) + 1)

/-- The loop of `Gctr` over the `n` blocks that are left of `D`, the counter block standing at `cb`;
each data block uses the counter after its increment, the last one only the keystream bytes it needs
(R173; 90_conflicts.md C2). -/
def gctrLoop (enc : Block → Block) : Nat → Block → List Byte → List Byte
  | 0, _, _ => []
  | n + 1, cb, d =>
    xorBytes (d.take 16) (toList (enc (inc32 cb))) ++ gctrLoop enc n (inc32 cb) (d.drop 16)

/-- `Gctr(W, Nr, J0, D)`, where `enc` is `AesEnc(W, Nr, ·)` (R173). -/
def gctr (enc : Block → Block) (j0 : Block) (d : List Byte) : List Byte :=
  gctrLoop enc (blockCount d.length) j0 d

/-- The subkey `Hk = AesEnc(W, Nr, zeros(16))` of the current key (R171). -/
def State.subkey (s : State) : Block := s.encBlock 0

/-- `Gctr` of a string under the current key and nonce (R173). -/
def State.ctr (s : State) (d : List Byte) : List Byte := gctr s.encBlock (preCounter s.nonce) d

/-- The hash `S = Ghash(Hk, A, C)` of `AADBUF` and a ciphertext under the current key (R174). -/
def State.gcmHash (s : State) (c : List Byte) : Block := ghash s.subkey s.aadOperand c

/-- The tag `T = (AesEnc(W, Nr, J0) ^ S)[0 .. 12)` of a ciphertext (R174). -/
def State.gcmTag (s : State) (c : List Byte) : Bytes 12 :=
  slice (s.encBlock (preCounter s.nonce) ^^^ s.gcmHash c) 0 12

/-- What both commands write whatever the outcome: `H`, `M`, `H_VALID` and `Y` (R176, R177). -/
def State.putGcm (s : State) (c : List Byte) : State :=
  { s with h := s.subkey, m := buildTable s.subkey, y := s.gcmHash c }.setHValid true

/-- GCM.SEAL (R176). -/
def execGcmSeal (s : State) : Host.Outcome State Fault Refusal :=
  s.checked [s.keyCheck, s.lengthCheck] fun _ =>
    let c := s.ctr s.dataOperand
    .next { (s.putGcm c).putOutput c with tag := s.gcmTag c }.succeed

/-- GCM.OPEN (R177): the comparison is equality of all 12 bytes (90_conflicts.md C8). -/
def execGcmOpen (s : State) : Host.Outcome State Fault Refusal :=
  s.checked [s.keyCheck, s.lengthCheck] fun _ =>
    let c := s.dataOperand
    if s.gcmTag c = s.tagIn then .next ((s.putGcm c).putOutput (s.ctr c)).succeed
    else .next ((s.putGcm c).raiseOutcome .authFailed)

end Sys2Proof.Machine
end

