-- ==== Sys2Proof/Machine/KeyWrap.lean ====
section
/-! DEFINITION. The RFC 3394 key wrap (43_keywrap.md) and the commands KW.WRAP and KW.UNWRAP. -/

namespace Sys2Proof.Machine

/-- The integrity vector `A0` (R191). -/
def integrityVector : Bytes 8 := 0xA6A6A6A6A6A6A6A6

/-- The number of 8-byte blocks a string is cut into. -/
def halfBlockCount (d : List Byte) : Nat := d.length / 8

/-- The consecutive 8-byte pieces of a string (R192, R194). -/
def halfBlocks (d : List Byte) : List (Bytes 8) :=
  (List.range (halfBlockCount d)).map fun i => ofList 8 (d.drop (8 * i))

/-- The inner loop of `KwWrap` for one `j`: the blocks `R[i]`, `R[i+1]`, ... that are left, the step
counter of the first of them being `t` (R192). -/
def wrapPass (enc : Block → Block) : Nat → Bytes 8 → List (Bytes 8) → Bytes 8 × List (Bytes 8)
  | _, a, [] => (a, [])
  | t, a, r :: rs =>
    let b := enc (a ++ r)
    let rest := wrapPass enc (t + 1) (slice b 0 8 ^^^ be64 t) rs
    (rest.1, slice b 8 8 :: rest.2)

/-- The inner loop of `KwUnwrap` for one `j`, from the last block back to the first; `t` is the step
counter of the first block of the list (R194). -/
def unwrapPass (dec : Block → Block) : Nat → Bytes 8 → List (Bytes 8) → Bytes 8 × List (Bytes 8)
  | _, a, [] => (a, [])
  | t, a, r :: rs =>
    let rest := unwrapPass dec (t + 1) a rs
    let b := dec ((rest.1 ^^^ be64 t) ++ r)
    (slice b 0 8, slice b 8 8 :: rest.2)

/-- The rounds `j` of `KwWrap` from the one where `t` starts at `n*j + 1`, for each `j` listed (R192). -/
def wrapRounds (enc : Block → Block) (ar : Bytes 8 × List (Bytes 8)) (js : List Nat) :
    Bytes 8 × List (Bytes 8) :=
  js.foldl (fun ar j => wrapPass enc (ar.2.length * j + 1) ar.1 ar.2) ar

/-- The rounds `j` of `KwUnwrap`, for each `j` listed (R194). -/
def unwrapRounds (dec : Block → Block) (ar : Bytes 8 × List (Bytes 8)) (js : List Nat) :
    Bytes 8 × List (Bytes 8) :=
  js.foldl (fun ar j => unwrapPass dec (ar.2.length * j + 1) ar.1 ar.2) ar

/-- `KwWrap(W, Nr, P)`, where `enc` is `AesEnc(W, Nr, ·)` (R192). -/
def kwWrap (enc : Block → Block) (p : List Byte) : List Byte :=
  let ar := wrapRounds enc (integrityVector, halfBlocks p) [0, 1, 2, 3, 4, 5]
  toList ar.1 ++ ar.2.flatMap toList

/-- `KwUnwrap(DW, Nr, C)`, where `dec` is `AesDec(DW, Nr, ·)`: the recovered `A` and the key data (R194). -/
def kwUnwrap (dec : Block → Block) (c : List Byte) : Bytes 8 × List Byte :=
  let ar := unwrapRounds dec (ofList 8 c, halfBlocks (c.drop 8)) [5, 4, 3, 2, 1, 0]
  (ar.1, ar.2.flatMap toList)

/-- KW.WRAP (R196). -/
def execKwWrap (s : State) : Host.Outcome State Fault Refusal :=
  s.checked [s.keyCheck, s.wrapCheck] fun _ =>
    .next (s.putOutput (kwWrap s.encBlock s.dataOperand)).succeed

/-- KW.UNWRAP (R197). -/
def execKwUnwrap (s : State) : Host.Outcome State Fault Refusal :=
  s.checked [s.keyCheck, s.unwrapCheck] fun _ =>
    let ap := kwUnwrap s.decBlock s.dataOperand
    if ap.1 = integrityVector then .next (s.putOutput ap.2).succeed
    else .next (s.raiseOutcome .keyUnwrapFailed)

end Sys2Proof.Machine
end

