-- ==== Sys2Proof/Machine/System.lean ====
section
/-! DEFINITION. The system command NOP (44_system.md). -/

namespace Sys2Proof.Machine

/-- NOP: reports success and does nothing else (R210). -/
def execNop (s : State) : Host.Outcome State Fault Refusal := .next s.succeed

end Sys2Proof.Machine
end

