-- ==== Sys2Proof/Machine/Dispatch.lean ====
section
/-! DEFINITION. Which meaning each command has: one arm per constructor of Instr. -/

namespace Sys2Proof.Machine

def exec (i : Instr) (s : State) : Host.Outcome State Fault Refusal :=
  match i with
  | .nop => Sys2Proof.Machine.execNop s
  | .aesKeyexp klen => Sys2Proof.Machine.execAesKeyexp klen s
  | .aesEnc => Sys2Proof.Machine.execAesEnc s
  | .aesDec => Sys2Proof.Machine.execAesDec s
  | .ghLoadh => Sys2Proof.Machine.execGhLoadh s
  | .ghMulh => Sys2Proof.Machine.execGhMulh s
  | .ghHash => Sys2Proof.Machine.execGhHash s
  | .gcmSeal => Sys2Proof.Machine.execGcmSeal s
  | .gcmOpen => Sys2Proof.Machine.execGcmOpen s
  | .kwWrap => Sys2Proof.Machine.execKwWrap s
  | .kwUnwrap => Sys2Proof.Machine.execKwUnwrap s

end Sys2Proof.Machine
end

