-- ==== Sys2Proof/Machine/Port.lean ====
section
/-! DEFINITION. The port of the block: a command word written to `CMD`, a host write, and one event of the script. -/

namespace Sys2Proof.Machine

/-- What the engine does with a word written to `CMD`: it executes the command the word encodes, and
an illegal word ends with ILLEGAL_CMD and changes nothing else (10_state.md R31, 30_encoding.md R95). -/
def command (c : Word) (s : State) : Host.Outcome State Fault Refusal :=
  match decode c with
  | .ok i => exec i s
  | .error _ => .next (s.raise .illegalCmd)

/-- The outcome of a command with the bus's answer added: the write to `CMD` completes when the command
has ended (20_memory.md R68). -/
def completed : Host.Outcome State Fault Refusal → Host.Outcome State Fault Refusal
  | .next s => .next (s.answered .done)
  | .fault r => .fault r
  | .refused r => .refused r

/-- `HostWrite32(off, v)` (R63, R69, R70). -/
def hostWrite32 (s : State) (off : Nat) (v : Word) : Host.Outcome State Fault Refusal :=
  match locate off with
  | none => .next (s.answered .busError)
  | some .cmd => completed (command v s)
  | some l => .next ((locStore s l (off - locOffset l) v).answered .done)

/-- One event at the port. Reset gives every piece of the block's state its reset value
(70_reset_and_hazards.md R250); what the host does afterwards is still to come. -/
def perform (e : HostEvent) (s : State) : Host.Outcome State Fault Refusal :=
  match e with
  | .read32 off =>
    if off < Config.windowSize then .next (s.answered (hostRead32 s off)) else .fault .outsideBlock
  | .write32 off v =>
    if off < Config.windowSize then hostWrite32 s off v else .fault .outsideBlock
  | .otherWidth bits => .refused (.accessWidth bits)
  | .reset => .next { State.reset with script := s.script }

/-- The machine takes the next event of the script; with none to come the block is idle
(10_state.md R20). -/
def advance (s : State) : Host.Outcome State Fault Refusal :=
  match s.script with
  | [] => .next s
  | e :: rest => perform e { s with script := rest }

end Sys2Proof.Machine
end

