-- ==== Sys2Proof/Machine/Step.lean ====
section
/-! DEFINITION. One step of the machine, and how a command word is placed where the next step takes it. -/

namespace Sys2Proof.Machine

/-- One step: one host access or one reset (20_memory.md R68, R72). -/
def step (s : State) : Host.Outcome State Fault Refusal := advance s

/-- `s` with the host's next access being `HostWrite32(0x000, w)`, the write that makes the engine
execute the command word `w` (30_encoding.md R90; log entry 2). -/
def State.withFetchWord (s : State) (nbits w : Nat) : State :=
  { s with script := .write32 (locOffset .cmd) (BitVec.ofNat 32 (w % 2 ^ nbits)) :: s.script }

end Sys2Proof.Machine
end

