-- ==== Sys2Proof/Machine/HostScript.lean ====
section
/-! DEFINITION. The host-script notation (30_encoding.md R100 to R102): statements, their bus accesses, and how an access
is written down. It is notation for the host's side; the block parses none of it. -/

namespace Sys2Proof.Machine

/-- `<loc>` (R100): a register or buffer with a byte offset inside it, or a bare offset. -/
inductive Place where
  | named (l : Loc) (n : Nat)
  | bare (off : Nat)
deriving DecidableEq, Repr

/-- `off(<loc>)` (R100). -/
def placeOffset : Place → Nat
  | .named l n => locOffset l + n
  | .bare off => off

/-- The statements of R100 and the pseudo-statements of R101. -/
inductive Stmt where
  /-- `wr <loc>, <word>` -/
  | wr (p : Place) (v : Word)
  /-- `rd <loc>` -/
  | rd (p : Place)
  /-- `cmd <mnemonic>`, and `cmd AES.KEYEXP, <klen>` -/
  | cmd (i : Instr)
  /-- `ldb <loc>, <hex string>` -/
  | ldb (p : Place) (d : List Byte)
  /-- `ldkey <hex string>` -/
  | ldkey (d : List Byte)
  /-- `ldaad <hex string>` -/
  | ldaad (d : List Byte)
  /-- `ldin <hex string>` -/
  | ldin (d : List Byte)
  /-- `rdb <loc>, <n>` -/
  | rdb (p : Place) (n : Nat)
  /-- `chk` -/
  | chk
deriving DecidableEq, Repr

/-- `<loc>`'s byte offset `n` must be a multiple of 4 (R100). -/
def placeOk : Place → Bool
  | .named _ n => decide (n % 4 = 0)
  | .bare _ => true

/-- What R100 and R101 ask of a statement: `<n>` a multiple of 4, `<klen>` in 0..3, and a key string
of 16, 24 or 32 bytes. -/
def stmtOk : Stmt → Bool
  | .wr p _ => placeOk p
  | .rd p => placeOk p
  | .cmd i => i.wellFormed
  | .ldb p _ => placeOk p
  | .ldkey d => decide (d.length = 16 ∨ d.length = 24 ∨ d.length = 32)
  | .ldaad _ => true
  | .ldin _ => true
  | .rdb p _ => placeOk p
  | .chk => true

/-- `ceil(n / 4)`, the number of words that carry `n` bytes (R101). -/
def wordCount (n : Nat) : Nat := (n + 3) / 4

/-- The writes of `ldb`: bytes `4k .. 4k+3` in lanes 0 to 3, the last word padded with 0x00 (R101). -/
def loadBytes (p : Place) (d : List Byte) : List HostEvent :=
  (List.range (wordCount d.length)).map fun k =>
    .write32 (placeOffset p + 4 * k) (wordOfLanes fun j => d.getD (4 * k + j) 0)

/-- `HostWrite32(0x000, <word of the command>)` (R100). -/
def issue (i : Instr) : HostEvent := .write32 (locOffset .cmd) (encode i)

/-- The bus accesses of a statement, in order (R100, R101). -/
def accesses : Stmt → List HostEvent
  | .wr p v => [.write32 (placeOffset p) v]
  | .rd p => [.read32 (placeOffset p)]
  | .cmd i => [issue i]
  | .ldb p d => loadBytes p d
  | .ldkey d => loadBytes (.named .key 0) d ++ [issue (.aesKeyexp ((d.length - 16) / 8))]
  | .ldaad d =>
    loadBytes (.named .aadBuf 0) d ++ [.write32 (locOffset .aadLen) (BitVec.ofNat 32 d.length)]
  | .ldin d =>
    loadBytes (.named .inBuf 0) d ++ [.write32 (locOffset .inLen) (BitVec.ofNat 32 d.length)]
  | .rdb p n => (List.range (wordCount n)).map fun k => .read32 (placeOffset p + 4 * k)
  | .chk => [.read32 (locOffset .status)]

/-- A host script as the list of its bus accesses (R102). -/
def scriptAccesses (prog : List Stmt) : List HostEvent := prog.flatMap accesses

/-- One hexadecimal digit, upper case. -/
def hexDigit (d : Nat) : Char :=
  if d < 10 then Char.ofNat (48 + d) else Char.ofNat (55 + d)

/-- The `n` lowest hexadecimal digits of a number, most significant first. -/
def hexDigits : Nat → Nat → List Char
  | 0, _ => []
  | n + 1, v => hexDigits n (v / 16) ++ [hexDigit (v % 16)]

/-- How a bus access is written down, `W offset data` or `R offset`, the offset as 5 and the data as 8
hexadecimal digits (R102); other events have no such form. -/
def accessText : HostEvent → List Char
  | .read32 off => ['R', ' '] ++ hexDigits 5 off
  | .write32 off v => ['W', ' '] ++ hexDigits 5 off ++ [' '] ++ hexDigits 8 v.toNat
  | .otherWidth _ => []
  | .reset => []

end Sys2Proof.Machine
end

