-- ==== Sys2Proof/Safety.lean ====
section
/-! DEFINITION. What counts as a sound state and a safe use of the block, in the terms claims use. -/

namespace Sys2Proof.Machine

/-- A buffer in canonical form with every cell below `BUF_MAX`. -/
abbrev Memory.sound (m : Memory) : Prop := m.wf = true ∧ m.inBounds

/-- The round-key files hold the schedules of one key of `NK` words (10_state.md R45 (a)). -/
def State.schedulesMatch (s : State) : Prop :=
  ∃ k : List Byte, k.length = 4 * s.nk ∧
    s.w.toList.take (4 * (s.nk + 7)) = keyExpansion s.nk k ∧
    s.dw.toList.take (4 * (s.nk + 7)) = decKeySchedule (keyExpansion s.nk k) s.nr

/-- The invariants of 10_state.md R45, with the value ranges of R36 and R220 and the form of the
buffers. -/
structure State.Inv (s : State) : Prop where
  /-- `NK` is 0, 4, 6 or 8 (R36). -/
  nkValue : s.nk = 0 ∨ s.nk = 4 ∨ s.nk = 6 ∨ s.nk = 8
  /-- R45 (a), R36: `KEY_VALID` is 1 exactly when a key has been expanded. -/
  keyValidIff : s.keyValid = true ↔ s.nk = 4 ∨ s.nk = 6 ∨ s.nk = 8
  /-- R36: `STATUS.KLEN = (NK - 4) / 2`, and 0 while there is no key. -/
  klenValue : s.klen.toNat = (s.nk - 4) / 2
  /-- R45 (a): the schedules belong to one key. -/
  schedules : s.keyValid = true → s.schedulesMatch
  /-- R45 (b): `H_VALID` implies that `M` belongs to the current `H`. -/
  tableMatches : s.hValid = true → s.m = buildTable s.h
  /-- R45 (c). -/
  stickyIfErr : s.err ≠ 0 → s.esticky = true
  /-- R220: the codes 6 to 15 are never produced. -/
  errCode : s.err.toNat ≤ 5
  /-- R45 (d). -/
  outLenFits : s.outLen.toNat ≤ Config.bufMax
  /-- R45 (e). -/
  reservedZero : reservedOf s.status = 0
  /-- The buffers are canonical and hold nothing at or above `BUF_MAX` (R41). -/
  aadSound : s.aadBuf.sound
  inSound : s.inBuf.sound
  outSound : s.outBuf.sound

/-- The fields of a `STATUS` word (10_state.md R32), the reserved bits as one field. -/
structure StatusFields where
  keyValid : Bool
  hValid : Bool
  klen : BitVec 2
  err : BitVec 4
  esticky : Bool
  reserved : BitVec 23
deriving DecidableEq, Repr

/-- `STATUS` taken apart: bit 0, bit 1, bits 3:2, 7:4, bit 8 and 31:9 (R32). -/
def statusFields (st : Word) : StatusFields :=
  ⟨st.getLsbD 0, st.getLsbD 1, st.extractLsb' 2 2, st.extractLsb' 4 4, st.getLsbD 8,
    st.extractLsb' 9 23⟩

/-- No command has failed since reset: one read of `ESTICKY` tells (60_exceptions.md R232). -/
def State.noFailure (s : State) : Bool := !s.esticky

/-- The command the next event of the script issues, if it writes a legal word to `CMD`. -/
def State.nextCommand? (s : State) : Option Instr :=
  match s.script with
  | .write32 off c :: _ =>
    if off = locOffset .cmd then (match decode c with
      | .ok i => some i
      | .error _ => none) else none
  | _ => none

/-- One GCM.SEAL that runs: the expanded key, the nonce and what is sealed (70_reset_and_hazards.md R256). -/
structure SealUse where
  schedule : Schedule
  nonce : Bytes 12
  aad : List Byte
  data : List Byte
deriving DecidableEq, Repr

/-- The GCM.SEAL the next step runs, if it passes its checks. -/
def State.sealUse? (s : State) : Option SealUse :=
  if s.nextCommand? = some .gcmSeal ∧ s.keyValid = true ∧ s.lengthsOk = true then
    some ⟨s.w.toList.take (4 * (s.nr + 1)), s.nonce, s.aadOperand, s.dataOperand⟩
  else none

/-- The seals that run in the next `n` steps, in order. -/
def sealUses : Nat → State → List SealUse
  | 0, _ => []
  | n + 1, s =>
    s.sealUse?.toList ++
      (match step s with
        | .next s' => sealUses n s'
        | .fault _ => []
        | .refused _ => [])

/-- The host's duty of R256 (c): no two GCM.SEAL with the same nonce under the same expanded key and
different content. The block does not detect a violation. -/
def nonceDiscipline (uses : List SealUse) : Prop :=
  uses.Pairwise fun u v =>
    u.schedule = v.schedule → u.nonce = v.nonce → u.aad = v.aad ∧ u.data = v.data

/-- A host script the block gives a meaning throughout: every event well formed. -/
def scriptOk (script : List HostEvent) : Bool := script.all HostEvent.wellFormed

end Sys2Proof.Machine
end

