-- ==== Sys2Proof/Certificates/Slice0/Obligations.lean ====
section
/-! DEFINITION. The statements for the provers, each formalising the rule of spec/ its docstring names. -/

open Sys2Proof Sys2Proof.Machine

namespace Sys2Proof.Claims

/-! ### Terms the statements share -/

/-- The command ends with a precondition error: `ERR` is the code, `ESTICKY` is 1, nothing else
changes (60_exceptions.md R222). -/
def EndsWith (i : Instr) (s : State) (code : BitVec 4) : Prop :=
  ∃ t, exec i s = .next t ∧ t = { s with status := t.status } ∧
    statusFields t.status = { statusFields s.status with err := code, esticky := true }

/-- The command completes with its own effect: `post` says what the next state is. -/
def Completes (i : Instr) (s : State) (post : State → Prop) : Prop :=
  ∃ t, exec i s = .next t ∧ post t

/-- `STATUS` after a success that writes no other field (R220). -/
def OnlyErrCleared (s t : State) : Prop :=
  statusFields t.status = { statusFields s.status with err := 0 }

/-- `OUTBUF` and `OUT_LEN` hold exactly the output `out`; bytes above keep their content (42_gcm.md
R175, 43_keywrap.md R196). -/
def OutputIs (s t : State) (out : List Byte) : Prop :=
  t.outLen.toNat = out.length ∧ t.outBuf.wf = true ∧
    (∀ a, a < out.length → t.outBuf.read a = out.getD a 0) ∧
    (∀ a, out.length ≤ a → t.outBuf.read a = s.outBuf.read a)

/-- The effects of an outcome error beyond the command's own writes: all of `OUTBUF` 0x00, `OUT_LEN` 0
(60_exceptions.md R225). -/
def OutputCleared (t : State) : Prop :=
  t.outLen = 0 ∧ t.outBuf.wf = true ∧ ∀ a, t.outBuf.read a = 0

/-- The lengths GH.HASH, GCM.SEAL and GCM.OPEN accept (60_exceptions.md R224). -/
def LengthsFit (s : State) : Prop :=
  s.aadLen.toNat ≤ Config.bufMax ∧ s.inLen.toNat ≤ Config.bufMax

/-- The length KW.WRAP accepts (43_keywrap.md R193). -/
def WrapLengthFits (s : State) : Prop :=
  s.inLen.toNat % 8 = 0 ∧ 16 ≤ s.inLen.toNat ∧ s.inLen.toNat ≤ Config.bufMax - 8

/-- The length KW.UNWRAP accepts (R193). -/
def UnwrapLengthFits (s : State) : Prop :=
  s.inLen.toNat % 8 = 0 ∧ 24 ≤ s.inLen.toNat ∧ s.inLen.toNat ≤ Config.bufMax

/-- Commands that need an expanded key (60_exceptions.md R223 (b)). -/
def needsKey (i : Instr) : Bool :=
  i ∈ [Instr.aesEnc, .aesDec, .gcmSeal, .gcmOpen, .kwWrap, .kwUnwrap]

/-- Commands that need the GHASH table (R223 (c)). -/
def needsTable (i : Instr) : Bool := i ∈ [Instr.ghMulh, .ghHash]

/-- A length register holds a value the command cannot process (R224). -/
def badLength (i : Instr) (s : State) : Bool :=
  if i ∈ [Instr.ghHash, .gcmSeal, .gcmOpen] then
    decide (s.aadLen.toNat > Config.bufMax ∨ s.inLen.toNat > Config.bufMax)
  else if i = .kwWrap then
    decide (s.inLen.toNat % 8 ≠ 0 ∨ s.inLen.toNat < 16 ∨ s.inLen.toNat > Config.bufMax - 8)
  else if i = .kwUnwrap then
    decide (s.inLen.toNat % 8 ≠ 0 ∨ s.inLen.toNat < 24 ∨ s.inLen.toNat > Config.bufMax)
  else false

/-- The command that ended in `t` wrote byte `k` of `OUTBUF`: a success writes `OUTBUF[0 .. OUT_LEN)` (42_gcm.md
R175, 43_keywrap.md R196, R197), an outcome error clears all of it (60_exceptions.md R225). -/
def WroteOutputByte (i : Instr) (t : State) (k : Nat) : Prop :=
  i ∈ [Instr.gcmSeal, .gcmOpen, .kwWrap, .kwUnwrap] ∧
    ((t.err = 0 ∧ k < t.outLen.toNat) ∨ t.err = 1 ∨ t.err = 2)

/-- One mapped entry of the address map: its first offset, its size, the host's access and its bytes. -/
structure MapRow where
  start : Nat
  size : Nat
  access : Access
  content : Nat → Byte

/-- The mapped rows of 20_memory.md R61. `CMD` holds nothing. -/
def mapRows (s : State) : List MapRow :=
  [ ⟨0x00000, 4, .wo, fun _ => 0⟩,
    ⟨0x00004, 4, .ro, lane s.status⟩,
    ⟨0x00008, 4, .rw, lane s.aadLen⟩,
    ⟨0x0000C, 4, .rw, lane s.inLen⟩,
    ⟨0x00010, 4, .ro, lane s.outLen⟩,
    ⟨0x00020, 32, .wo, byte s.key⟩,
    ⟨0x00040, 16, .rw, byte s.blkIn⟩,
    ⟨0x00050, 16, .ro, byte s.blkOut⟩,
    ⟨0x00060, 16, .rw, byte s.h⟩,
    ⟨0x00070, 16, .rw, byte s.y⟩,
    ⟨0x00080, 12, .rw, byte s.nonce⟩,
    ⟨0x00090, 12, .rw, byte s.tagIn⟩,
    ⟨0x000A0, 12, .ro, byte s.tag⟩,
    ⟨0x10000, Config.bufMax, .rw, s.aadBuf.read⟩,
    ⟨0x20000, Config.bufMax, .rw, s.inBuf.read⟩,
    ⟨0x30000, Config.bufMax, .ro, s.outBuf.read⟩ ]

/-- The host's access to the byte at an offset and the byte held there, or none where the offset is
unmapped (R61). -/
def cellAt (s : State) (a : Nat) : Option (Access × Byte) :=
  ((mapRows s).find? fun r => decide (r.start ≤ a ∧ a < r.start + r.size)).map
    fun r => (r.access, r.content (a - r.start))

/-- A 32-bit access at this offset is aligned and all inside the map (R62, R66). -/
def Reachable (s : State) (off : Nat) : Prop :=
  off % 4 = 0 ∧ ∀ k, k < 4 → (cellAt s (off + k)).isSome = true

/-- The rounds `r` down to 1 of the straightforward inverse cipher of 40_aes.md R138. -/
def straightRounds (w : Schedule) (s : Block) : Nat → Block
  | 0 => s
  | r + 1 =>
    straightRounds w (invMixColumns (addRoundKey (invSubBytes (invShiftRows s)) (roundKey w (r + 1)))) r

/-- The straightforward inverse cipher, which uses `W` itself (R138). -/
def straightInverse (w : Schedule) (nr : Nat) (x : Block) : Block :=
  addRoundKey (invSubBytes (invShiftRows (straightRounds w (addRoundKey x (roundKey w nr)) (nr - 1))))
    (roundKey w 0)

/-- `k` steps of the machine. -/
abbrev runSteps (k : Nat) (s : State) : Host.Outcome State Fault Refusal :=
  Host.Core.run Sys2Proof.core k s

/-- The host's next event. -/
def Next (s : State) (e : HostEvent) (rest : List HostEvent) : Prop := s.script = e :: rest

end Sys2Proof.Claims

open Sys2Proof.Claims

/-! ### The commands -/

/-- 44_system.md R210: NOP sets `STATUS.ERR` to 0 and does nothing else, in every state. -/
def Obligations.NopReportsSuccess : Prop :=
  decode 0x00000000 = .ok .nop ∧
  ∀ s, Completes .nop s fun t => t = { s with status := t.status } ∧ OnlyErrCleared s t

/-- 40_aes.md R140: AES.KEYEXP builds both schedules from the first `4*Nk` bytes of `KEY`, leaves the
words above as they were, and records the key; `KLEN` = 3 ends with CONFIG. -/
def Obligations.KeyexpBuildsSchedules : Prop :=
  (∀ klen, klen ≤ 3 → decode (0x00000001 + 0x100 * BitVec.ofNat 32 klen) = .ok (.aesKeyexp klen)) ∧
  (∀ s, EndsWith (.aesKeyexp 3) s 3) ∧
  ∀ klen s, klen < 3 → Completes (.aesKeyexp klen) s fun t =>
    let nk := 4 + 2 * klen
    let wn := keyExpansion nk ((toList s.key).take (4 * nk))
    t = { s with w := t.w, dw := t.dw, nk := nk, status := t.status } ∧
    (∀ i (hi : i < 60), t.w[i] = if i < 4 * (nk + 7) then wn.getD i 0 else s.w[i]) ∧
    (∀ i (hi : i < 60), t.dw[i] =
      if i < 4 * (nk + 7) then (decKeySchedule wn (nk + 6)).getD i 0 else s.dw[i]) ∧
    statusFields t.status =
      { statusFields s.status with keyValid := true, klen := BitVec.ofNat 2 klen, err := 0 }

/-- 40_aes.md R141: AES.ENC writes `BLK_OUT` with the encryption of `BLK_IN`, or ends with CONFIG. -/
def Obligations.AesEncEncryptsBlkIn : Prop :=
  decode 0x00000002 = .ok .aesEnc ∧
  (∀ s : State, s.keyValid = false → EndsWith .aesEnc s 3) ∧
  ∀ s : State, s.keyValid = true → Completes .aesEnc s fun t =>
    t = { s with blkOut := aesEnc s.w.toList (s.nk + 6) s.blkIn, status := t.status } ∧
    OnlyErrCleared s t

/-- 40_aes.md R142: AES.DEC writes `BLK_OUT` with the decryption of `BLK_IN`, or ends with CONFIG. -/
def Obligations.AesDecDecryptsBlkIn : Prop :=
  decode 0x00000003 = .ok .aesDec ∧
  (∀ s : State, s.keyValid = false → EndsWith .aesDec s 3) ∧
  ∀ s : State, s.keyValid = true → Completes .aesDec s fun t =>
    t = { s with blkOut := aesDec s.dw.toList (s.nk + 6) s.blkIn, status := t.status } ∧
    OnlyErrCleared s t

/-- 41_ghash.md R160: GH.LOADH builds the table from `H`, entry by entry as R154 defines it, in every
state. -/
def Obligations.LoadhBuildsTable : Prop :=
  decode 0x00000010 = .ok .ghLoadh ∧
  ∀ s : State, Completes .ghLoadh s fun t =>
    t = { s with m := t.m, status := t.status } ∧
    (∀ p j (hp : p < 32) (hj : j < 16), t.m[p][j] = gfMul (nibbleBlock p j) s.h) ∧
    statusFields t.status = { statusFields s.status with hValid := true, err := 0 }

/-- 41_ghash.md R161: GH.MULH replaces `Y` by `MulH(Y)`, which is `GfMul(Y, H)` when `M` belongs to `H`
(R156), or ends with CONFIG. -/
def Obligations.MulhMultipliesY : Prop :=
  decode 0x00000011 = .ok .ghMulh ∧
  (∀ s : State, s.hValid = false → EndsWith .ghMulh s 3) ∧
  ∀ s : State, s.hValid = true → Completes .ghMulh s fun t =>
    t = { s with y := mulH s.m s.y, status := t.status } ∧ OnlyErrCleared s t ∧
    (s.m = buildTable s.h → t.y = gfMul s.y s.h ∧ (s.y = 0 → t.y = 0) ∧
      (s.y = 0x80000000000000000000000000000000 → t.y = s.h))

/-- 41_ghash.md R162: GH.HASH leaves in `Y` the fold of R157 over the two buffers, every product made
with `MulH`, which is their GHASH under `H` when `M` belongs to `H`; the old `Y` is not used; CONFIG and
LENGTH in that order. -/
def Obligations.HashFoldsBuffers : Prop :=
  decode 0x00000012 = .ok .ghHash ∧
  (∀ s : State, s.hValid = false → EndsWith .ghHash s 3) ∧
  (∀ s : State, s.hValid = true → ¬ LengthsFit s → EndsWith .ghHash s 4) ∧
  ∀ s : State, s.hValid = true → LengthsFit s → Completes .ghHash s fun t =>
    let a := memRead s.aadBuf 0 s.aadLen.toNat
    let c := memRead s.inBuf 0 s.inLen.toNat
    t = { s with y := ghashWith (mulH s.m) a c, status := t.status } ∧ OnlyErrCleared s t ∧
    (s.m = buildTable s.h → t.y = ghash s.h a c)

/-- 42_gcm.md R176: GCM.SEAL, with its two preconditions in order. -/
def Obligations.SealProducesCiphertextAndTag : Prop :=
  decode 0x00000020 = .ok .gcmSeal ∧
  (∀ s : State, s.keyValid = false → EndsWith .gcmSeal s 3) ∧
  (∀ s : State, s.keyValid = true → ¬ LengthsFit s → EndsWith .gcmSeal s 4) ∧
  ∀ s : State, s.keyValid = true → LengthsFit s → s.outBuf.wf = true → Completes .gcmSeal s fun t =>
    let enc := aesEnc s.w.toList (s.nk + 6)
    let a := memRead s.aadBuf 0 s.aadLen.toNat
    let p := memRead s.inBuf 0 s.inLen.toNat
    let j0 : Block := s.nonce ++ (0x00000001 : Bytes 4)
    let c := gctr enc j0 p
    let hash := ghash (enc 0) a c
    t = { s with
      h := enc 0, m := buildTable (enc 0), y := hash, outBuf := t.outBuf, outLen := s.inLen,
      tag := slice (enc j0 ^^^ hash) 0 12, status := t.status } ∧
    OutputIs s t c ∧
    statusFields t.status = { statusFields s.status with hValid := true, err := 0 }

/-- 42_gcm.md R177: GCM.OPEN, its preconditions, its success and its failure. -/
def Obligations.OpenVerifiesAndDecrypts : Prop :=
  decode 0x00000021 = .ok .gcmOpen ∧
  (∀ s : State, s.keyValid = false → EndsWith .gcmOpen s 3) ∧
  (∀ s : State, s.keyValid = true → ¬ LengthsFit s → EndsWith .gcmOpen s 4) ∧
  ∀ s : State, s.keyValid = true → LengthsFit s → s.outBuf.wf = true → Completes .gcmOpen s fun t =>
    let enc := aesEnc s.w.toList (s.nk + 6)
    let a := memRead s.aadBuf 0 s.aadLen.toNat
    let c := memRead s.inBuf 0 s.inLen.toNat
    let j0 : Block := s.nonce ++ (0x00000001 : Bytes 4)
    let hash := ghash (enc 0) a c
    let tag : Bytes 12 := slice (enc j0 ^^^ hash) 0 12
    t = { s with
      h := enc 0, m := buildTable (enc 0), y := hash, outBuf := t.outBuf, outLen := t.outLen,
      status := t.status } ∧
    ((∀ i, i < 12 → byte tag i = byte s.tagIn i) →
      t.outLen = s.inLen ∧ OutputIs s t (gctr enc j0 c) ∧
      statusFields t.status = { statusFields s.status with hValid := true, err := 0 }) ∧
    (¬ (∀ i, i < 12 → byte tag i = byte s.tagIn i) →
      OutputCleared t ∧
      statusFields t.status =
        { statusFields s.status with hValid := true, err := 1, esticky := true })

/-- 43_keywrap.md R196: KW.WRAP, with its two preconditions in order. -/
def Obligations.WrapWritesWrappedKey : Prop :=
  decode 0x00000030 = .ok .kwWrap ∧
  (∀ s : State, s.keyValid = false → EndsWith .kwWrap s 3) ∧
  (∀ s : State, s.keyValid = true → ¬ WrapLengthFits s → EndsWith .kwWrap s 4) ∧
  ∀ s : State, s.keyValid = true → WrapLengthFits s → s.outBuf.wf = true →
    Completes .kwWrap s fun t =>
    t = { s with outBuf := t.outBuf, outLen := s.inLen + 8, status := t.status } ∧
    OutputIs s t (kwWrap (aesEnc s.w.toList (s.nk + 6)) (memRead s.inBuf 0 s.inLen.toNat)) ∧
    OnlyErrCleared s t

/-- 43_keywrap.md R197: KW.UNWRAP, its preconditions, its success and its failure. -/
def Obligations.UnwrapChecksIntegrity : Prop :=
  decode 0x00000031 = .ok .kwUnwrap ∧
  (∀ s : State, s.keyValid = false → EndsWith .kwUnwrap s 3) ∧
  (∀ s : State, s.keyValid = true → ¬ UnwrapLengthFits s → EndsWith .kwUnwrap s 4) ∧
  ∀ s : State, s.keyValid = true → UnwrapLengthFits s → s.outBuf.wf = true →
    Completes .kwUnwrap s fun t =>
    let ap := kwUnwrap (aesDec s.dw.toList (s.nk + 6)) (memRead s.inBuf 0 s.inLen.toNat)
    t = { s with outBuf := t.outBuf, outLen := t.outLen, status := t.status } ∧
    ((∀ i, i < 8 → byte ap.1 i = 0xA6) →
      t.outLen = s.inLen - 8 ∧ OutputIs s t ap.2 ∧ OnlyErrCleared s t) ∧
    (¬ (∀ i, i < 8 → byte ap.1 i = 0xA6) →
      OutputCleared t ∧
      statusFields t.status = { statusFields s.status with err := 2, esticky := true })

/-! ### Errors and the order of checks -/

/-- 60_exceptions.md R222: a precondition error changes nothing but `ERR` and `ESTICKY`, whichever
command word and state it comes from. -/
def Obligations.PreconditionErrorsTouchOnlyStatus : Prop :=
  ∀ c s t, command c s = .next t → (t.err = 3 ∨ t.err = 4 ∨ t.err = 5) →
    t = { s with status := t.status } ∧
    statusFields t.status = { statusFields s.status with err := t.err, esticky := true }

/-- 60_exceptions.md R220: every command word, in every state, ends with exactly one result code, 0 to
5, and only the commands of the table raise each. -/
def Obligations.EveryCommandEndsWithOneCode : Prop :=
  ∀ c s, ∃ t, command c s = .next t ∧
    (t.err = 0 ∨ t.err = 1 ∨ t.err = 2 ∨ t.err = 3 ∨ t.err = 4 ∨ t.err = 5) ∧
    (t.err = 1 → decode c = .ok .gcmOpen) ∧
    (t.err = 2 → decode c = .ok .kwUnwrap) ∧
    (t.err = 3 → ∃ i, decode c = .ok i ∧
      i ∈ [Instr.aesKeyexp 3, .aesEnc, .aesDec, .ghMulh, .ghHash, .gcmSeal, .gcmOpen, .kwWrap,
        .kwUnwrap]) ∧
    (t.err = 4 → ∃ i, decode c = .ok i ∧
      i ∈ [Instr.ghHash, .gcmSeal, .gcmOpen, .kwWrap, .kwUnwrap]) ∧
    (t.err = 5 ↔ ∃ e, decode c = .error e)

/-- 60_exceptions.md R226, with the causes of R223 and R224: the checks are made in the fixed order and
the first that fails is the one reported. -/
def Obligations.ChecksAreMadeInOrder : Prop :=
  ∀ c s, ∃ t, command c s = .next t ∧
    match decode c with
    | .error _ => t.err = 5
    | .ok i =>
      if i = .aesKeyexp 3 then t.err = 3
      else if needsKey i = true ∧ s.keyValid = false then t.err = 3
      else if needsTable i = true ∧ s.hValid = false then t.err = 3
      else if badLength i s = true then t.err = 4
      else t.err = 0 ∨ (i = .gcmOpen ∧ t.err = 1) ∨ (i = .kwUnwrap ∧ t.err = 2)

/-- 30_encoding.md R95: exactly which command words are illegal, and that the write of one completes
normally, ends with ILLEGAL_CMD and changes no other state. That the host's next access and the bus's
answer are the fields `script` and `answer` is the model's choice (log entries 2 and 3). -/
def Obligations.IllegalWordsExecuteNothing : Prop :=
  (∀ c : Word, (∃ e, decode c = .error e) ↔
    ((c.extractLsb' 0 8).toNat ∉
        [0x00, 0x01, 0x02, 0x03, 0x10, 0x11, 0x12, 0x20, 0x21, 0x30, 0x31] ∨
      (c.extractLsb' 8 24 ≠ 0 ∧ (c.extractLsb' 0 8).toNat ≠ 0x01) ∨
      ((c.extractLsb' 0 8).toNat = 0x01 ∧ c.extractLsb' 10 22 ≠ 0))) ∧
  ∀ c s rest, Next s (.write32 0x000 c) rest → (∃ e, decode c = .error e) → ∃ t,
    step s = .next t ∧
    t = { s with script := rest, answer := some .done, status := t.status } ∧
    statusFields t.status = { statusFields s.status with err := 5, esticky := true }

/-- 60_exceptions.md R232 (`script` being the model's choice, log entry 2): across any run without a reset,
`ESTICKY` becomes 1 exactly when some command of the run ended with a nonzero code; one read tells
whether anything has failed. -/
def Obligations.StickyRecordsAnyFailure : Prop :=
  ∀ n s t, runSteps n s = .next t → HostEvent.reset ∉ s.script.take n →
    (t.esticky = true ↔ s.esticky = true ∨
      ∃ k u v, k < n ∧ s.script[k]? = some (.write32 0x000 v) ∧ runSteps (k + 1) s = .next u ∧
        u.err ≠ 0)

/-! ### Encoding -/

/-- 30_encoding.md R94, R97, R100: the decoder and the encoder agree for every command word and every
command: decoding the word of a well-formed command gives that command back, and a word that decodes is
the word of the command it decodes to, so no bit is dropped and no two words stand for one command. -/
def Obligations.DecodeAndEncodeAgree : Prop :=
  ∀ (c : Word) (i : Instr), decode c = .ok i ↔ i.wellFormed = true ∧ encode i = c

/-- Words of 95_test_vectors.md section 3, written out from R94, decode to the commands listed. -/
def Obligations.ListedWordsDecode : Prop :=
  decode 0x00000000 = .ok .nop ∧ decode 0x00000201 = .ok (.aesKeyexp 2) ∧
  decode 0x00000011 = .ok .ghMulh ∧ decode 0x00000021 = .ok .gcmOpen ∧
  decode 0x00000030 = .ok .kwWrap ∧
  decode 0x00000130 = .error (.reservedBits 0x30) ∧ decode 0x00000004 = .error (.unassignedOpcode 0x04)

/-! ### Steps, reset and the invariant -/

/-- 20_memory.md R68, 10_state.md R31: when the host's next access writes to `CMD` a word that decodes
to `i`, one step runs `i` on the state with that access taken, and the bus then answers that the write
completed; the model's script and answer are log entries 2 and 3. -/
def Obligations.StepRunsDecodedCommand : Prop :=
  ∀ s c rest i t, Next s (.write32 0x000 c) rest → decode c = .ok i →
    exec i { s with script := rest } = .next t → step s = .next { t with answer := some .done }

/-- 10_state.md R20: the engine does nothing at any other time than a `CMD` write. That a step with no
access to come leaves the state as it is is the model's choice (log entry 2). -/
def Obligations.IdleBlockDoesNothing : Prop :=
  ∀ s : State, s.script = [] → step s = .next s

/-- 10_state.md R45 (with R36 and R220): every step from every state that satisfies the invariants
gives a state that satisfies them. `State.Inv` holds beside them that the buffers, which the model keeps
as lists of cells, are canonical and hold nothing at or above `BUF_MAX`. -/
def Obligations.StepKeepsInvariants : Prop :=
  ∀ s t : State, s.Inv → step s = .next t → t.Inv

/-- 10_state.md R44, R45: the reset state satisfies the invariants. -/
def Obligations.ResetSatisfiesInvariants : Prop := State.reset.Inv

/-- 10_state.md R44: the values after reset. -/
def Obligations.ResetStateHoldsResetValues : Prop :=
  let t := State.reset
  t.key = 0 ∧ t.blkIn = 0 ∧ t.blkOut = 0 ∧ t.h = 0 ∧ t.y = 0 ∧ t.nonce = 0 ∧ t.tagIn = 0 ∧
    t.tag = 0 ∧ t.status = 0 ∧ t.aadLen = 0 ∧ t.inLen = 0 ∧ t.outLen = 0 ∧ t.nk = 0 ∧
    (∀ i (hi : i < 60), t.w[i] = 0 ∧ t.dw[i] = 0) ∧
    (∀ p j (hp : p < 32) (hj : j < 16), t.m[p][j] = 0) ∧
    (∀ a, t.aadBuf.read a = 0 ∧ t.inBuf.read a = 0 ∧ t.outBuf.read a = 0)

/-- 70_reset_and_hazards.md R250: the reset input gives every piece of the block's state its reset value,
from every state. That the host's later accesses stay in `script` and that `answer` becomes none are the
model's choices (log entries 2 and 3). -/
def Obligations.ResetInputRestoresResetState : Prop :=
  ∀ s rest, Next s .reset rest → step s = .next { State.reset with script := rest }

/-- 70_reset_and_hazards.md R251: how each command ends as the first one after reset. -/
def Obligations.FirstCommandAfterReset : Prop :=
  (∀ i, i ∈ [Instr.aesEnc, .aesDec, .gcmSeal, .gcmOpen, .kwWrap, .kwUnwrap, .ghMulh, .ghHash] →
    EndsWith i State.reset 3) ∧
  Completes .nop State.reset (fun t => t.err = 0 ∧ t = State.reset) ∧
  Completes .ghLoadh State.reset (fun t => t.err = 0 ∧ t.hValid = true ∧
    ∀ p j (hp : p < 32) (hj : j < 16), t.m[p][j] = 0) ∧
  ∀ klen, klen ≤ 2 → Completes (.aesKeyexp klen) State.reset fun t =>
    t.err = 0 ∧ t.keyValid = true ∧ t.nk = 4 + 2 * klen ∧
    t.w.toList.take (4 * (t.nk + 7)) = keyExpansion t.nk (List.replicate (4 * t.nk) 0) ∧
    t.dw.toList.take (4 * (t.nk + 7)) =
      decKeySchedule (keyExpansion t.nk (List.replicate (4 * t.nk) 0)) (t.nk + 6)

/-- 20_memory.md R61, R66: an event at the port has a next state exactly when it is well formed. That an
access outside the window the block decodes faults and one of another width is refused is the model's
choice (log entries 4 and 5). -/
def Obligations.WellFormedEventsComplete : Prop :=
  ∀ e s, (e.wellFormed = true ↔ ∃ t, perform e s = .next t) ∧
    (∀ off, 0x40000 ≤ off → perform (.read32 off) s = .fault .outsideBlock ∧
      ∀ v, perform (.write32 off v) s = .fault .outsideBlock) ∧
    ∀ bits, perform (.otherWidth bits) s = .refused (.accessWidth bits)

/-! ### The bus -/

/-- 20_memory.md R62: a 32-bit read returns the four bytes the map of R61 holds, in little-endian lanes,
a write-only location reading 0x00, or a bus error; it changes no state of the block. That the host's
accesses stand in `script` and the bus's answer in `answer` is the model's choice (log entries 2 and 3). -/
def Obligations.HostReadReturnsMapWord : Prop :=
  ∀ s off rest, Next s (.read32 off) rest → off < 0x40000 → ∃ ans,
    step s = .next { s with script := rest, answer := some ans } ∧
    (Reachable s off → ∃ v, ans = .data v ∧ ∀ k, k < 4 → ∃ acc b,
      cellAt s (off + k) = some (acc, b) ∧ lane v k = if acc = .wo then 0 else b) ∧
    (¬ Reachable s off → ans = .busError)

/-- 20_memory.md R63: what a 32-bit write does: a bus error, nothing (read-only), a command (`CMD`), or
four bytes stored, with `H_VALID` cleared when they are a word of `H`. `script` and `answer` are the
model's choice (log entries 2 and 3). -/
def Obligations.HostWriteStoresLanes : Prop :=
  ∀ s off v rest, Next s (.write32 off v) rest → off < 0x40000 →
    (¬ Reachable s off → step s = .next { s with script := rest, answer := some .busError }) ∧
    (off = 0 → step s = completed (command v { s with script := rest })) ∧
    (Reachable s off → off ≠ 0 → s.aadBuf.wf = true → s.inBuf.wf = true → ∃ acc b,
      cellAt s off = some (acc, b) ∧
      (acc = .ro → step s = .next { s with script := rest, answer := some .done }) ∧
      (acc ≠ .ro → ∃ t, step s = .next t ∧ t.script = rest ∧ t.answer = some .done ∧
        t.w = s.w ∧ t.dw = s.dw ∧ t.nk = s.nk ∧ t.m = s.m ∧
        (∀ a, a < 0x4 ∨ 0x8 ≤ a → cellAt t a =
          if off ≤ a ∧ a < off + 4 then (cellAt s a).map fun c => (c.1, lane v (a - off))
          else cellAt s a) ∧
        statusFields t.status =
          if 0x60 ≤ off ∧ off < 0x70 then { statusFields s.status with hValid := false }
          else statusFields s.status))

/-- 20_memory.md R69: a misaligned access, or one that touches an unmapped byte of R61, is answered with
an error and changes no state of the block, not even `STATUS`. `script` and `answer` are the model's
choice (log entries 2 and 3). -/
def Obligations.BusErrorChangesNothing : Prop :=
  ∀ s off rest, off < 0x40000 →
    (off % 4 ≠ 0 ∨ (0x14 ≤ off ∧ off < 0x20) ∨ (0x8C ≤ off ∧ off < 0x90) ∨
      (0x9C ≤ off ∧ off < 0xA0) ∨ (0xAC ≤ off ∧ off < 0x10000) ∨
      (0x10000 + Config.bufMax ≤ off ∧ off < 0x20000) ∨
      (0x20000 + Config.bufMax ≤ off ∧ off < 0x30000) ∨ 0x30000 + Config.bufMax ≤ off) →
    (Next s (.read32 off) rest → step s = .next { s with script := rest, answer := some .busError }) ∧
    (∀ v, Next s (.write32 off v) rest →
      step s = .next { s with script := rest, answer := some .busError })

/-- 20_memory.md R70: a word written to a read-write location reads back, a write to a read-only one
leaves what it reads, and a write-only one reads 0. `script` and `answer` are the model's choice (log
entries 2 and 3). -/
def Obligations.ReadAfterWriteFollowsAccess : Prop :=
  ∀ s off v rest acc b, Next s (.write32 off v) (.read32 off :: rest) →
    s.aadBuf.wf = true → s.inBuf.wf = true → off % 4 = 0 → cellAt s off = some (acc, b) →
    (off ≠ 0 → acc = .rw → ∃ t, runSteps 2 s = .next t ∧ t.answer = some (.data v)) ∧
    (acc = .ro → ∃ t, runSteps 2 s = .next t ∧ t.answer = some (hostRead32 s off)) ∧
    (off ≠ 0 → acc = .wo → ∃ t, runSteps 2 s = .next t ∧ t.answer = some (.data 0))

/-- 70_reset_and_hazards.md R264: a host write to any word of `H` clears `H_VALID`, even with an
unchanged value; GH.MULH and GH.HASH then end with CONFIG, and only GH.LOADH or a GCM command sets it
again. The host's accesses stand in `script`, the model's choice (log entry 2). -/
def Obligations.WriteToHClearsTableFlag : Prop :=
  (∀ s off v rest, off ∈ [0x060, 0x064, 0x068, 0x06C] → Next s (.write32 off v) rest →
    ∃ t, step s = .next t ∧ t.hValid = false ∧ EndsWith .ghMulh t 3 ∧ EndsWith .ghHash t 3) ∧
  ∀ s t : State, s.hValid = false → step s = .next t → t.hValid = true →
    s.nextCommand? ∈ [some Instr.ghLoadh, some .gcmSeal, some .gcmOpen]

/-- 10_state.md R32: where the fields of `STATUS` stand, and that each changes only as the table says. The
host's accesses stand in `script`, the model's choice (log entry 2). -/
def Obligations.StatusFieldsChangeOnlyAsListed : Prop :=
  (∀ s t : State, s.script.head? ≠ some .reset → step s = .next t →
    (t.keyValid = true ↔ s.keyValid = true ∨ ∃ k, k < 3 ∧ s.nextCommand? = some (.aesKeyexp k)) ∧
    (∀ k, k < 3 → s.nextCommand? = some (.aesKeyexp k) → t.klen = BitVec.ofNat 2 k) ∧
    ((∀ k, k < 3 → s.nextCommand? ≠ some (.aesKeyexp k)) → t.klen = s.klen) ∧
    (t.hValid ≠ s.hValid →
      (t.hValid = true ∧ s.nextCommand? ∈ [some Instr.ghLoadh, some .gcmSeal, some .gcmOpen]) ∨
      (t.hValid = false ∧ ∃ off v rest, 0x60 ≤ off ∧ off < 0x70 ∧ Next s (.write32 off v) rest)) ∧
    ((∃ v rest, Next s (.write32 0x000 v) rest) →
      (t.esticky = true ↔ s.esticky = true ∨ t.err ≠ 0)) ∧
    ((∀ v rest, ¬ Next s (.write32 0x000 v) rest) → t.err = s.err ∧ t.esticky = s.esticky) ∧
    reservedOf t.status = reservedOf s.status) ∧
  ∀ s t : State, s.script.head? = some .reset → step s = .next t → t.status = 0

/-! ### What a command reads and writes -/

/-- 20_memory.md R71: which command touches which buffer: none writes `AADBUF` or `INBUF`, only four
write `OUTBUF`, none reads `OUTBUF` (with any other canonical `OUTBUF` the rest of the result is the same, the
bytes written are the same, and the others stay as they are), and each reads of the input buffers only
the bytes listed, below `AAD_LEN` and `IN_LEN`. -/
def Obligations.CommandsTouchOnlyTheirBuffers : Prop :=
  ∀ i (s t : State), exec i s = .next t →
    t.aadBuf = s.aadBuf ∧ t.inBuf = s.inBuf ∧
    (i ∉ [Instr.gcmSeal, .gcmOpen, .kwWrap, .kwUnwrap] → t.outBuf = s.outBuf) ∧
    (∀ o : Memory, ∃ o', exec i { s with outBuf := o } = .next { t with outBuf := o' } ∧
      (i ∉ [Instr.gcmSeal, .gcmOpen, .kwWrap, .kwUnwrap] → o' = o) ∧
      (s.outBuf.wf = true → o.wf = true → o'.wf = true ∧ ∀ k,
        (WroteOutputByte i t k → o'.read k = t.outBuf.read k) ∧
        (¬ WroteOutputByte i t k → o'.read k = o.read k))) ∧
    ∀ a b : Memory,
      (i ∈ [Instr.ghHash, .gcmSeal, .gcmOpen] →
        ∀ k, k < s.aadLen.toNat → a.read k = s.aadBuf.read k) →
      (i ∈ [Instr.ghHash, .gcmSeal, .gcmOpen, .kwWrap, .kwUnwrap] →
        ∀ k, k < s.inLen.toNat → b.read k = s.inBuf.read k) →
      exec i { s with aadBuf := a, inBuf := b } = .next { t with aadBuf := a, inBuf := b }

/-- 42_gcm.md R175: the bytes of `AADBUF` and `INBUF` at and beyond the lengths have no effect on any
result of GCM.SEAL or GCM.OPEN, and a success leaves the bytes of `OUTBUF` beyond `IN_LEN`. -/
def Obligations.GcmIgnoresBytesBeyondLengths : Prop :=
  ∀ i (s t : State) (a b : Memory), i ∈ [Instr.gcmSeal, .gcmOpen] → exec i s = .next t →
    (∀ k, k < s.aadLen.toNat → a.read k = s.aadBuf.read k) →
    (∀ k, k < s.inLen.toNat → b.read k = s.inBuf.read k) →
    exec i { s with aadBuf := a, inBuf := b } = .next { t with aadBuf := a, inBuf := b } ∧
    (s.outBuf.wf = true → t.err = 0 → ∀ k, s.inLen.toNat ≤ k → t.outBuf.read k = s.outBuf.read k)

/-- 10_state.md R23: `KEY` is a staging register: the next state of no step but AES.KEYEXP's depends on
it, its own content apart. The host's accesses stand in `script`, the model's choice (log entry 2). -/
def Obligations.StagedKeyHasNoEffectUntilExpanded : Prop :=
  ∀ (s t : State) (k : Bytes 32), (∀ klen, s.nextCommand? ≠ some (.aesKeyexp klen)) →
    step s = .next t → ∃ k', step { s with key := k } = .next { t with key := k' }

/-- 60_exceptions.md R230: `KEY`, `W`, `DW` and `M` cannot be read back: no host read depends on them. -/
def Obligations.KeyMaterialCannotBeReadBack : Prop :=
  ∀ (s : State) (k : Bytes 32) (w dw : KeyFile) (m : Table) off,
    hostRead32 { s with key := k, w := w, dw := dw, m := m } off = hostRead32 s off

/-! ### The algorithms -/

/-- 40_aes.md R123 to R126: each inverse round transformation undoes its transformation. -/
def Obligations.RoundTransformationsInvert : Prop :=
  ∀ s : Block, invSubBytes (subBytes s) = s ∧ invShiftRows (shiftRows s) = s ∧
    invMixColumns (mixColumns s) = s

/-- 40_aes.md R138: decryption and encryption undo each other for every key and block, and the
equivalent inverse cipher is the straightforward one. -/
def Obligations.AesCipherInverts : Prop :=
  ∀ nk (k : List Byte) (x : Block), (nk = 4 ∨ nk = 6 ∨ nk = 8) → k.length = 4 * nk →
    let w := keyExpansion nk k
    let dw := decKeySchedule w (nk + 6)
    aesDec dw (nk + 6) (aesEnc w (nk + 6) x) = x ∧ aesEnc w (nk + 6) (aesDec dw (nk + 6) x) = x ∧
      aesDec dw (nk + 6) x = straightInverse w (nk + 6) x

/-- 40_aes.md R142, corner case: AES.DEC of the `BLK_OUT` of an AES.ENC under the same key returns the
original `BLK_IN`. -/
def Obligations.DecCommandUndoesEncCommand : Prop :=
  ∀ s t : State, s.Inv → s.keyValid = true → exec .aesEnc s = .next t →
    ∃ u, exec .aesDec { t with blkIn := t.blkOut } = .next u ∧ u.err = 0 ∧ u.blkOut = s.blkIn

/-- 41_ghash.md R151: `MulX` byte by byte: each byte takes the low bit of the one before it, and 0xE1
goes into byte 0 when the bit shifted out is 1. -/
def Obligations.MulXShiftsAcrossBytes : Prop :=
  ∀ v : Block,
    let carry := fun k : Nat => if k = 0 then (0 : Byte) else (byte v (k - 1) &&& 1) <<< 7
    (∀ k, 1 ≤ k → k < 16 → byte (mulX v) k = (byte v k >>> 1) ||| carry k) ∧
    byte (mulX v) 0 =
      if byte v 15 &&& 1 = 1 then (byte v 0 >>> 1) ^^^ 0xE1 else byte v 0 >>> 1

/-- 41_ghash.md R153: the laws of `GfMul`. -/
def Obligations.GfMulIsFieldProduct : Prop :=
  ∀ x x' y z : Block, gfMul x y = gfMul y x ∧ gfMul (gfMul x y) z = gfMul x (gfMul y z) ∧
    gfMul (x ^^^ x') y = gfMul x y ^^^ gfMul x' y ∧ gfMul x (y ^^^ z) = gfMul x y ^^^ gfMul x z ∧
    gfMul 0 y = 0 ∧ gfMul 0x80000000000000000000000000000000 y = y

/-- 41_ghash.md R156: multiplication through the table built from `H` is multiplication by `H`, so in
every state that satisfies the invariants `MulH` multiplies by the current `H` while `H_VALID` is 1. -/
def Obligations.TableMultiplicationIsGfMul : Prop :=
  (∀ h x : Block, mulH (buildTable h) x = gfMul x h) ∧
  ∀ (s : State) (x : Block), s.Inv → s.hValid = true → mulH s.m x = gfMul x s.h

/-- 41_ghash.md R158: corner cases of `Ghash`: both strings empty, the zero subkey, and the number of
blocks folded. -/
def Obligations.GhashCornerCases : Prop :=
  (∀ h, ghash h [] [] = 0) ∧ (∀ a c, ghash 0 a c = 0) ∧
  ∀ d : List Byte, (blocks d).length = (d.length + 15) / 16 ∧
    ∀ k i, k < (d.length + 15) / 16 → i < 16 →
      byte ((blocks d).getD k 0) i = if 16 * k + i < d.length then d.getD (16 * k + i) 0 else 0

/-- 42_gcm.md R172: `Inc32` leaves bytes 0..11 and increments bytes 12..15 modulo 2^32. -/
def Obligations.Inc32WrapsInLastFourBytes : Prop :=
  ∀ cb : Block, (∀ i, i < 12 → byte (inc32 cb) i = byte cb i) ∧
    beVal (slice (inc32 cb) 12 4) = (beVal (slice cb 12 4) + 1) % 2 ^ 32

/-- 42_gcm.md R173: `Gctr` keeps the length, XORs data block `k` with the keystream block of counter
`NONCE ‖ BE32(k + 2)`, and is its own inverse. -/
def Obligations.GctrUsesCounterFromTwo : Prop :=
  ∀ (enc : Block → Block) (nonce : Bytes 12) (d : List Byte),
    let j0 : Block := nonce ++ (0x00000001 : Bytes 4)
    (gctr enc j0 d).length = d.length ∧
    (∀ i, i < d.length → (gctr enc j0 d).getD i 0 =
      d.getD i 0 ^^^ byte (enc (nonce ++ be32 (i / 16 + 2))) (i % 16)) ∧
    gctr enc j0 (gctr enc j0 d) = d

/-- 42_gcm.md R178, round trip: GCM.OPEN of what GCM.SEAL produced, under the same key, nonce and AAD,
succeeds and gives the plaintext back. -/
def Obligations.OpenRecoversSealedPlaintext : Prop :=
  ∀ (s t : State) (b : Memory), s.keyValid = true → LengthsFit s → s.outBuf.wf = true →
    exec .gcmSeal s = .next t → (∀ k, k < s.inLen.toNat → b.read k = t.outBuf.read k) →
    ∃ u, exec .gcmOpen { t with inBuf := b, tagIn := t.tag } = .next u ∧ u.err = 0 ∧
      u.outLen = s.inLen ∧ ∀ k, k < s.inLen.toNat → u.outBuf.read k = s.inBuf.read k

/-- 42_gcm.md R178 and R181: GCM.SEAL applied to a ciphertext under the same key and nonce returns the
plaintext, which is how a receiver at level ENCRYPTION recovers it. -/
def Obligations.SealOfCiphertextReturnsPlaintext : Prop :=
  ∀ (s t : State) (b : Memory), s.keyValid = true → LengthsFit s → s.outBuf.wf = true →
    exec .gcmSeal s = .next t → (∀ k, k < s.inLen.toNat → b.read k = t.outBuf.read k) →
    ∃ u, exec .gcmSeal { t with inBuf := b } = .next u ∧ u.err = 0 ∧
      ∀ k, k < s.inLen.toNat → u.outBuf.read k = s.inBuf.read k

/-- 42_gcm.md R178: after GCM.SEAL, `Y` is what GH.HASH computes from `AADBUF` and the ciphertext under
the same `H`, and `TAG` is the first 12 bytes of `AesEnc(J0) ^ Y`. -/
def Obligations.SealHashAgreesWithGhHash : Prop :=
  ∀ (s t : State) (b : Memory), s.keyValid = true → LengthsFit s → s.outBuf.wf = true →
    exec .gcmSeal s = .next t → (∀ k, k < s.inLen.toNat → b.read k = t.outBuf.read k) →
    (∃ u, exec .ghHash { t with inBuf := b } = .next u ∧ u.err = 0 ∧ u.y = t.y) ∧
    ∀ i, i < 12 → byte t.tag i =
      byte (aesEnc s.w.toList (s.nk + 6) (s.nonce ++ (0x00000001 : Bytes 4)) ^^^ t.y) i

/-- 43_keywrap.md R195: unwrapping what was wrapped under the same key gives the integrity vector and
the key data back, for every key size and every `n >= 2`. -/
def Obligations.UnwrapInvertsWrap : Prop :=
  ∀ nk (k p : List Byte), (nk = 4 ∨ nk = 6 ∨ nk = 8) → k.length = 4 * nk →
    p.length % 8 = 0 → 16 ≤ p.length →
    let w := keyExpansion nk k
    kwUnwrap (aesDec (decKeySchedule w (nk + 6)) (nk + 6)) (kwWrap (aesEnc w (nk + 6)) p) =
      (0xA6A6A6A6A6A6A6A6, p)

/-- 43_keywrap.md R195 to R197: KW.UNWRAP of the output of KW.WRAP, under the same expanded key,
succeeds and gives the key data back. -/
def Obligations.UnwrapCommandUndoesWrapCommand : Prop :=
  ∀ (s t : State) (b : Memory), s.Inv → s.keyValid = true → WrapLengthFits s →
    exec .kwWrap s = .next t → (∀ k, k < t.outLen.toNat → b.read k = t.outBuf.read k) →
    ∃ u, exec .kwUnwrap { t with inBuf := b, inLen := t.outLen } = .next u ∧ u.err = 0 ∧
      u.outLen = s.inLen ∧ ∀ k, k < s.inLen.toNat → u.outBuf.read k = s.inBuf.read k

/-! ### Host scripts -/

/-- 30_encoding.md R101 (`script` and `answer` being the model's choice, log entries 2 and 3): the accesses
of `ldaad` load the string as the AAD operand and its length as `AAD_LEN`; the last word's padding is
the only other byte they store. -/
def Obligations.LdaadLoadsOperand : Prop :=
  ∀ (s : State) (d : List Byte), s.aadBuf.wf = true → d.length ≤ Config.bufMax →
    s.script = accesses (.ldaad d) → ∃ t, runSteps s.script.length s = .next t ∧
      t = { s with aadBuf := t.aadBuf, aadLen := t.aadLen, script := [], answer := some .done } ∧
      t.aadLen.toNat = d.length ∧ memRead t.aadBuf 0 d.length = d ∧
      ∀ a, 4 * ((d.length + 3) / 4) ≤ a → t.aadBuf.read a = s.aadBuf.read a

/-- 30_encoding.md R101, 40_aes.md R140 (`script` being the model's choice, log entry 2): the accesses of
`ldkey` load a 16-, 24- or 32-byte key and expand it, from every state. -/
def Obligations.LdkeyExpandsKey : Prop :=
  ∀ (s : State) (d : List Byte), (d.length = 16 ∨ d.length = 24 ∨ d.length = 32) →
    s.script = accesses (.ldkey d) → ∃ t, runSteps s.script.length s = .next t ∧
      t.err = 0 ∧ t.keyValid = true ∧ t.nk = d.length / 4 ∧
      (toList t.key).take d.length = d ∧
      t.w.toList.take (4 * (t.nk + 7)) = keyExpansion t.nk d ∧
      t.dw.toList.take (4 * (t.nk + 7)) = decKeySchedule (keyExpansion t.nk d) (t.nk + 6)
end

