-- ==== Sys2Proof/Laws/Bytes.lean ====
section
/-! SUPPORT. The small lemmas of byte strings and bus lanes: each reads one byte of a result. -/

namespace Sys2Proof.Machine

theorem getLsbD_byte {n : Nat} (x : Bytes n) (i j : Nat) (hj : j < 8) :
    (byte x i).getLsbD j = x.getLsbD (8 * (n - 1 - i) + j) := by
  simp [byte, hj]

/-- Byte `i` of `bytesOf n f` is `f i`. -/
@[simp] theorem byte_bytesOf {n : Nat} (f : Nat → Byte) {i : Nat} (hi : i < n) :
    byte (bytesOf n f) i = f i := by
  induction n with
  | zero => omega
  | succ n ih =>
    refine BitVec.eq_of_getLsbD_eq fun j hj => ?_
    rw [getLsbD_byte _ _ _ hj, bytesOf]
    rcases Nat.lt_or_ge i n with h | h
    · rw [← ih h, getLsbD_byte _ _ _ hj]
      rw [BitVec.getLsbD_append]
      have : ¬ 8 * (n + 1 - 1 - i) + j < 8 := by omega
      simp only [this, if_false]
      congr 1
      omega
    · obtain rfl : i = n := by omega
      rw [BitVec.getLsbD_append]
      simp [hj]

/-- Two byte strings with the same bytes are equal. -/
theorem bytes_ext {n : Nat} {x y : Bytes n} (h : ∀ i, i < n → byte x i = byte y i) : x = y := by
  refine BitVec.eq_of_getLsbD_eq fun k hk => ?_
  have hi : n - 1 - k / 8 < n := by omega
  have e : 8 * (n - 1 - (n - 1 - k / 8)) + k % 8 = k := by omega
  have := congrArg (fun b : Byte => b.getLsbD (k % 8)) (h _ hi)
  rwa [getLsbD_byte _ _ _ (by omega), getLsbD_byte _ _ _ (by omega), e] at this

theorem bytesOf_byte {n : Nat} (x : Bytes n) : bytesOf n (byte x) = x :=
  bytes_ext fun _ hi => byte_bytesOf _ hi

theorem bytesOf_congr {n : Nat} {f g : Nat → Byte} (h : ∀ i, i < n → f i = g i) :
    bytesOf n f = bytesOf n g :=
  bytes_ext fun i hi => by rw [byte_bytesOf _ hi, byte_bytesOf _ hi, h i hi]

@[simp] theorem byte_xor {n : Nat} (x y : Bytes n) (i : Nat) :
    byte (x ^^^ y) i = byte x i ^^^ byte y i := by
  refine BitVec.eq_of_getLsbD_eq fun j hj => ?_
  rw [BitVec.getLsbD_xor, getLsbD_byte _ _ _ hj, getLsbD_byte _ _ _ hj, getLsbD_byte _ _ _ hj,
    BitVec.getLsbD_xor]

@[simp] theorem byte_zero {n : Nat} (i : Nat) : byte (0 : Bytes n) i = 0 := by simp [byte]

theorem byte_mapBytes {n : Nat} (f : Byte → Byte) (x : Bytes n) {i : Nat} (hi : i < n) :
    byte (mapBytes f x) i = f (byte x i) := byte_bytesOf _ hi

theorem byte_slice {n : Nat} (x : Bytes n) (i len : Nat) {k : Nat} (hk : k < len) :
    byte (slice x i len) k = byte x (i + k) := byte_bytesOf _ hk

theorem byte_ofList {n : Nat} (l : List Byte) {i : Nat} (hi : i < n) :
    byte (ofList n l) i = l.getD i 0 := byte_bytesOf _ hi

@[simp] theorem length_toList {n : Nat} (x : Bytes n) : (toList x).length = n := by simp [toList]

theorem getD_toList {n : Nat} (x : Bytes n) {i : Nat} (hi : i < n) :
    (toList x).getD i 0 = byte x i := by simp [toList, hi]

@[simp] theorem ofList_toList {n : Nat} (x : Bytes n) : ofList n (toList x) = x :=
  bytes_ext fun i hi => by rw [byte_ofList _ hi, getD_toList _ hi]

theorem toList_ofList {n : Nat} {l : List Byte} (h : l.length = n) : toList (ofList n l) = l := by
  refine List.ext_getElem (by simp [h]) fun i h1 h2 => ?_
  have hi : i < n := by omega
  have := byte_ofList (n := n) l hi
  simp [toList, this, h2]

/-- The bytes of `A ‖ B`, `A` first. -/
theorem byte_append {n m : Nat} (x : Bytes n) (y : Bytes m) (z : Bytes (n + m)) (i : Nat)
    (hz : z.toNat = (x ++ y).toNat) (hi : i < n + m) :
    byte z i = if i < n then byte x i else byte y (i - n) := by
  have hg : ∀ k, z.getLsbD k = (x ++ y).getLsbD k := fun k => by
    rw [BitVec.getLsbD, BitVec.getLsbD, hz]
  refine BitVec.eq_of_getLsbD_eq fun j hj => ?_
  rw [getLsbD_byte _ _ _ hj, hg, BitVec.getLsbD_append]
  split_ifs with h1 h2 h2
  · omega
  · rw [getLsbD_byte _ _ _ hj]
    congr 1
    omega
  · rw [getLsbD_byte _ _ _ hj]
    congr 1
    omega
  · omega

@[simp] theorem lane_wordOfLanes (f : Nat → Byte) {k : Nat} (hk : k < 4) :
    lane (wordOfLanes f) k = f k := by
  refine BitVec.eq_of_getLsbD_eq fun j hj => ?_
  unfold lane wordOfLanes
  rw [BitVec.getLsbD_extractLsb']
  simp only [hj, decide_true, Bool.true_and]
  rw [BitVec.getLsbD_append, BitVec.getLsbD_append, BitVec.getLsbD_append]
  interval_cases k
  · rw [if_pos (by omega)]; congr 1; omega
  · rw [if_neg (by omega), if_pos (by omega)]; congr 1; omega
  · rw [if_neg (by omega), if_neg (by omega), if_pos (by omega)]; congr 1; omega
  · rw [if_neg (by omega), if_neg (by omega), if_neg (by omega)]; congr 1; omega

theorem word_ext {v w : Word} (h : ∀ k, k < 4 → lane v k = lane w k) : v = w := by
  refine BitVec.eq_of_getLsbD_eq fun i hi => ?_
  have := congrArg (fun b : Byte => b.getLsbD (i % 8)) (h (i / 8) (by omega))
  simp only [lane] at this
  rw [BitVec.getLsbD_extractLsb', BitVec.getLsbD_extractLsb'] at this
  have e : 8 * (i / 8) + i % 8 = i := by omega
  have h8 : i % 8 < 8 := by omega
  simpa [e, h8] using this

@[simp] theorem wordOfLanes_lane (v : Word) : wordOfLanes (lane v) = v :=
  word_ext fun _ hk => lane_wordOfLanes _ hk

theorem wordOfLanes_congr {f g : Nat → Byte} (h : ∀ k, k < 4 → f k = g k) :
    wordOfLanes f = wordOfLanes g :=
  word_ext fun k hk => by rw [lane_wordOfLanes _ hk, lane_wordOfLanes _ hk, h k hk]

theorem lane_readLanes {n : Nat} (x : Bytes n) (off : Nat) {k : Nat} (hk : k < 4) :
    lane (readLanes x off) k = byte x (off + k) := lane_wordOfLanes _ hk

theorem byte_writeLanes {n : Nat} (x : Bytes n) (off : Nat) (v : Word) {i : Nat} (hi : i < n) :
    byte (writeLanes x off v) i = if off ≤ i ∧ i < off + 4 then lane v (i - off) else byte x i :=
  byte_bytesOf _ hi

/-- A register word reads back as it was written. -/
theorem readLanes_writeLanes_same {n : Nat} (x : Bytes n) (off : Nat) (v : Word)
    (h : off + 4 ≤ n) : readLanes (writeLanes x off v) off = v := by
  refine word_ext fun k hk => ?_
  rw [lane_readLanes _ _ hk, byte_writeLanes _ _ _ (by omega), if_pos (by omega)]
  congr 1
  omega

/-- Writing one word of a register leaves its other words as they were. -/
theorem readLanes_writeLanes_other {n : Nat} (x : Bytes n) (off off' : Nat) (v : Word)
    (h' : off' + 4 ≤ n) (hd : off' + 4 ≤ off ∨ off + 4 ≤ off') :
    readLanes (writeLanes x off v) off' = readLanes x off' := by
  refine word_ext fun k hk => ?_
  rw [lane_readLanes _ _ hk, lane_readLanes _ _ hk, byte_writeLanes _ _ _ (by omega),
    if_neg (by omega)]

end Sys2Proof.Machine
end

