-- ==== Sys2Proof/Laws/Algorithms.lean ====
section
/-! SUPPORT. How long the results of the algorithms are: schedules, GHASH blocks, counter mode, key wrap. -/

namespace Sys2Proof.Machine

@[simp] theorem length_expandWord (nk : Nat) (w : Schedule) :
    (expandWord nk w).length = w.length + 1 := by simp [expandWord]

@[simp] theorem length_expandTimes (nk n : Nat) (w : Schedule) :
    (expandTimes nk n w).length = w.length + n := by
  induction n generalizing w with
  | zero => rfl
  | succ n ih => rw [expandTimes, ih, length_expandWord]; omega

@[simp] theorem length_keyWords (nk : Nat) (k : List Byte) : (keyWords nk k).length = nk := by
  simp [keyWords]

/-- The number of words of a schedule (40_aes.md R127). -/
@[simp] theorem length_keyExpansion (nk : Nat) (k : List Byte) :
    (keyExpansion nk k).length = 4 * (nk + 7) := by
  rw [keyExpansion, length_expandTimes, length_keyWords]; omega

@[simp] theorem length_decKeySchedule (w : Schedule) (nr : Nat) :
    (decKeySchedule w nr).length = 4 * (nr + 1) := by simp [decKeySchedule]

@[simp] theorem length_blocks (d : List Byte) : (blocks d).length = blockCount d.length := by
  simp [blocks]

theorem length_gctrLoop (enc : Block → Block) (n : Nat) (cb : Block) (d : List Byte)
    (h : d.length ≤ 16 * n) : (gctrLoop enc n cb d).length = d.length := by
  induction n generalizing cb d with
  | zero => rw [gctrLoop, List.length_nil]; omega
  | succ n ih =>
    rw [gctrLoop, List.length_append, ih _ _ (by rw [List.length_drop]; omega)]
    simp only [xorBytes, List.length_zipWith, List.length_take, length_toList, List.length_drop]
    omega

/-- Counter mode keeps the length (42_gcm.md R173). -/
@[simp] theorem length_gctr (enc : Block → Block) (j0 : Block) (d : List Byte) :
    (gctr enc j0 d).length = d.length :=
  length_gctrLoop _ _ _ _ (by unfold blockCount; omega)

@[simp] theorem length_wrapPass (enc : Block → Block) (t : Nat) (a : Bytes 8) (r : List (Bytes 8)) :
    (wrapPass enc t a r).2.length = r.length := by
  induction r generalizing t a with
  | nil => rfl
  | cons r rs ih => simp [wrapPass, ih]

@[simp] theorem length_unwrapPass (dec : Block → Block) (t : Nat) (a : Bytes 8)
    (r : List (Bytes 8)) : (unwrapPass dec t a r).2.length = r.length := by
  induction r generalizing t a with
  | nil => rfl
  | cons r rs ih => simp [unwrapPass, ih]

@[simp] theorem length_wrapRounds (enc : Block → Block) (ar : Bytes 8 × List (Bytes 8))
    (js : List Nat) : (wrapRounds enc ar js).2.length = ar.2.length := by
  unfold wrapRounds
  induction js generalizing ar with
  | nil => rfl
  | cons j js ih => rw [List.foldl_cons, ih, length_wrapPass]

@[simp] theorem length_unwrapRounds (dec : Block → Block) (ar : Bytes 8 × List (Bytes 8))
    (js : List Nat) : (unwrapRounds dec ar js).2.length = ar.2.length := by
  unfold unwrapRounds
  induction js generalizing ar with
  | nil => rfl
  | cons j js ih => rw [List.foldl_cons, ih, length_unwrapPass]

@[simp] theorem length_halfBlocks (d : List Byte) : (halfBlocks d).length = d.length / 8 := by
  simp [halfBlocks, halfBlockCount]

theorem length_flatMap_toList {n : Nat} (l : List (Bytes n)) :
    (l.flatMap toList).length = n * l.length := by
  induction l with
  | nil => rfl
  | cons x l ih => simp [ih, Nat.mul_add]; omega

/-- Wrapped key data is 8 bytes longer (43_keywrap.md R190). -/
theorem length_kwWrap (enc : Block → Block) {p : List Byte} (h : p.length % 8 = 0) :
    (kwWrap enc p).length = p.length + 8 := by
  simp only [kwWrap, List.length_append, length_toList, length_flatMap_toList, length_wrapRounds,
    length_halfBlocks]
  omega

/-- Unwrapped key data is 8 bytes shorter (43_keywrap.md R190). -/
theorem length_kwUnwrap (dec : Block → Block) {c : List Byte} (h : c.length % 8 = 0) :
    (kwUnwrap dec c).2.length = c.length - 8 := by
  simp only [kwUnwrap, length_flatMap_toList, length_unwrapRounds, length_halfBlocks,
    List.length_drop]
  omega

end Sys2Proof.Machine
end

