-- ==== Sys2Proof/Laws/Config.lean ====
section
/-! SUPPORT. What is known of BUF_MAX (00_scope.md R7), and nothing else is. -/

namespace Sys2Proof.Config

theorem bufMax_ge : 64 ≤ bufMax := by unfold bufMax; omega

theorem bufMax_le : bufMax ≤ 65536 := by
  have := bufMaxIndex.isLt
  unfold bufMax; omega

theorem bufMax_mod : bufMax % 16 = 0 := by unfold bufMax; omega

theorem bufMax_lt_word : bufMax < 2 ^ 32 := by
  have := bufMax_le
  omega

end Sys2Proof.Config
end

