-- ==== Sys2Proof/Laws/Memory.lean ====
section
/-! SUPPORT. The buffers: what a read gives after a write, and that every operation keeps the canonical form. -/

namespace Sys2Proof.Machine

@[simp] theorem read_zeros (k : Nat) : Memory.zeros.read k = 0 := rfl

@[simp] theorem wf_zeros : Memory.zeros.wf = true := rfl

theorem inBounds_zeros : Memory.zeros.inBounds := fun _ h => nomatch h

theorem read_of_lt {m : Memory} {k : Nat} (h : m.all (fun c => decide (k < c.1)) = true) :
    m.read k = 0 := by
  induction m with
  | nil => rfl
  | cons c m ih =>
    obtain ⟨a, b⟩ := c
    simp only [List.all_cons, Bool.and_eq_true, decide_eq_true_eq] at h
    have hne : ¬ a = k := by omega
    simp [Memory.read, hne, ih h.2]

theorem all_lt_trans {m : Memory} {a b : Nat} (hab : a ≤ b)
    (h : m.all (fun c => decide (b < c.1)) = true) : m.all (fun c => decide (a < c.1)) = true := by
  simp only [List.all_eq_true, decide_eq_true_eq] at h ⊢
  intro c hc
  have := h c hc
  omega

theorem wf_cons {a : Nat} {b : Byte} {m : Memory} :
    Memory.wf ((a, b) :: m) = true ↔
      (b ≠ 0 ∧ m.all (fun c => decide (a < c.1)) = true) ∧ Memory.wf m = true := by
  simp only [Memory.wf, Bool.and_eq_true, bne_iff_ne]

theorem read_cons (a : Nat) (b : Byte) (m : Memory) (k : Nat) :
    Memory.read ((a, b) :: m) k = if a = k then b else Memory.read m k := rfl

/-- Read after write, on a canonical buffer. -/
theorem read_write {m : Memory} (h : m.wf = true) (k j : Nat) (b : Byte) :
    (m.write k b).read j = if j = k then b else m.read j := by
  induction m with
  | nil =>
    unfold Memory.write
    split
    · rename_i hb; rw [hb]; split <;> rfl
    · rw [read_cons]; exact if_congr eq_comm rfl rfl
  | cons c m ih =>
    obtain ⟨a, d⟩ := c
    obtain ⟨⟨hd, hall⟩, hwf⟩ := wf_cons.1 h
    unfold Memory.write
    rcases Nat.lt_trichotomy k a with hk | rfl | hk
    · have hr : Memory.read m k = 0 := read_of_lt (all_lt_trans (Nat.le_of_lt hk) hall)
      rw [if_pos hk]
      rcases eq_or_ne j k with rfl | hj
      · by_cases hb : b = 0
        · rw [if_pos hb, if_pos rfl, read_cons, if_neg (by omega), hr, hb]
        · rw [if_neg hb, if_pos rfl, read_cons, if_pos rfl]
      · rw [if_neg hj]
        by_cases hb : b = 0
        · rw [if_pos hb]
        · rw [if_neg hb, read_cons, if_neg (Ne.symm hj)]
    · have hr : Memory.read m k = 0 := read_of_lt hall
      rw [if_neg (Nat.lt_irrefl k), if_pos rfl]
      rcases eq_or_ne j k with rfl | hj
      · by_cases hb : b = 0
        · rw [if_pos hb, if_pos rfl, hr, hb]
        · rw [if_neg hb, if_pos rfl, read_cons, if_pos rfl]
      · rw [if_neg hj, read_cons, if_neg (Ne.symm hj)]
        by_cases hb : b = 0
        · rw [if_pos hb]
        · rw [if_neg hb, read_cons, if_neg (Ne.symm hj)]
    · rw [if_neg (by omega), if_neg (by omega), read_cons, read_cons, ih hwf]
      rcases eq_or_ne a j with rfl | hj
      · rw [if_pos rfl, if_neg (by omega), if_pos rfl]
      · rw [if_neg hj, if_neg hj]

theorem all_write {m : Memory} {k a : Nat} {b : Byte} (hk : a < k)
    (h : m.all (fun c => decide (a < c.1)) = true) :
    (m.write k b).all (fun c => decide (a < c.1)) = true := by
  induction m with
  | nil => unfold Memory.write; split <;> simp [hk]
  | cons c m ih =>
    obtain ⟨e, d⟩ := c
    simp only [List.all_cons, Bool.and_eq_true, decide_eq_true_eq] at h
    unfold Memory.write
    split
    · split <;> simp [hk, h.1, h.2]
    · split
      · split
        · exact h.2
        · simp [hk, h.2]
      · simp [h.1, ih h.2]

/-- A write keeps the canonical form. -/
theorem wf_write {m : Memory} (h : m.wf = true) (k : Nat) (b : Byte) : (m.write k b).wf = true := by
  induction m with
  | nil =>
    unfold Memory.write
    split
    · rfl
    · rename_i hb; exact wf_cons.2 ⟨⟨hb, rfl⟩, rfl⟩
  | cons c m ih =>
    obtain ⟨a, d⟩ := c
    obtain ⟨⟨hd, hall⟩, hwf⟩ := wf_cons.1 h
    unfold Memory.write
    split
    · rename_i hk
      split
      · exact h
      · rename_i hb
        refine wf_cons.2 ⟨⟨hb, ?_⟩, h⟩
        simp [hk, all_lt_trans (Nat.le_of_lt hk) hall]
    · split
      · subst_vars
        split
        · exact hwf
        · rename_i hb; exact wf_cons.2 ⟨⟨hb, hall⟩, hwf⟩
      · exact wf_cons.2 ⟨⟨hd, all_write (by omega) hall⟩, ih hwf⟩

theorem mem_write {m : Memory} {k : Nat} {b : Byte} {c : Host.Cell} (h : c ∈ m.write k b) :
    c ∈ m ∨ c = (k, b) := by
  induction m with
  | nil => unfold Memory.write at h; split at h <;> simp_all
  | cons e m ih =>
    obtain ⟨a, d⟩ := e
    unfold Memory.write at h
    split at h
    · split at h
      · exact .inl h
      · rcases List.mem_cons.1 h with rfl | h
        · exact .inr rfl
        · exact .inl h
    · split at h
      · split at h
        · exact .inl (List.mem_cons_of_mem _ h)
        · rcases List.mem_cons.1 h with rfl | h
          · exact .inr rfl
          · exact .inl (List.mem_cons_of_mem _ h)
      · rcases List.mem_cons.1 h with rfl | h
        · exact .inl (List.mem_cons_self)
        · rcases ih h with h | h
          · exact .inl (List.mem_cons_of_mem _ h)
          · exact .inr h

/-- A write inside the buffer keeps every cell inside it. -/
theorem inBounds_write {m : Memory} (h : m.inBounds) {k : Nat} (hk : k < Config.bufMax) (b : Byte) :
    (m.write k b).inBounds := by
  intro c hc
  rcases mem_write hc with hc | rfl
  · exact h c hc
  · exact hk

/-- `MemWrite` keeps the canonical form. -/
theorem wf_memWrite {m : Memory} (h : m.wf = true) (off : Nat) (v : List Byte) :
    (memWrite m off v).wf = true := by
  induction v generalizing m off with
  | nil => exact h
  | cons b v ih => exact ih (wf_write h off b) (off + 1)

/-- `MemWrite` inside the buffer keeps every cell inside it. -/
theorem inBounds_memWrite {m : Memory} (h : m.inBounds) {off : Nat} {v : List Byte}
    (hv : off + v.length ≤ Config.bufMax) : (memWrite m off v).inBounds := by
  induction v generalizing m off with
  | nil => exact h
  | cons b v ih =>
    simp only [List.length_cons] at hv
    exact ih (inBounds_write h (by omega) b) (by omega)

/-- What `MemWrite` leaves at each offset (00_scope.md R12). -/
theorem read_memWrite {m : Memory} (h : m.wf = true) (off : Nat) (v : List Byte) (j : Nat) :
    (memWrite m off v).read j =
      if off ≤ j ∧ j < off + v.length then v.getD (j - off) 0 else m.read j := by
  induction v generalizing m off with
  | nil =>
    rw [if_neg (by simp only [List.length_nil]; omega)]
    rfl
  | cons b v ih =>
    rw [memWrite, ih (wf_write h off b), read_write h]
    rcases Nat.lt_trichotomy j off with hj | rfl | hj
    · have h1 : ¬ (off + 1 ≤ j ∧ j < off + 1 + v.length) := by omega
      have h2 : ¬ (off ≤ j ∧ j < off + (b :: v).length) := by omega
      have h3 : ¬ j = off := by omega
      rw [if_neg h1, if_neg h2, if_neg h3]
    · have h1 : ¬ (j + 1 ≤ j ∧ j < j + 1 + v.length) := by omega
      have h2 : j ≤ j ∧ j < j + (b :: v).length := by simp
      rw [if_neg h1, if_pos h2, if_pos rfl]
      simp
    · have h3 : ¬ j = off := by omega
      have e : j - off = (j - (off + 1)) + 1 := by omega
      simp only [h3, if_false, List.length_cons, e, List.getD_cons_succ]
      exact if_congr (by omega) rfl rfl

@[simp] theorem length_memRead (m : Memory) (off n : Nat) : (memRead m off n).length = n := by
  simp [memRead]

theorem getD_memRead (m : Memory) (off : Nat) {n i : Nat} (hi : i < n) :
    (memRead m off n).getD i 0 = m.read (off + i) := by simp [memRead, hi]

/-- `MemRead` depends only on the bytes it names (R12, 42_gcm.md R175). -/
theorem memRead_congr {m m' : Memory} {off n : Nat}
    (h : ∀ i, i < n → m.read (off + i) = m'.read (off + i)) : memRead m off n = memRead m' off n :=
  List.map_congr_left fun i hi => h i (List.mem_range.1 hi)

/-- `MemRead` of what `MemWrite` wrote. -/
theorem memRead_memWrite {m : Memory} (h : m.wf = true) (off : Nat) (v : List Byte) :
    memRead (memWrite m off v) off v.length = v := by
  refine List.ext_getElem (by simp) fun i h1 h2 => ?_
  have hb : off ≤ off + i ∧ off + i < off + v.length := by omega
  have hr := read_memWrite h off v (off + i)
  rw [if_pos hb] at hr
  simp [memRead, hr, h2]

/-- A canonical buffer is determined by what it reads. -/
theorem memory_ext {m m' : Memory} (h : m.wf = true) (h' : m'.wf = true)
    (he : ∀ k, m.read k = m'.read k) : m = m' := by
  induction m generalizing m' with
  | nil =>
    cases m' with
    | nil => rfl
    | cons c m' =>
      obtain ⟨a, d⟩ := c
      have := he a
      rw [read_cons, if_pos rfl] at this
      exact absurd this.symm (wf_cons.1 h').1.1
  | cons c m ih =>
    obtain ⟨a, d⟩ := c
    obtain ⟨⟨hd, hall⟩, hwf⟩ := wf_cons.1 h
    cases m' with
    | nil =>
      have := he a
      rw [read_cons, if_pos rfl] at this
      exact absurd this hd
    | cons c' m' =>
      obtain ⟨a', d'⟩ := c'
      obtain ⟨⟨hd', hall'⟩, hwf'⟩ := wf_cons.1 h'
      have haa : a = a' := by
        rcases Nat.lt_trichotomy a a' with hlt | heq | hgt
        · have := he a
          rw [read_cons, if_pos rfl, read_cons, if_neg (by omega),
            read_of_lt (all_lt_trans (Nat.le_of_lt hlt) hall')] at this
          exact absurd this hd
        · exact heq
        · have := he a'
          rw [read_cons, if_neg (by omega), read_cons, if_pos rfl,
            read_of_lt (all_lt_trans (Nat.le_of_lt hgt) hall)] at this
          exact absurd this.symm hd'
      subst haa
      have hdd := he a
      rw [read_cons, if_pos rfl, read_cons, if_pos rfl] at hdd
      rw [hdd, ih hwf hwf' fun k => ?_]
      rcases eq_or_ne a k with rfl | hk
      · rw [read_of_lt hall, read_of_lt hall']
      · have := he k
        rwa [read_cons, if_neg hk, read_cons, if_neg hk] at this

/-- The bytes of a buffer after a word is stored in it (20_memory.md R64). -/
theorem read_bufStore {m : Memory} (h : m.wf = true) (k : Nat) (v : Word) (j : Nat) :
    (bufStore m k v).read j = if k ≤ j ∧ j < k + 4 then lane v (j - k) else m.read j := by
  rw [bufStore, read_memWrite h]
  simp only [List.length_map, List.length_range]
  split <;> rename_i hj
  · have : j - k < 4 := by omega
    simp [this]
  · rfl

theorem wf_bufStore {m : Memory} (h : m.wf = true) (k : Nat) (v : Word) :
    (bufStore m k v).wf = true := wf_memWrite h _ _

theorem inBounds_bufStore {m : Memory} (h : m.inBounds) {k : Nat} (hk : k + 4 ≤ Config.bufMax)
    (v : Word) : (bufStore m k v).inBounds := inBounds_memWrite h (by simpa using hk)

/-- A buffer word reads back as it was stored. -/
theorem bufWord_bufStore_same {m : Memory} (h : m.wf = true) (k : Nat) (v : Word) :
    bufWord (bufStore m k v) k = v := by
  refine word_ext fun i hi => ?_
  rw [bufWord, lane_wordOfLanes _ hi, read_bufStore h, if_pos (by omega)]
  congr 1
  omega

/-- Storing one word of a buffer leaves the words beside it as they were. -/
theorem bufWord_bufStore_other {m : Memory} (h : m.wf = true) (k k' : Nat) (v : Word)
    (hd : k' + 4 ≤ k ∨ k + 4 ≤ k') : bufWord (bufStore m k v) k' = bufWord m k' := by
  refine wordOfLanes_congr fun i hi => ?_
  rw [read_bufStore h, if_neg (by omega)]

end Sys2Proof.Machine
end

