-- ==== Sys2Proof/Laws/Flags.lean ====
section
/-! SUPPORT. The fields of STATUS: what each field reads after each field is written (10_state.md R32). -/

namespace Sys2Proof.Machine

/-- The bits of a word after one field of it is replaced. -/
theorem getLsbD_putField (st : Word) (lo : Nat) {n : Nat} (v : BitVec n) {i : Nat} (hi : i < 32) :
    (putField st lo v).getLsbD i =
      if lo ≤ i ∧ i < lo + n then v.getLsbD (i - lo) else st.getLsbD i := by
  simp only [putField, BitVec.getLsbD_or, BitVec.getLsbD_and, BitVec.getLsbD_not,
    BitVec.getLsbD_shiftLeft, BitVec.getLsbD_setWidth, BitVec.getLsbD_allOnes, hi, decide_true,
    Bool.true_and]
  by_cases h1 : lo ≤ i
  · have h1' : ¬ i < lo := by omega
    have h3 : i - lo < 32 := by omega
    by_cases h2 : i < lo + n
    · have h4 : i - lo < n := by omega
      simp [h1, h1', h2, h3, h4]
    · have h4 : ¬ i - lo < n := by omega
      simp [h1', h2, h4, BitVec.getLsbD_of_ge v (i - lo) (by omega)]
  · have h1' : i < lo := by omega
    simp [h1, h1']

/-- Two status words with the same fields are equal. -/
theorem status_ext {a b : Word} (h0 : keyValidOf a = keyValidOf b) (h1 : hValidOf a = hValidOf b)
    (h2 : klenOf a = klenOf b) (h4 : errOf a = errOf b) (h8 : estickyOf a = estickyOf b)
    (h9 : reservedOf a = reservedOf b) : a = b := by
  refine BitVec.eq_of_getLsbD_eq fun i hi => ?_
  have hk := fun j => congrArg (fun x : BitVec 2 => x.getLsbD j) h2
  have he := fun j => congrArg (fun x : BitVec 4 => x.getLsbD j) h4
  have hr := fun j => congrArg (fun x : BitVec 23 => x.getLsbD j) h9
  simp only [keyValidOf, hValidOf, estickyOf] at h0 h1 h8
  simp only [klenOf, errOf, reservedOf, BitVec.getLsbD_extractLsb'] at hk he hr
  rcases Nat.lt_or_ge i 9 with h | h
  · interval_cases i
    · exact h0
    · exact h1
    · simpa using hk 0
    · simpa using hk 1
    · simpa using he 0
    · simpa using he 1
    · simpa using he 2
    · simpa using he 3
    · exact h8
  · have := hr (i - 9)
    have e : 9 + (i - 9) = i := by omega
    have h23 : i - 9 < 23 := by omega
    simpa [e, h23] using this

@[simp] theorem keyValidOf_putKeyValid (st : Word) (v : Bool) : keyValidOf (putKeyValid st v) = v := by
  rw [keyValidOf, putKeyValid, getLsbD_putField _ _ _ (by omega)]
  simp

@[simp] theorem hValidOf_putKeyValid (st : Word) (v : Bool) : hValidOf (putKeyValid st v) = hValidOf st := by
  rw [hValidOf, putKeyValid, getLsbD_putField _ _ _ (by omega)]
  rw [if_neg (by omega), hValidOf]

@[simp] theorem klenOf_putKeyValid (st : Word) (v : Bool) : klenOf (putKeyValid st v) = klenOf st := by
  refine BitVec.eq_of_getLsbD_eq fun j hj => ?_
  rw [klenOf, putKeyValid, BitVec.getLsbD_extractLsb', getLsbD_putField _ _ _ (by omega)]
  rw [if_neg (by omega), klenOf, BitVec.getLsbD_extractLsb']

@[simp] theorem errOf_putKeyValid (st : Word) (v : Bool) : errOf (putKeyValid st v) = errOf st := by
  refine BitVec.eq_of_getLsbD_eq fun j hj => ?_
  rw [errOf, putKeyValid, BitVec.getLsbD_extractLsb', getLsbD_putField _ _ _ (by omega)]
  rw [if_neg (by omega), errOf, BitVec.getLsbD_extractLsb']

@[simp] theorem estickyOf_putKeyValid (st : Word) (v : Bool) : estickyOf (putKeyValid st v) = estickyOf st := by
  rw [estickyOf, putKeyValid, getLsbD_putField _ _ _ (by omega)]
  rw [if_neg (by omega), estickyOf]

@[simp] theorem reservedOf_putKeyValid (st : Word) (v : Bool) : reservedOf (putKeyValid st v) = reservedOf st := by
  refine BitVec.eq_of_getLsbD_eq fun j hj => ?_
  rw [reservedOf, putKeyValid, BitVec.getLsbD_extractLsb', getLsbD_putField _ _ _ (by omega)]
  rw [if_neg (by omega), reservedOf, BitVec.getLsbD_extractLsb']

@[simp] theorem keyValidOf_putHValid (st : Word) (v : Bool) : keyValidOf (putHValid st v) = keyValidOf st := by
  rw [keyValidOf, putHValid, getLsbD_putField _ _ _ (by omega)]
  rw [if_neg (by omega), keyValidOf]

@[simp] theorem hValidOf_putHValid (st : Word) (v : Bool) : hValidOf (putHValid st v) = v := by
  rw [hValidOf, putHValid, getLsbD_putField _ _ _ (by omega)]
  simp

@[simp] theorem klenOf_putHValid (st : Word) (v : Bool) : klenOf (putHValid st v) = klenOf st := by
  refine BitVec.eq_of_getLsbD_eq fun j hj => ?_
  rw [klenOf, putHValid, BitVec.getLsbD_extractLsb', getLsbD_putField _ _ _ (by omega)]
  rw [if_neg (by omega), klenOf, BitVec.getLsbD_extractLsb']

@[simp] theorem errOf_putHValid (st : Word) (v : Bool) : errOf (putHValid st v) = errOf st := by
  refine BitVec.eq_of_getLsbD_eq fun j hj => ?_
  rw [errOf, putHValid, BitVec.getLsbD_extractLsb', getLsbD_putField _ _ _ (by omega)]
  rw [if_neg (by omega), errOf, BitVec.getLsbD_extractLsb']

@[simp] theorem estickyOf_putHValid (st : Word) (v : Bool) : estickyOf (putHValid st v) = estickyOf st := by
  rw [estickyOf, putHValid, getLsbD_putField _ _ _ (by omega)]
  rw [if_neg (by omega), estickyOf]

@[simp] theorem reservedOf_putHValid (st : Word) (v : Bool) : reservedOf (putHValid st v) = reservedOf st := by
  refine BitVec.eq_of_getLsbD_eq fun j hj => ?_
  rw [reservedOf, putHValid, BitVec.getLsbD_extractLsb', getLsbD_putField _ _ _ (by omega)]
  rw [if_neg (by omega), reservedOf, BitVec.getLsbD_extractLsb']

@[simp] theorem keyValidOf_putKlen (st : Word) (v : BitVec 2) : keyValidOf (putKlen st v) = keyValidOf st := by
  rw [keyValidOf, putKlen, getLsbD_putField _ _ _ (by omega)]
  rw [if_neg (by omega), keyValidOf]

@[simp] theorem hValidOf_putKlen (st : Word) (v : BitVec 2) : hValidOf (putKlen st v) = hValidOf st := by
  rw [hValidOf, putKlen, getLsbD_putField _ _ _ (by omega)]
  rw [if_neg (by omega), hValidOf]

@[simp] theorem klenOf_putKlen (st : Word) (v : BitVec 2) : klenOf (putKlen st v) = v := by
  refine BitVec.eq_of_getLsbD_eq fun j hj => ?_
  rw [klenOf, putKlen, BitVec.getLsbD_extractLsb', getLsbD_putField _ _ _ (by omega)]
  rw [if_pos (by omega)]
  simp [hj]

@[simp] theorem errOf_putKlen (st : Word) (v : BitVec 2) : errOf (putKlen st v) = errOf st := by
  refine BitVec.eq_of_getLsbD_eq fun j hj => ?_
  rw [errOf, putKlen, BitVec.getLsbD_extractLsb', getLsbD_putField _ _ _ (by omega)]
  rw [if_neg (by omega), errOf, BitVec.getLsbD_extractLsb']

@[simp] theorem estickyOf_putKlen (st : Word) (v : BitVec 2) : estickyOf (putKlen st v) = estickyOf st := by
  rw [estickyOf, putKlen, getLsbD_putField _ _ _ (by omega)]
  rw [if_neg (by omega), estickyOf]

@[simp] theorem reservedOf_putKlen (st : Word) (v : BitVec 2) : reservedOf (putKlen st v) = reservedOf st := by
  refine BitVec.eq_of_getLsbD_eq fun j hj => ?_
  rw [reservedOf, putKlen, BitVec.getLsbD_extractLsb', getLsbD_putField _ _ _ (by omega)]
  rw [if_neg (by omega), reservedOf, BitVec.getLsbD_extractLsb']

@[simp] theorem keyValidOf_putErr (st : Word) (v : BitVec 4) : keyValidOf (putErr st v) = keyValidOf st := by
  rw [keyValidOf, putErr, getLsbD_putField _ _ _ (by omega)]
  rw [if_neg (by omega), keyValidOf]

@[simp] theorem hValidOf_putErr (st : Word) (v : BitVec 4) : hValidOf (putErr st v) = hValidOf st := by
  rw [hValidOf, putErr, getLsbD_putField _ _ _ (by omega)]
  rw [if_neg (by omega), hValidOf]

@[simp] theorem klenOf_putErr (st : Word) (v : BitVec 4) : klenOf (putErr st v) = klenOf st := by
  refine BitVec.eq_of_getLsbD_eq fun j hj => ?_
  rw [klenOf, putErr, BitVec.getLsbD_extractLsb', getLsbD_putField _ _ _ (by omega)]
  rw [if_neg (by omega), klenOf, BitVec.getLsbD_extractLsb']

@[simp] theorem errOf_putErr (st : Word) (v : BitVec 4) : errOf (putErr st v) = v := by
  refine BitVec.eq_of_getLsbD_eq fun j hj => ?_
  rw [errOf, putErr, BitVec.getLsbD_extractLsb', getLsbD_putField _ _ _ (by omega)]
  rw [if_pos (by omega)]
  simp [hj]

@[simp] theorem estickyOf_putErr (st : Word) (v : BitVec 4) : estickyOf (putErr st v) = estickyOf st := by
  rw [estickyOf, putErr, getLsbD_putField _ _ _ (by omega)]
  rw [if_neg (by omega), estickyOf]

@[simp] theorem reservedOf_putErr (st : Word) (v : BitVec 4) : reservedOf (putErr st v) = reservedOf st := by
  refine BitVec.eq_of_getLsbD_eq fun j hj => ?_
  rw [reservedOf, putErr, BitVec.getLsbD_extractLsb', getLsbD_putField _ _ _ (by omega)]
  rw [if_neg (by omega), reservedOf, BitVec.getLsbD_extractLsb']

@[simp] theorem keyValidOf_putEsticky (st : Word) (v : Bool) : keyValidOf (putEsticky st v) = keyValidOf st := by
  rw [keyValidOf, putEsticky, getLsbD_putField _ _ _ (by omega)]
  rw [if_neg (by omega), keyValidOf]

@[simp] theorem hValidOf_putEsticky (st : Word) (v : Bool) : hValidOf (putEsticky st v) = hValidOf st := by
  rw [hValidOf, putEsticky, getLsbD_putField _ _ _ (by omega)]
  rw [if_neg (by omega), hValidOf]

@[simp] theorem klenOf_putEsticky (st : Word) (v : Bool) : klenOf (putEsticky st v) = klenOf st := by
  refine BitVec.eq_of_getLsbD_eq fun j hj => ?_
  rw [klenOf, putEsticky, BitVec.getLsbD_extractLsb', getLsbD_putField _ _ _ (by omega)]
  rw [if_neg (by omega), klenOf, BitVec.getLsbD_extractLsb']

@[simp] theorem errOf_putEsticky (st : Word) (v : Bool) : errOf (putEsticky st v) = errOf st := by
  refine BitVec.eq_of_getLsbD_eq fun j hj => ?_
  rw [errOf, putEsticky, BitVec.getLsbD_extractLsb', getLsbD_putField _ _ _ (by omega)]
  rw [if_neg (by omega), errOf, BitVec.getLsbD_extractLsb']

@[simp] theorem estickyOf_putEsticky (st : Word) (v : Bool) : estickyOf (putEsticky st v) = v := by
  rw [estickyOf, putEsticky, getLsbD_putField _ _ _ (by omega)]
  simp

@[simp] theorem reservedOf_putEsticky (st : Word) (v : Bool) : reservedOf (putEsticky st v) = reservedOf st := by
  refine BitVec.eq_of_getLsbD_eq fun j hj => ?_
  rw [reservedOf, putEsticky, BitVec.getLsbD_extractLsb', getLsbD_putField _ _ _ (by omega)]
  rw [if_neg (by omega), reservedOf, BitVec.getLsbD_extractLsb']

@[simp] theorem keyValidOf_statusOk (st : Word) : keyValidOf (statusOk st) = keyValidOf st := by
  simp [statusOk, errValue]

@[simp] theorem keyValidOf_statusError (st : Word) (c : ResultCode) :
    keyValidOf (statusError st c) = keyValidOf st := by
  simp [statusError]

@[simp] theorem hValidOf_statusOk (st : Word) : hValidOf (statusOk st) = hValidOf st := by
  simp [statusOk, errValue]

@[simp] theorem hValidOf_statusError (st : Word) (c : ResultCode) :
    hValidOf (statusError st c) = hValidOf st := by
  simp [statusError]

@[simp] theorem klenOf_statusOk (st : Word) : klenOf (statusOk st) = klenOf st := by
  simp [statusOk, errValue]

@[simp] theorem klenOf_statusError (st : Word) (c : ResultCode) :
    klenOf (statusError st c) = klenOf st := by
  simp [statusError]

@[simp] theorem errOf_statusOk (st : Word) : errOf (statusOk st) = 0 := by
  simp [statusOk, errValue]

@[simp] theorem errOf_statusError (st : Word) (c : ResultCode) :
    errOf (statusError st c) = errValue c := by
  simp [statusError]

@[simp] theorem estickyOf_statusOk (st : Word) : estickyOf (statusOk st) = estickyOf st := by
  simp [statusOk, errValue]

@[simp] theorem estickyOf_statusError (st : Word) (c : ResultCode) :
    estickyOf (statusError st c) = true := by
  simp [statusError]

@[simp] theorem reservedOf_statusOk (st : Word) : reservedOf (statusOk st) = reservedOf st := by
  simp [statusOk, errValue]

@[simp] theorem reservedOf_statusError (st : Word) (c : ResultCode) :
    reservedOf (statusError st c) = reservedOf st := by
  simp [statusError]

/-- The six result codes have six values (60_exceptions.md R220). -/
theorem errValue_injective {c d : ResultCode} (h : errValue c = errValue d) : c = d := by
  cases c <;> cases d <;> first | rfl | exact absurd h (by decide)

theorem errValue_le (c : ResultCode) : (errValue c).toNat ≤ 5 := by cases c <;> decide

end Sys2Proof.Machine
end

