-- ==== Sys2Proof/Laws/State.lean ====
section
/-! SUPPORT. One lemma per field and per named update of State, so that no proof unfolds a record update. -/

namespace Sys2Proof.Machine

/-! ### `State.withStatus` -/

@[simp] theorem withStatus_key (s : State) (st : Word) :
    (s.withStatus st).key = s.key := rfl
@[simp] theorem withStatus_blkIn (s : State) (st : Word) :
    (s.withStatus st).blkIn = s.blkIn := rfl
@[simp] theorem withStatus_blkOut (s : State) (st : Word) :
    (s.withStatus st).blkOut = s.blkOut := rfl
@[simp] theorem withStatus_h (s : State) (st : Word) :
    (s.withStatus st).h = s.h := rfl
@[simp] theorem withStatus_y (s : State) (st : Word) :
    (s.withStatus st).y = s.y := rfl
@[simp] theorem withStatus_nonce (s : State) (st : Word) :
    (s.withStatus st).nonce = s.nonce := rfl
@[simp] theorem withStatus_tagIn (s : State) (st : Word) :
    (s.withStatus st).tagIn = s.tagIn := rfl
@[simp] theorem withStatus_tag (s : State) (st : Word) :
    (s.withStatus st).tag = s.tag := rfl
@[simp] theorem withStatus_status (s : State) (st : Word) :
    (s.withStatus st).status = st := rfl
@[simp] theorem withStatus_aadLen (s : State) (st : Word) :
    (s.withStatus st).aadLen = s.aadLen := rfl
@[simp] theorem withStatus_inLen (s : State) (st : Word) :
    (s.withStatus st).inLen = s.inLen := rfl
@[simp] theorem withStatus_outLen (s : State) (st : Word) :
    (s.withStatus st).outLen = s.outLen := rfl
@[simp] theorem withStatus_w (s : State) (st : Word) :
    (s.withStatus st).w = s.w := rfl
@[simp] theorem withStatus_dw (s : State) (st : Word) :
    (s.withStatus st).dw = s.dw := rfl
@[simp] theorem withStatus_nk (s : State) (st : Word) :
    (s.withStatus st).nk = s.nk := rfl
@[simp] theorem withStatus_m (s : State) (st : Word) :
    (s.withStatus st).m = s.m := rfl
@[simp] theorem withStatus_aadBuf (s : State) (st : Word) :
    (s.withStatus st).aadBuf = s.aadBuf := rfl
@[simp] theorem withStatus_inBuf (s : State) (st : Word) :
    (s.withStatus st).inBuf = s.inBuf := rfl
@[simp] theorem withStatus_outBuf (s : State) (st : Word) :
    (s.withStatus st).outBuf = s.outBuf := rfl
@[simp] theorem withStatus_script (s : State) (st : Word) :
    (s.withStatus st).script = s.script := rfl
@[simp] theorem withStatus_answer (s : State) (st : Word) :
    (s.withStatus st).answer = s.answer := rfl

@[simp] theorem withStatus_keyValid (s : State) (st : Word) :
    (s.withStatus st).keyValid = keyValidOf st := rfl
@[simp] theorem withStatus_hValid (s : State) (st : Word) :
    (s.withStatus st).hValid = hValidOf st := rfl
@[simp] theorem withStatus_klen (s : State) (st : Word) :
    (s.withStatus st).klen = klenOf st := rfl
@[simp] theorem withStatus_err (s : State) (st : Word) :
    (s.withStatus st).err = errOf st := rfl
@[simp] theorem withStatus_esticky (s : State) (st : Word) :
    (s.withStatus st).esticky = estickyOf st := rfl

/-! ### `State.succeed` -/

@[simp] theorem succeed_key (s : State) :
    s.succeed.key = s.key := rfl
@[simp] theorem succeed_blkIn (s : State) :
    s.succeed.blkIn = s.blkIn := rfl
@[simp] theorem succeed_blkOut (s : State) :
    s.succeed.blkOut = s.blkOut := rfl
@[simp] theorem succeed_h (s : State) :
    s.succeed.h = s.h := rfl
@[simp] theorem succeed_y (s : State) :
    s.succeed.y = s.y := rfl
@[simp] theorem succeed_nonce (s : State) :
    s.succeed.nonce = s.nonce := rfl
@[simp] theorem succeed_tagIn (s : State) :
    s.succeed.tagIn = s.tagIn := rfl
@[simp] theorem succeed_tag (s : State) :
    s.succeed.tag = s.tag := rfl
@[simp] theorem succeed_status (s : State) :
    s.succeed.status = statusOk s.status := rfl
@[simp] theorem succeed_aadLen (s : State) :
    s.succeed.aadLen = s.aadLen := rfl
@[simp] theorem succeed_inLen (s : State) :
    s.succeed.inLen = s.inLen := rfl
@[simp] theorem succeed_outLen (s : State) :
    s.succeed.outLen = s.outLen := rfl
@[simp] theorem succeed_w (s : State) :
    s.succeed.w = s.w := rfl
@[simp] theorem succeed_dw (s : State) :
    s.succeed.dw = s.dw := rfl
@[simp] theorem succeed_nk (s : State) :
    s.succeed.nk = s.nk := rfl
@[simp] theorem succeed_m (s : State) :
    s.succeed.m = s.m := rfl
@[simp] theorem succeed_aadBuf (s : State) :
    s.succeed.aadBuf = s.aadBuf := rfl
@[simp] theorem succeed_inBuf (s : State) :
    s.succeed.inBuf = s.inBuf := rfl
@[simp] theorem succeed_outBuf (s : State) :
    s.succeed.outBuf = s.outBuf := rfl
@[simp] theorem succeed_script (s : State) :
    s.succeed.script = s.script := rfl
@[simp] theorem succeed_answer (s : State) :
    s.succeed.answer = s.answer := rfl

@[simp] theorem succeed_keyValid (s : State) :
    s.succeed.keyValid = s.keyValid := by
  simp [State.keyValid]
@[simp] theorem succeed_hValid (s : State) :
    s.succeed.hValid = s.hValid := by
  simp [State.hValid]
@[simp] theorem succeed_klen (s : State) :
    s.succeed.klen = s.klen := by
  simp [State.klen]
@[simp] theorem succeed_err (s : State) :
    s.succeed.err = 0 := by
  simp [State.err]
@[simp] theorem succeed_esticky (s : State) :
    s.succeed.esticky = s.esticky := by
  simp [State.esticky]

/-! ### `State.raise` -/

@[simp] theorem raise_key (s : State) (c : ResultCode) :
    (s.raise c).key = s.key := rfl
@[simp] theorem raise_blkIn (s : State) (c : ResultCode) :
    (s.raise c).blkIn = s.blkIn := rfl
@[simp] theorem raise_blkOut (s : State) (c : ResultCode) :
    (s.raise c).blkOut = s.blkOut := rfl
@[simp] theorem raise_h (s : State) (c : ResultCode) :
    (s.raise c).h = s.h := rfl
@[simp] theorem raise_y (s : State) (c : ResultCode) :
    (s.raise c).y = s.y := rfl
@[simp] theorem raise_nonce (s : State) (c : ResultCode) :
    (s.raise c).nonce = s.nonce := rfl
@[simp] theorem raise_tagIn (s : State) (c : ResultCode) :
    (s.raise c).tagIn = s.tagIn := rfl
@[simp] theorem raise_tag (s : State) (c : ResultCode) :
    (s.raise c).tag = s.tag := rfl
@[simp] theorem raise_status (s : State) (c : ResultCode) :
    (s.raise c).status = statusError s.status c := rfl
@[simp] theorem raise_aadLen (s : State) (c : ResultCode) :
    (s.raise c).aadLen = s.aadLen := rfl
@[simp] theorem raise_inLen (s : State) (c : ResultCode) :
    (s.raise c).inLen = s.inLen := rfl
@[simp] theorem raise_outLen (s : State) (c : ResultCode) :
    (s.raise c).outLen = s.outLen := rfl
@[simp] theorem raise_w (s : State) (c : ResultCode) :
    (s.raise c).w = s.w := rfl
@[simp] theorem raise_dw (s : State) (c : ResultCode) :
    (s.raise c).dw = s.dw := rfl
@[simp] theorem raise_nk (s : State) (c : ResultCode) :
    (s.raise c).nk = s.nk := rfl
@[simp] theorem raise_m (s : State) (c : ResultCode) :
    (s.raise c).m = s.m := rfl
@[simp] theorem raise_aadBuf (s : State) (c : ResultCode) :
    (s.raise c).aadBuf = s.aadBuf := rfl
@[simp] theorem raise_inBuf (s : State) (c : ResultCode) :
    (s.raise c).inBuf = s.inBuf := rfl
@[simp] theorem raise_outBuf (s : State) (c : ResultCode) :
    (s.raise c).outBuf = s.outBuf := rfl
@[simp] theorem raise_script (s : State) (c : ResultCode) :
    (s.raise c).script = s.script := rfl
@[simp] theorem raise_answer (s : State) (c : ResultCode) :
    (s.raise c).answer = s.answer := rfl

@[simp] theorem raise_keyValid (s : State) (c : ResultCode) :
    (s.raise c).keyValid = s.keyValid := by
  simp [State.keyValid]
@[simp] theorem raise_hValid (s : State) (c : ResultCode) :
    (s.raise c).hValid = s.hValid := by
  simp [State.hValid]
@[simp] theorem raise_klen (s : State) (c : ResultCode) :
    (s.raise c).klen = s.klen := by
  simp [State.klen]
@[simp] theorem raise_err (s : State) (c : ResultCode) :
    (s.raise c).err = errValue c := by
  simp [State.err]
@[simp] theorem raise_esticky (s : State) (c : ResultCode) :
    (s.raise c).esticky = true := by
  simp [State.esticky]

/-! ### `State.raiseOutcome` -/

@[simp] theorem raiseOutcome_key (s : State) (c : ResultCode) :
    (s.raiseOutcome c).key = s.key := rfl
@[simp] theorem raiseOutcome_blkIn (s : State) (c : ResultCode) :
    (s.raiseOutcome c).blkIn = s.blkIn := rfl
@[simp] theorem raiseOutcome_blkOut (s : State) (c : ResultCode) :
    (s.raiseOutcome c).blkOut = s.blkOut := rfl
@[simp] theorem raiseOutcome_h (s : State) (c : ResultCode) :
    (s.raiseOutcome c).h = s.h := rfl
@[simp] theorem raiseOutcome_y (s : State) (c : ResultCode) :
    (s.raiseOutcome c).y = s.y := rfl
@[simp] theorem raiseOutcome_nonce (s : State) (c : ResultCode) :
    (s.raiseOutcome c).nonce = s.nonce := rfl
@[simp] theorem raiseOutcome_tagIn (s : State) (c : ResultCode) :
    (s.raiseOutcome c).tagIn = s.tagIn := rfl
@[simp] theorem raiseOutcome_tag (s : State) (c : ResultCode) :
    (s.raiseOutcome c).tag = s.tag := rfl
@[simp] theorem raiseOutcome_status (s : State) (c : ResultCode) :
    (s.raiseOutcome c).status = statusError s.status c := rfl
@[simp] theorem raiseOutcome_aadLen (s : State) (c : ResultCode) :
    (s.raiseOutcome c).aadLen = s.aadLen := rfl
@[simp] theorem raiseOutcome_inLen (s : State) (c : ResultCode) :
    (s.raiseOutcome c).inLen = s.inLen := rfl
@[simp] theorem raiseOutcome_outLen (s : State) (c : ResultCode) :
    (s.raiseOutcome c).outLen = 0 := rfl
@[simp] theorem raiseOutcome_w (s : State) (c : ResultCode) :
    (s.raiseOutcome c).w = s.w := rfl
@[simp] theorem raiseOutcome_dw (s : State) (c : ResultCode) :
    (s.raiseOutcome c).dw = s.dw := rfl
@[simp] theorem raiseOutcome_nk (s : State) (c : ResultCode) :
    (s.raiseOutcome c).nk = s.nk := rfl
@[simp] theorem raiseOutcome_m (s : State) (c : ResultCode) :
    (s.raiseOutcome c).m = s.m := rfl
@[simp] theorem raiseOutcome_aadBuf (s : State) (c : ResultCode) :
    (s.raiseOutcome c).aadBuf = s.aadBuf := rfl
@[simp] theorem raiseOutcome_inBuf (s : State) (c : ResultCode) :
    (s.raiseOutcome c).inBuf = s.inBuf := rfl
@[simp] theorem raiseOutcome_outBuf (s : State) (c : ResultCode) :
    (s.raiseOutcome c).outBuf = Memory.zeros := rfl
@[simp] theorem raiseOutcome_script (s : State) (c : ResultCode) :
    (s.raiseOutcome c).script = s.script := rfl
@[simp] theorem raiseOutcome_answer (s : State) (c : ResultCode) :
    (s.raiseOutcome c).answer = s.answer := rfl

@[simp] theorem raiseOutcome_keyValid (s : State) (c : ResultCode) :
    (s.raiseOutcome c).keyValid = s.keyValid := by
  simp [State.keyValid]
@[simp] theorem raiseOutcome_hValid (s : State) (c : ResultCode) :
    (s.raiseOutcome c).hValid = s.hValid := by
  simp [State.hValid]
@[simp] theorem raiseOutcome_klen (s : State) (c : ResultCode) :
    (s.raiseOutcome c).klen = s.klen := by
  simp [State.klen]
@[simp] theorem raiseOutcome_err (s : State) (c : ResultCode) :
    (s.raiseOutcome c).err = errValue c := by
  simp [State.err]
@[simp] theorem raiseOutcome_esticky (s : State) (c : ResultCode) :
    (s.raiseOutcome c).esticky = true := by
  simp [State.esticky]

/-! ### `State.setHValid` -/

@[simp] theorem setHValid_key (s : State) (b : Bool) :
    (s.setHValid b).key = s.key := rfl
@[simp] theorem setHValid_blkIn (s : State) (b : Bool) :
    (s.setHValid b).blkIn = s.blkIn := rfl
@[simp] theorem setHValid_blkOut (s : State) (b : Bool) :
    (s.setHValid b).blkOut = s.blkOut := rfl
@[simp] theorem setHValid_h (s : State) (b : Bool) :
    (s.setHValid b).h = s.h := rfl
@[simp] theorem setHValid_y (s : State) (b : Bool) :
    (s.setHValid b).y = s.y := rfl
@[simp] theorem setHValid_nonce (s : State) (b : Bool) :
    (s.setHValid b).nonce = s.nonce := rfl
@[simp] theorem setHValid_tagIn (s : State) (b : Bool) :
    (s.setHValid b).tagIn = s.tagIn := rfl
@[simp] theorem setHValid_tag (s : State) (b : Bool) :
    (s.setHValid b).tag = s.tag := rfl
@[simp] theorem setHValid_status (s : State) (b : Bool) :
    (s.setHValid b).status = putHValid s.status b := rfl
@[simp] theorem setHValid_aadLen (s : State) (b : Bool) :
    (s.setHValid b).aadLen = s.aadLen := rfl
@[simp] theorem setHValid_inLen (s : State) (b : Bool) :
    (s.setHValid b).inLen = s.inLen := rfl
@[simp] theorem setHValid_outLen (s : State) (b : Bool) :
    (s.setHValid b).outLen = s.outLen := rfl
@[simp] theorem setHValid_w (s : State) (b : Bool) :
    (s.setHValid b).w = s.w := rfl
@[simp] theorem setHValid_dw (s : State) (b : Bool) :
    (s.setHValid b).dw = s.dw := rfl
@[simp] theorem setHValid_nk (s : State) (b : Bool) :
    (s.setHValid b).nk = s.nk := rfl
@[simp] theorem setHValid_m (s : State) (b : Bool) :
    (s.setHValid b).m = s.m := rfl
@[simp] theorem setHValid_aadBuf (s : State) (b : Bool) :
    (s.setHValid b).aadBuf = s.aadBuf := rfl
@[simp] theorem setHValid_inBuf (s : State) (b : Bool) :
    (s.setHValid b).inBuf = s.inBuf := rfl
@[simp] theorem setHValid_outBuf (s : State) (b : Bool) :
    (s.setHValid b).outBuf = s.outBuf := rfl
@[simp] theorem setHValid_script (s : State) (b : Bool) :
    (s.setHValid b).script = s.script := rfl
@[simp] theorem setHValid_answer (s : State) (b : Bool) :
    (s.setHValid b).answer = s.answer := rfl

@[simp] theorem setHValid_keyValid (s : State) (b : Bool) :
    (s.setHValid b).keyValid = s.keyValid := by
  simp [State.keyValid]
@[simp] theorem setHValid_hValid (s : State) (b : Bool) :
    (s.setHValid b).hValid = b := by
  simp [State.hValid]
@[simp] theorem setHValid_klen (s : State) (b : Bool) :
    (s.setHValid b).klen = s.klen := by
  simp [State.klen]
@[simp] theorem setHValid_err (s : State) (b : Bool) :
    (s.setHValid b).err = s.err := by
  simp [State.err]
@[simp] theorem setHValid_esticky (s : State) (b : Bool) :
    (s.setHValid b).esticky = s.esticky := by
  simp [State.esticky]

/-! ### `State.setKeyLoaded` -/

@[simp] theorem setKeyLoaded_key (s : State) (nk klen : Nat) :
    (s.setKeyLoaded nk klen).key = s.key := rfl
@[simp] theorem setKeyLoaded_blkIn (s : State) (nk klen : Nat) :
    (s.setKeyLoaded nk klen).blkIn = s.blkIn := rfl
@[simp] theorem setKeyLoaded_blkOut (s : State) (nk klen : Nat) :
    (s.setKeyLoaded nk klen).blkOut = s.blkOut := rfl
@[simp] theorem setKeyLoaded_h (s : State) (nk klen : Nat) :
    (s.setKeyLoaded nk klen).h = s.h := rfl
@[simp] theorem setKeyLoaded_y (s : State) (nk klen : Nat) :
    (s.setKeyLoaded nk klen).y = s.y := rfl
@[simp] theorem setKeyLoaded_nonce (s : State) (nk klen : Nat) :
    (s.setKeyLoaded nk klen).nonce = s.nonce := rfl
@[simp] theorem setKeyLoaded_tagIn (s : State) (nk klen : Nat) :
    (s.setKeyLoaded nk klen).tagIn = s.tagIn := rfl
@[simp] theorem setKeyLoaded_tag (s : State) (nk klen : Nat) :
    (s.setKeyLoaded nk klen).tag = s.tag := rfl
@[simp] theorem setKeyLoaded_status (s : State) (nk klen : Nat) :
    (s.setKeyLoaded nk klen).status = putKlen (putKeyValid s.status true) (BitVec.ofNat 2 klen) := rfl
@[simp] theorem setKeyLoaded_aadLen (s : State) (nk klen : Nat) :
    (s.setKeyLoaded nk klen).aadLen = s.aadLen := rfl
@[simp] theorem setKeyLoaded_inLen (s : State) (nk klen : Nat) :
    (s.setKeyLoaded nk klen).inLen = s.inLen := rfl
@[simp] theorem setKeyLoaded_outLen (s : State) (nk klen : Nat) :
    (s.setKeyLoaded nk klen).outLen = s.outLen := rfl
@[simp] theorem setKeyLoaded_w (s : State) (nk klen : Nat) :
    (s.setKeyLoaded nk klen).w = s.w := rfl
@[simp] theorem setKeyLoaded_dw (s : State) (nk klen : Nat) :
    (s.setKeyLoaded nk klen).dw = s.dw := rfl
@[simp] theorem setKeyLoaded_nk (s : State) (nk klen : Nat) :
    (s.setKeyLoaded nk klen).nk = nk := rfl
@[simp] theorem setKeyLoaded_m (s : State) (nk klen : Nat) :
    (s.setKeyLoaded nk klen).m = s.m := rfl
@[simp] theorem setKeyLoaded_aadBuf (s : State) (nk klen : Nat) :
    (s.setKeyLoaded nk klen).aadBuf = s.aadBuf := rfl
@[simp] theorem setKeyLoaded_inBuf (s : State) (nk klen : Nat) :
    (s.setKeyLoaded nk klen).inBuf = s.inBuf := rfl
@[simp] theorem setKeyLoaded_outBuf (s : State) (nk klen : Nat) :
    (s.setKeyLoaded nk klen).outBuf = s.outBuf := rfl
@[simp] theorem setKeyLoaded_script (s : State) (nk klen : Nat) :
    (s.setKeyLoaded nk klen).script = s.script := rfl
@[simp] theorem setKeyLoaded_answer (s : State) (nk klen : Nat) :
    (s.setKeyLoaded nk klen).answer = s.answer := rfl

@[simp] theorem setKeyLoaded_keyValid (s : State) (nk klen : Nat) :
    (s.setKeyLoaded nk klen).keyValid = true := by
  simp [State.keyValid]
@[simp] theorem setKeyLoaded_hValid (s : State) (nk klen : Nat) :
    (s.setKeyLoaded nk klen).hValid = s.hValid := by
  simp [State.hValid]
@[simp] theorem setKeyLoaded_klen (s : State) (nk klen : Nat) :
    (s.setKeyLoaded nk klen).klen = BitVec.ofNat 2 klen := by
  simp [State.klen]
@[simp] theorem setKeyLoaded_err (s : State) (nk klen : Nat) :
    (s.setKeyLoaded nk klen).err = s.err := by
  simp [State.err]
@[simp] theorem setKeyLoaded_esticky (s : State) (nk klen : Nat) :
    (s.setKeyLoaded nk klen).esticky = s.esticky := by
  simp [State.esticky]

/-! ### `State.putOutput` -/

@[simp] theorem putOutput_key (s : State) (v : List Byte) :
    (s.putOutput v).key = s.key := rfl
@[simp] theorem putOutput_blkIn (s : State) (v : List Byte) :
    (s.putOutput v).blkIn = s.blkIn := rfl
@[simp] theorem putOutput_blkOut (s : State) (v : List Byte) :
    (s.putOutput v).blkOut = s.blkOut := rfl
@[simp] theorem putOutput_h (s : State) (v : List Byte) :
    (s.putOutput v).h = s.h := rfl
@[simp] theorem putOutput_y (s : State) (v : List Byte) :
    (s.putOutput v).y = s.y := rfl
@[simp] theorem putOutput_nonce (s : State) (v : List Byte) :
    (s.putOutput v).nonce = s.nonce := rfl
@[simp] theorem putOutput_tagIn (s : State) (v : List Byte) :
    (s.putOutput v).tagIn = s.tagIn := rfl
@[simp] theorem putOutput_tag (s : State) (v : List Byte) :
    (s.putOutput v).tag = s.tag := rfl
@[simp] theorem putOutput_status (s : State) (v : List Byte) :
    (s.putOutput v).status = s.status := rfl
@[simp] theorem putOutput_aadLen (s : State) (v : List Byte) :
    (s.putOutput v).aadLen = s.aadLen := rfl
@[simp] theorem putOutput_inLen (s : State) (v : List Byte) :
    (s.putOutput v).inLen = s.inLen := rfl
@[simp] theorem putOutput_outLen (s : State) (v : List Byte) :
    (s.putOutput v).outLen = BitVec.ofNat 32 v.length := rfl
@[simp] theorem putOutput_w (s : State) (v : List Byte) :
    (s.putOutput v).w = s.w := rfl
@[simp] theorem putOutput_dw (s : State) (v : List Byte) :
    (s.putOutput v).dw = s.dw := rfl
@[simp] theorem putOutput_nk (s : State) (v : List Byte) :
    (s.putOutput v).nk = s.nk := rfl
@[simp] theorem putOutput_m (s : State) (v : List Byte) :
    (s.putOutput v).m = s.m := rfl
@[simp] theorem putOutput_aadBuf (s : State) (v : List Byte) :
    (s.putOutput v).aadBuf = s.aadBuf := rfl
@[simp] theorem putOutput_inBuf (s : State) (v : List Byte) :
    (s.putOutput v).inBuf = s.inBuf := rfl
@[simp] theorem putOutput_outBuf (s : State) (v : List Byte) :
    (s.putOutput v).outBuf = memWrite s.outBuf 0 v := rfl
@[simp] theorem putOutput_script (s : State) (v : List Byte) :
    (s.putOutput v).script = s.script := rfl
@[simp] theorem putOutput_answer (s : State) (v : List Byte) :
    (s.putOutput v).answer = s.answer := rfl

@[simp] theorem putOutput_keyValid (s : State) (v : List Byte) :
    (s.putOutput v).keyValid = s.keyValid := rfl
@[simp] theorem putOutput_hValid (s : State) (v : List Byte) :
    (s.putOutput v).hValid = s.hValid := rfl
@[simp] theorem putOutput_klen (s : State) (v : List Byte) :
    (s.putOutput v).klen = s.klen := rfl
@[simp] theorem putOutput_err (s : State) (v : List Byte) :
    (s.putOutput v).err = s.err := rfl
@[simp] theorem putOutput_esticky (s : State) (v : List Byte) :
    (s.putOutput v).esticky = s.esticky := rfl

/-! ### `State.putGcm` -/

@[simp] theorem putGcm_key (s : State) (c : List Byte) :
    (s.putGcm c).key = s.key := rfl
@[simp] theorem putGcm_blkIn (s : State) (c : List Byte) :
    (s.putGcm c).blkIn = s.blkIn := rfl
@[simp] theorem putGcm_blkOut (s : State) (c : List Byte) :
    (s.putGcm c).blkOut = s.blkOut := rfl
@[simp] theorem putGcm_h (s : State) (c : List Byte) :
    (s.putGcm c).h = s.subkey := rfl
@[simp] theorem putGcm_y (s : State) (c : List Byte) :
    (s.putGcm c).y = s.gcmHash c := by rw [State.putGcm, setHValid_y]
@[simp] theorem putGcm_nonce (s : State) (c : List Byte) :
    (s.putGcm c).nonce = s.nonce := rfl
@[simp] theorem putGcm_tagIn (s : State) (c : List Byte) :
    (s.putGcm c).tagIn = s.tagIn := rfl
@[simp] theorem putGcm_tag (s : State) (c : List Byte) :
    (s.putGcm c).tag = s.tag := rfl
@[simp] theorem putGcm_status (s : State) (c : List Byte) :
    (s.putGcm c).status = putHValid s.status true := rfl
@[simp] theorem putGcm_aadLen (s : State) (c : List Byte) :
    (s.putGcm c).aadLen = s.aadLen := rfl
@[simp] theorem putGcm_inLen (s : State) (c : List Byte) :
    (s.putGcm c).inLen = s.inLen := rfl
@[simp] theorem putGcm_outLen (s : State) (c : List Byte) :
    (s.putGcm c).outLen = s.outLen := rfl
@[simp] theorem putGcm_w (s : State) (c : List Byte) :
    (s.putGcm c).w = s.w := rfl
@[simp] theorem putGcm_dw (s : State) (c : List Byte) :
    (s.putGcm c).dw = s.dw := rfl
@[simp] theorem putGcm_nk (s : State) (c : List Byte) :
    (s.putGcm c).nk = s.nk := rfl
@[simp] theorem putGcm_m (s : State) (c : List Byte) :
    (s.putGcm c).m = buildTable s.subkey := rfl
@[simp] theorem putGcm_aadBuf (s : State) (c : List Byte) :
    (s.putGcm c).aadBuf = s.aadBuf := rfl
@[simp] theorem putGcm_inBuf (s : State) (c : List Byte) :
    (s.putGcm c).inBuf = s.inBuf := rfl
@[simp] theorem putGcm_outBuf (s : State) (c : List Byte) :
    (s.putGcm c).outBuf = s.outBuf := rfl
@[simp] theorem putGcm_script (s : State) (c : List Byte) :
    (s.putGcm c).script = s.script := rfl
@[simp] theorem putGcm_answer (s : State) (c : List Byte) :
    (s.putGcm c).answer = s.answer := rfl

@[simp] theorem putGcm_keyValid (s : State) (c : List Byte) :
    (s.putGcm c).keyValid = s.keyValid := by
  simp [State.keyValid]
@[simp] theorem putGcm_hValid (s : State) (c : List Byte) :
    (s.putGcm c).hValid = true := by
  simp [State.hValid]
@[simp] theorem putGcm_klen (s : State) (c : List Byte) :
    (s.putGcm c).klen = s.klen := by
  simp [State.klen]
@[simp] theorem putGcm_err (s : State) (c : List Byte) :
    (s.putGcm c).err = s.err := by
  simp [State.err]
@[simp] theorem putGcm_esticky (s : State) (c : List Byte) :
    (s.putGcm c).esticky = s.esticky := by
  simp [State.esticky]

/-! ### `State.answered` -/

@[simp] theorem answered_key (s : State) (a : BusAnswer) :
    (s.answered a).key = s.key := rfl
@[simp] theorem answered_blkIn (s : State) (a : BusAnswer) :
    (s.answered a).blkIn = s.blkIn := rfl
@[simp] theorem answered_blkOut (s : State) (a : BusAnswer) :
    (s.answered a).blkOut = s.blkOut := rfl
@[simp] theorem answered_h (s : State) (a : BusAnswer) :
    (s.answered a).h = s.h := rfl
@[simp] theorem answered_y (s : State) (a : BusAnswer) :
    (s.answered a).y = s.y := rfl
@[simp] theorem answered_nonce (s : State) (a : BusAnswer) :
    (s.answered a).nonce = s.nonce := rfl
@[simp] theorem answered_tagIn (s : State) (a : BusAnswer) :
    (s.answered a).tagIn = s.tagIn := rfl
@[simp] theorem answered_tag (s : State) (a : BusAnswer) :
    (s.answered a).tag = s.tag := rfl
@[simp] theorem answered_status (s : State) (a : BusAnswer) :
    (s.answered a).status = s.status := rfl
@[simp] theorem answered_aadLen (s : State) (a : BusAnswer) :
    (s.answered a).aadLen = s.aadLen := rfl
@[simp] theorem answered_inLen (s : State) (a : BusAnswer) :
    (s.answered a).inLen = s.inLen := rfl
@[simp] theorem answered_outLen (s : State) (a : BusAnswer) :
    (s.answered a).outLen = s.outLen := rfl
@[simp] theorem answered_w (s : State) (a : BusAnswer) :
    (s.answered a).w = s.w := rfl
@[simp] theorem answered_dw (s : State) (a : BusAnswer) :
    (s.answered a).dw = s.dw := rfl
@[simp] theorem answered_nk (s : State) (a : BusAnswer) :
    (s.answered a).nk = s.nk := rfl
@[simp] theorem answered_m (s : State) (a : BusAnswer) :
    (s.answered a).m = s.m := rfl
@[simp] theorem answered_aadBuf (s : State) (a : BusAnswer) :
    (s.answered a).aadBuf = s.aadBuf := rfl
@[simp] theorem answered_inBuf (s : State) (a : BusAnswer) :
    (s.answered a).inBuf = s.inBuf := rfl
@[simp] theorem answered_outBuf (s : State) (a : BusAnswer) :
    (s.answered a).outBuf = s.outBuf := rfl
@[simp] theorem answered_script (s : State) (a : BusAnswer) :
    (s.answered a).script = s.script := rfl
@[simp] theorem answered_answer (s : State) (a : BusAnswer) :
    (s.answered a).answer = some a := rfl

@[simp] theorem answered_keyValid (s : State) (a : BusAnswer) :
    (s.answered a).keyValid = s.keyValid := rfl
@[simp] theorem answered_hValid (s : State) (a : BusAnswer) :
    (s.answered a).hValid = s.hValid := rfl
@[simp] theorem answered_klen (s : State) (a : BusAnswer) :
    (s.answered a).klen = s.klen := rfl
@[simp] theorem answered_err (s : State) (a : BusAnswer) :
    (s.answered a).err = s.err := rfl
@[simp] theorem answered_esticky (s : State) (a : BusAnswer) :
    (s.answered a).esticky = s.esticky := rfl

end Sys2Proof.Machine
end

