-- ==== Sys2Proof/Laws/Ops.lean ====
section
/-! SUPPORT. What each shared operation can do, said once: the checks before a command, the register files, the address
map, and the completion of a command. -/

namespace Sys2Proof.Machine

/-! ### Checks -/

theorem firstFailure_nil : firstFailure [] = none := rfl

theorem firstFailure_cons (p : Bool) (c : ResultCode) (rest : List (Bool × ResultCode)) :
    firstFailure ((p, c) :: rest) = if p then firstFailure rest else some c := rfl

/-- No check fails exactly when every one passes. -/
theorem firstFailure_eq_none {cs : List (Bool × ResultCode)} :
    firstFailure cs = none ↔ ∀ pc ∈ cs, pc.1 = true := by
  induction cs with
  | nil => simp [firstFailure_nil]
  | cons pc cs ih =>
    obtain ⟨p, c⟩ := pc
    cases p <;> simp [firstFailure_cons, ih]

/-- The error of a failed check is the one that check raises. -/
theorem firstFailure_mem {cs : List (Bool × ResultCode)} {c : ResultCode}
    (h : firstFailure cs = some c) : (false, c) ∈ cs := by
  induction cs with
  | nil => exact absurd h (by simp [firstFailure_nil])
  | cons pc cs ih =>
    obtain ⟨p, d⟩ := pc
    cases p
    · simp only [firstFailure_cons, Bool.false_eq_true, if_false, Option.some.injEq] at h
      simp [h]
    · simp only [firstFailure_cons, if_true] at h
      exact List.mem_cons_of_mem _ (ih h)

/-- All a command behind its checks can do: end with the error of the first check that fails, or run
its body. -/
theorem checked_cases {s t : State} {cs : List (Bool × ResultCode)}
    {body : Unit → Host.Outcome State Fault Refusal} (h : s.checked cs body = .next t) :
    (∃ c, firstFailure cs = some c ∧ t = s.raise c) ∨
      (firstFailure cs = none ∧ body () = .next t) := by
  unfold State.checked at h
  split at h
  · rename_i c hc
    injection h with h
    exact .inl ⟨c, hc, h.symm⟩
  · rename_i hc
    exact .inr ⟨hc, h⟩

theorem checked_fails (s : State) {cs : List (Bool × ResultCode)} {c : ResultCode}
    (body : Unit → Host.Outcome State Fault Refusal) (h : firstFailure cs = some c) :
    s.checked cs body = .next (s.raise c) := by
  unfold State.checked
  rw [h]

theorem checked_passes (s : State) {cs : List (Bool × ResultCode)}
    (body : Unit → Host.Outcome State Fault Refusal) (h : ∀ pc ∈ cs, pc.1 = true) :
    s.checked cs body = body () := by
  unfold State.checked
  rw [firstFailure_eq_none.2 h]

theorem checked_nil (s : State) (body : Unit → Host.Outcome State Fault Refusal) :
    s.checked [] body = body () := rfl

/-- One check of the list: passed, the rest decide; failed, the command ends with its error. -/
theorem checked_cons (s : State) (p : Bool) (c : ResultCode) (rest : List (Bool × ResultCode))
    (body : Unit → Host.Outcome State Fault Refusal) :
    s.checked ((p, c) :: rest) body = if p then s.checked rest body else .next (s.raise c) := by
  cases p <;> rfl

/-! ### Register files -/

/-- The words of a register file after its first words are loaded (10_state.md R33). -/
theorem getElem_loadFile (f : KeyFile) (ws : List (Bytes 4)) (i : Nat) (hi : i < 60) :
    (loadFile f ws)[i] = if i < ws.length then ws.getD i 0 else f[i] := by
  simp [loadFile]

theorem take_loadFile (f : KeyFile) {ws : List (Bytes 4)} (h : ws.length ≤ 60) :
    (loadFile f ws).toList.take ws.length = ws := by
  refine List.ext_getElem (by simp [h]) fun i h1 h2 => ?_
  have h60 : i < 60 := by omega
  have := getElem_loadFile f ws i h60
  simp [this, h2]

/-! ### The address map -/

theorem holdsWord_iff {off : Nat} {l : Loc} :
    holdsWord off l = true ↔ locOffset l ≤ off ∧ off - locOffset l + 4 ≤ locSize l := by
  simp [holdsWord]

theorem mem_addressMap (l : Loc) : l ∈ addressMap := by cases l <;> decide

/-- The place of a location in the map by its rank: no two locations overlap (20_memory.md R61). -/
theorem holdsWord_unique {off : Nat} {l l' : Loc} (h : holdsWord off l = true)
    (h' : holdsWord off l' = true) : l = l' := by
  rw [holdsWord_iff] at h h'
  have hb := Config.bufMax_le
  cases l <;> cases l' <;> first
    | rfl
    | (simp only [locOffset, locSize] at h h'; omega)

/-- All a located access can be: aligned, and inside the location (R62, R66). -/
theorem locate_eq_some {off : Nat} {l : Loc} :
    locate off = some l ↔
      off % 4 = 0 ∧ locOffset l ≤ off ∧ off - locOffset l + 4 ≤ locSize l := by
  unfold locate
  constructor
  · intro h
    split at h
    · rename_i ha
      exact ⟨ha, holdsWord_iff.1 (List.find?_some h)⟩
    · exact absurd h (by simp)
  · rintro ⟨ha, hl⟩
    rw [if_pos ha]
    have hl' := holdsWord_iff.2 hl
    cases hf : addressMap.find? (holdsWord off) with
    | none => exact absurd hl' (by simpa using List.find?_eq_none.1 hf l (mem_addressMap l))
    | some l' => rw [holdsWord_unique hl' (List.find?_some hf)]

/-- An access that reaches no location: misaligned, or inside none (R69). -/
theorem locate_eq_none {off : Nat} :
    locate off = none ↔
      off % 4 ≠ 0 ∨ ∀ l, ¬ (locOffset l ≤ off ∧ off - locOffset l + 4 ≤ locSize l) := by
  constructor
  · intro h
    by_cases ha : off % 4 = 0
    · refine .inr fun l hl => ?_
      rw [locate_eq_some.2 ⟨ha, hl⟩] at h
      exact absurd h (by simp)
    · exact .inl ha
  · intro h
    cases hl : locate off with
    | none => rfl
    | some l =>
      have := locate_eq_some.1 hl
      rcases h with h | h
      · exact absurd this.1 h
      · exact absurd this.2 (h l)

/-- Every located access lies in the window the block decodes (R61). -/
theorem lt_windowSize_of_locate {off : Nat} {l : Loc} (h : locate off = some l) :
    off < Config.windowSize := by
  have h := locate_eq_some.1 h
  have hb := Config.bufMax_le
  unfold Config.windowSize
  cases l <;> simp only [locOffset, locSize] at h <;> omega

@[simp] theorem locate_cmd : locate (locOffset .cmd) = some .cmd := rfl

/-! ### Completion of a command -/

theorem completed_eq_next {o : Host.Outcome State Fault Refusal} {t : State} :
    completed o = .next t ↔ ∃ s, o = .next s ∧ t = s.answered .done := by
  cases o with
  | next s =>
    simp only [completed, Host.Outcome.next.injEq]
    exact ⟨fun h => ⟨s, rfl, h.symm⟩, fun ⟨_, h1, h2⟩ => by rw [h1, h2]⟩
  | fault r => simp [completed]
  | refused r => simp [completed]

end Sys2Proof.Machine
end

