-- ==== Sys2Proof/Laws/Commands.lean ====
section
/-! SUPPORT. Each command with its checks written out as one equation, so that no proof unfolds `State.checked`;
and that no operand depends on `OUTBUF`. -/

namespace Sys2Proof.Machine

theorem execAesKeyexp_eq {klen : Nat} (h : klen < 3) (s : State) :
    execAesKeyexp klen s =
      .next (({ s with
        w := loadFile s.w (keyExpansion (4 + 2 * klen) (s.keyOperand (4 + 2 * klen))),
        dw := loadFile s.dw (decKeySchedule (keyExpansion (4 + 2 * klen)
          (s.keyOperand (4 + 2 * klen))) (4 + 2 * klen + 6)) }.setKeyLoaded (4 + 2 * klen) klen).succeed) := by
  simp only [execAesKeyexp, keyWords?, if_pos h]

theorem execAesKeyexp_reserved {klen : Nat} (h : ¬ klen < 3) (s : State) :
    execAesKeyexp klen s = .next (s.raise .config) := by
  simp only [execAesKeyexp, keyWords?, if_neg h]

theorem execAesEnc_eq (s : State) :
    execAesEnc s = if s.keyValid then .next { s with blkOut := s.encBlock s.blkIn }.succeed
      else .next (s.raise .config) := by
  simp only [execAesEnc, State.keyCheck, checked_cons, checked_nil]

theorem execAesDec_eq (s : State) :
    execAesDec s = if s.keyValid then .next { s with blkOut := s.decBlock s.blkIn }.succeed
      else .next (s.raise .config) := by
  simp only [execAesDec, State.keyCheck, checked_cons, checked_nil]

theorem execGhMulh_eq (s : State) :
    execGhMulh s = if s.hValid then .next { s with y := mulH s.m s.y }.succeed
      else .next (s.raise .config) := by
  simp only [execGhMulh, State.tableCheck, checked_cons, checked_nil]

theorem execGhHash_eq (s : State) :
    execGhHash s = if s.hValid then
        if s.lengthsOk then
          .next { s with y := ghashWith (mulH s.m) s.aadOperand s.dataOperand }.succeed
        else .next (s.raise .length)
      else .next (s.raise .config) := by
  simp only [execGhHash, State.tableCheck, State.lengthCheck, checked_cons, checked_nil]

theorem execGcmSeal_eq (s : State) :
    execGcmSeal s = if s.keyValid then
        if s.lengthsOk then
          .next ({ (s.putGcm (s.ctr s.dataOperand)).putOutput (s.ctr s.dataOperand) with
            tag := s.gcmTag (s.ctr s.dataOperand) }.succeed)
        else .next (s.raise .length)
      else .next (s.raise .config) := by
  simp only [execGcmSeal, State.keyCheck, State.lengthCheck, checked_cons, checked_nil]

theorem execGcmOpen_eq (s : State) :
    execGcmOpen s = if s.keyValid then
        if s.lengthsOk then
          if s.gcmTag s.dataOperand = s.tagIn then
            .next ((s.putGcm s.dataOperand).putOutput (s.ctr s.dataOperand)).succeed
          else .next ((s.putGcm s.dataOperand).raiseOutcome .authFailed)
        else .next (s.raise .length)
      else .next (s.raise .config) := by
  simp only [execGcmOpen, State.keyCheck, State.lengthCheck, checked_cons, checked_nil]

theorem execKwWrap_eq (s : State) :
    execKwWrap s = if s.keyValid then
        if s.wrapLengthOk then .next (s.putOutput (kwWrap s.encBlock s.dataOperand)).succeed
        else .next (s.raise .length)
      else .next (s.raise .config) := by
  simp only [execKwWrap, State.keyCheck, State.wrapCheck, checked_cons, checked_nil]

theorem execKwUnwrap_eq (s : State) :
    execKwUnwrap s = if s.keyValid then
        if s.unwrapLengthOk then
          if (kwUnwrap s.decBlock s.dataOperand).1 = integrityVector then
            .next (s.putOutput (kwUnwrap s.decBlock s.dataOperand).2).succeed
          else .next (s.raiseOutcome .keyUnwrapFailed)
        else .next (s.raise .length)
      else .next (s.raise .config) := by
  simp only [execKwUnwrap, State.keyCheck, State.unwrapCheck, checked_cons, checked_nil]

/-! ### No operand depends on `OUTBUF` (20_memory.md R71) -/

theorem encBlock_withOutBuf (s : State) (o : Memory) :
    State.encBlock { s with outBuf := o } = s.encBlock := rfl

theorem decBlock_withOutBuf (s : State) (o : Memory) :
    State.decBlock { s with outBuf := o } = s.decBlock := rfl

theorem aadOperand_withOutBuf (s : State) (o : Memory) :
    State.aadOperand { s with outBuf := o } = s.aadOperand := rfl

theorem dataOperand_withOutBuf (s : State) (o : Memory) :
    State.dataOperand { s with outBuf := o } = s.dataOperand := rfl

theorem ctr_withOutBuf (s : State) (o : Memory) : State.ctr { s with outBuf := o } = s.ctr := by
  funext d; simp only [State.ctr, encBlock_withOutBuf]

theorem gcmHash_withOutBuf (s : State) (o : Memory) :
    State.gcmHash { s with outBuf := o } = s.gcmHash := by
  funext d; simp only [State.gcmHash, State.subkey, encBlock_withOutBuf, aadOperand_withOutBuf]

theorem gcmTag_withOutBuf (s : State) (o : Memory) :
    State.gcmTag { s with outBuf := o } = s.gcmTag := by
  funext d; simp only [State.gcmTag, encBlock_withOutBuf, gcmHash_withOutBuf]

theorem putGcm_withOutBuf (s : State) (o : Memory) (c : List Byte) :
    State.putGcm { s with outBuf := o } c = { s.putGcm c with outBuf := o } := by
  simp only [State.putGcm, State.setHValid, State.withStatus, State.subkey, encBlock_withOutBuf,
    gcmHash_withOutBuf]

theorem putOutput_withOutBuf (s : State) (o : Memory) (v : List Byte) :
    State.putOutput { s with outBuf := o } v =
      { s.putOutput v with outBuf := memWrite o 0 v } := rfl

theorem raise_withOutBuf (s : State) (o : Memory) (c : ResultCode) :
    State.raise { s with outBuf := o } c = { s.raise c with outBuf := o } := rfl

theorem raiseOutcome_withOutBuf (s : State) (o : Memory) (c : ResultCode) :
    State.raiseOutcome { s with outBuf := o } c = s.raiseOutcome c := rfl

end Sys2Proof.Machine
end

