-- ==== Sys2Proof/Laws/PerInstr.lean ====
section
/-! SUPPORT. One family of statements per command: the word the encoder writes lies in the command's own row of the
opcode map (30_encoding.md R94). -/

namespace Sys2Proof.Laws.EncodesInRow

/-- The `match` and `mask` of each command's row (R94). -/
def row : Instr → Word × Word
  | .nop => (0x00000000, 0xFFFFFFFF)
  | .aesKeyexp _ => (0x00000001, 0xFFFFFCFF)
  | .aesEnc => (0x00000002, 0xFFFFFFFF)
  | .aesDec => (0x00000003, 0xFFFFFFFF)
  | .ghLoadh => (0x00000010, 0xFFFFFFFF)
  | .ghMulh => (0x00000011, 0xFFFFFFFF)
  | .ghHash => (0x00000012, 0xFFFFFFFF)
  | .gcmSeal => (0x00000020, 0xFFFFFFFF)
  | .gcmOpen => (0x00000021, 0xFFFFFFFF)
  | .kwWrap => (0x00000030, 0xFFFFFFFF)
  | .kwUnwrap => (0x00000031, 0xFFFFFFFF)

/-- A well-formed command's word selects the command's row and carries its `KLEN`. -/
def Statement (i : Instr) : Prop :=
  i.wellFormed = true → encode i &&& (row i).2 = (row i).1 ∧
    ∀ klen, i = .aesKeyexp klen → klenField (encode i) = klen

theorem nop : Statement .nop := fun _ => ⟨by decide, fun _ h => nomatch h⟩

theorem aesKeyexp (klen : Nat) : Statement (.aesKeyexp klen) := by
  intro h
  have hk : klen ≤ 3 := by simpa [Instr.wellFormed] using h
  interval_cases klen <;> exact ⟨by decide, fun k hk => by cases hk; decide⟩

theorem aesEnc : Statement .aesEnc := fun _ => ⟨by decide, fun _ h => nomatch h⟩

theorem aesDec : Statement .aesDec := fun _ => ⟨by decide, fun _ h => nomatch h⟩

theorem ghLoadh : Statement .ghLoadh := fun _ => ⟨by decide, fun _ h => nomatch h⟩

theorem ghMulh : Statement .ghMulh := fun _ => ⟨by decide, fun _ h => nomatch h⟩

theorem ghHash : Statement .ghHash := fun _ => ⟨by decide, fun _ h => nomatch h⟩

theorem gcmSeal : Statement .gcmSeal := fun _ => ⟨by decide, fun _ h => nomatch h⟩

theorem gcmOpen : Statement .gcmOpen := fun _ => ⟨by decide, fun _ h => nomatch h⟩

theorem kwWrap : Statement .kwWrap := fun _ => ⟨by decide, fun _ h => nomatch h⟩

theorem kwUnwrap : Statement .kwUnwrap := fun _ => ⟨by decide, fun _ h => nomatch h⟩

end Sys2Proof.Laws.EncodesInRow
end

