-- ==== Sys2Proof/Laws/Step.lean ====
section
/-! SUPPORT. What one step can do, said once, and the fields of STATUS as one structure. -/

namespace Sys2Proof.Machine

/-! ### STATUS taken apart -/

theorem statusFields_eq (st : Word) : statusFields st =
    ⟨keyValidOf st, hValidOf st, klenOf st, errOf st, estickyOf st, reservedOf st⟩ := rfl

@[simp] theorem statusFields_statusOk (st : Word) :
    statusFields (statusOk st) = { statusFields st with err := 0 } := by simp [statusFields_eq]

@[simp] theorem statusFields_statusError (st : Word) (c : ResultCode) :
    statusFields (statusError st c) =
      { statusFields st with err := errValue c, esticky := true } := by simp [statusFields_eq]

@[simp] theorem statusFields_putHValid (st : Word) (b : Bool) :
    statusFields (putHValid st b) = { statusFields st with hValid := b } := by simp [statusFields_eq]

@[simp] theorem statusFields_putKeyValid (st : Word) (b : Bool) :
    statusFields (putKeyValid st b) = { statusFields st with keyValid := b } := by
  simp [statusFields_eq]

@[simp] theorem statusFields_putKlen (st : Word) (v : BitVec 2) :
    statusFields (putKlen st v) = { statusFields st with klen := v } := by simp [statusFields_eq]

/-! ### One step -/

theorem step_read {s : State} {off : Nat} {rest : List HostEvent} (h : s.script = .read32 off :: rest)
    (ho : off < Config.windowSize) :
    step s = .next { s with script := rest, answer := some (hostRead32 s off) } := by
  simp only [step, advance, h, perform, if_pos ho, hostRead32, State.answered]
  split <;> rfl

theorem step_write {s : State} {off : Nat} {v : Word} {rest : List HostEvent}
    (h : s.script = .write32 off v :: rest) (ho : off < Config.windowSize) :
    step s = hostWrite32 { s with script := rest } off v := by
  simp only [step, advance, h, perform, if_pos ho]

/-- What a step that answers a next state has done: nothing, a reset, a read, a bus error, a write to
a location that is not `CMD`, or a write to `CMD`. -/
theorem step_cases {s t : State} (h : step s = .next t) :
    (s.script = [] ∧ t = s) ∨
    (∃ rest, s.script = .reset :: rest ∧ t = { State.reset with script := rest }) ∨
    (∃ off rest, s.script = .read32 off :: rest ∧ off < Config.windowSize ∧
      t = { s with script := rest, answer := some (hostRead32 s off) }) ∨
    (∃ off v rest, s.script = .write32 off v :: rest ∧ off < Config.windowSize ∧
      locate off = none ∧ t = { s with script := rest, answer := some .busError }) ∨
    (∃ off v rest l, s.script = .write32 off v :: rest ∧ locate off = some l ∧ l ≠ .cmd ∧
      t = { locStore s l (off - locOffset l) v with script := rest, answer := some .done }) ∨
    (∃ v rest u, s.script = .write32 (locOffset .cmd) v :: rest ∧
      command v { s with script := rest } = .next u ∧ t = u.answered .done) := by
  cases hs : s.script with
  | nil =>
    simp only [step, advance, hs, Host.Outcome.next.injEq] at h
    exact .inl ⟨rfl, h.symm⟩
  | cons e rest =>
    right
    cases e with
    | reset =>
      simp only [step, advance, hs, perform, Host.Outcome.next.injEq] at h
      exact .inl ⟨rest, rfl, h.symm⟩
    | otherWidth b => simp [step, advance, hs, perform] at h
    | read32 off =>
      by_cases ho : off < Config.windowSize
      · rw [step_read hs ho, Host.Outcome.next.injEq] at h
        exact .inr (.inl ⟨off, rest, rfl, ho, h.symm⟩)
      · simp [step, advance, hs, perform, ho] at h
    | write32 off v =>
      by_cases ho : off < Config.windowSize
      · rw [step_write hs ho, hostWrite32] at h
        refine .inr (.inr ?_)
        cases hl : locate off with
        | none =>
          rw [hl, Host.Outcome.next.injEq] at h
          exact .inl ⟨off, v, rest, rfl, ho, hl, h.symm⟩
        | some l =>
          rw [hl] at h
          by_cases hc : l = .cmd
          · subst hc
            have hh := locate_eq_some.1 hl
            have h0 : off = locOffset .cmd := by simp only [locOffset, locSize] at hh ⊢; omega
            obtain ⟨u, hu, rfl⟩ := completed_eq_next.1 h
            exact .inr (.inr ⟨v, rest, u, by rw [h0], hu, rfl⟩)
          · refine .inr (.inl ⟨off, v, rest, l, rfl, hl, hc, ?_⟩)
            cases l <;> first
              | exact absurd rfl hc
              | (injection h with h; exact h.symm)
      · simp [step, advance, hs, perform, ho] at h

end Sys2Proof.Machine
end

