-- ==== Sys2Proof/Machine/Dlms.lean ====
section
/-! DEFINITION. Host conventions: how the surrounding software uses the GCM commands (42_gcm.md section 6, R180 to R182).
They are behaviour of the host and not of the block; no meaning depends on them. -/

namespace Sys2Proof.Machine

/-- The security levels of R181; DIGITALLY_SIGNED uses no command of this block. -/
inductive SecurityLevel where
  | authentication
  | encryption
  | authenticationEncryption
  | digitallySigned
deriving DecidableEq, Repr

/-- The level's bits of the security control byte: bit 4 authentication, bit 5 encryption, bit 6
digitally signed (R180; 90_conflicts.md C7). -/
def levelBits : SecurityLevel → Byte
  | .authentication => 0x10
  | .encryption => 0x20
  | .authenticationEncryption => 0x30
  | .digitallySigned => 0x40

/-- The security control byte `SC`: the level's bits and the suite id in bits 1:0 (R180). -/
def securityControlByte (l : SecurityLevel) (suite : BitVec 2) : Byte :=
  levelBits l ||| suite.setWidth 8

/-- What the host loads into `AADBUF` for a level, or none where GCM is not used (R181). -/
def levelAad (l : SecurityLevel) (suite : BitVec 2) (ak : Bytes 16) (plain : List Byte) :
    Option (List Byte) :=
  match l with
  | .authentication => some (securityControlByte l suite :: toList ak ++ plain)
  | .encryption => some (toList ak)
  | .authenticationEncryption => some (securityControlByte l suite :: toList ak)
  | .digitallySigned => none

/-- What the host loads into `INBUF` for a level (R181). -/
def levelData (l : SecurityLevel) (plain : List Byte) : Option (List Byte) :=
  match l with
  | .authentication => some []
  | .encryption => some plain
  | .authenticationEncryption => some plain
  | .digitallySigned => none

/-- What the host sends after GCM.SEAL, from the plaintext and the block's output and tag (R181). -/
def levelSends (l : SecurityLevel) (plain out : List Byte) (tag : Bytes 12) : Option (List Byte) :=
  match l with
  | .authentication => some (plain ++ toList tag)
  | .encryption => some out
  | .authenticationEncryption => some (out ++ toList tag)
  | .digitallySigned => none

/-- The host script that seals a message at a level: nonce, AAD, data, then GCM.SEAL (R181, R252). -/
def sealScript (l : SecurityLevel) (suite : BitVec 2) (ak : Bytes 16) (nonce : Bytes 12)
    (plain : List Byte) : Option (List Stmt) :=
  match levelAad l suite ak plain, levelData l plain with
  | some aad, some data =>
    some [.ldb (.named .nonce 0) (toList nonce), .ldaad aad, .ldin data, .cmd .gcmSeal]
  | _, _ => none

/-- The GMAC challenge response `SC ‖ NONCE[8..12) ‖ TAG` (R182). -/
def gmacResponse (suite : BitVec 2) (nonce tag : Bytes 12) : List Byte :=
  securityControlByte .authentication suite :: toList (slice nonce 8 4) ++ toList tag

end Sys2Proof.Machine
end

