-- ==== Sys2Proof/Tests/Slice0.lean ====
section
/-! SUPPORT. Tests: expected values come from the worked examples of spec/, each named beside its test; and, for each
obligation that has hypotheses, a witness: states and operands that meet them. -/

namespace Sys2Proof.Tests

open Sys2Proof Sys2Proof.Machine Sys2Proof.Claims

/-! ### Well-formedness: each check refuses an ill-formed term -/

theorem test_klen_4_is_ill_formed :
    (Instr.aesKeyexp 4).wellFormed = false ∧ (Instr.aesKeyexp 3).wellFormed = true := by decide

theorem test_read_beyond_window_is_ill_formed :
    (HostEvent.read32 0x40000).wellFormed = false ∧ (HostEvent.read32 0x3FFFF).wellFormed = true := by
  decide

theorem test_write_beyond_window_is_ill_formed :
    (HostEvent.write32 0x40000 0).wellFormed = false ∧
      (HostEvent.write32 0x3FFFF 0).wellFormed = true := by decide

theorem test_byte_access_is_ill_formed : (HostEvent.otherWidth 8).wellFormed = false := by decide

theorem test_ill_formed_script : scriptOk [.reset, .otherWidth 16] = false := by decide

theorem test_ill_formed_statements :
    stmtOk (.wr (.named .key 2) 0) = false ∧ stmtOk (.rd (.named .key 2)) = false ∧
      stmtOk (.cmd (.aesKeyexp 4)) = false ∧ stmtOk (.ldb (.named .inBuf 1) []) = false ∧
      stmtOk (.ldkey [0]) = false ∧ stmtOk (.rdb (.named .outBuf 3) 1) = false ∧
      stmtOk (.rd (.named .key 4)) = true := by decide

/-! ### Decoding: each command's word written out from 30_encoding.md R91, R92 and R94 -/

theorem test_decode_nop : decode 0b00000000000000000000000000000000 = .ok .nop := rfl

theorem test_decode_keyexp :
    decode 0b00000000000000000000000000000001 = .ok (.aesKeyexp 0) ∧
      decode 0b00000000000000000000000100000001 = .ok (.aesKeyexp 1) ∧
      decode 0b00000000000000000000001000000001 = .ok (.aesKeyexp 2) ∧
      decode 0b00000000000000000000001100000001 = .ok (.aesKeyexp 3) := ⟨rfl, rfl, rfl, rfl⟩

theorem test_decode_aes :
    decode 0b00000000000000000000000000000010 = .ok .aesEnc ∧
      decode 0b00000000000000000000000000000011 = .ok .aesDec := ⟨rfl, rfl⟩

theorem test_decode_ghash :
    decode 0b00000000000000000000000000010000 = .ok .ghLoadh ∧
      decode 0b00000000000000000000000000010001 = .ok .ghMulh ∧
      decode 0b00000000000000000000000000010010 = .ok .ghHash := ⟨rfl, rfl, rfl⟩

theorem test_decode_gcm :
    decode 0b00000000000000000000000000100000 = .ok .gcmSeal ∧
      decode 0b00000000000000000000000000100001 = .ok .gcmOpen := ⟨rfl, rfl⟩

theorem test_decode_keywrap :
    decode 0b00000000000000000000000000110000 = .ok .kwWrap ∧
      decode 0b00000000000000000000000000110001 = .ok .kwUnwrap := ⟨rfl, rfl⟩

/-- R95: an unassigned opcode, bit 10 beside AES.KEYEXP, bit 8 beside KW.WRAP. -/
theorem test_decode_illegal :
    decode 0b00000000000000000000000000000100 = .error (.unassignedOpcode 0x04) ∧
      decode 0b00000000000000000000010000000001 = .error (.reservedBits 0x01) ∧
      decode 0b00000000000000000000000100110000 = .error (.reservedBits 0x30) := ⟨rfl, rfl, rfl⟩

theorem test_decode_table_word :
    decodeTableWord 32 0x00000201 = some (.aesKeyexp 2) ∧ decodeTableWord 32 0x00000401 = none :=
  ⟨rfl, rfl⟩

/-! ### Small states -/

/-- The next state, or the reset state where there is none. -/
def after (o : Host.Outcome State Fault Refusal) : State :=
  match o with
  | .next t => t
  | .fault _ => State.reset
  | .refused _ => State.reset

/-- Whether there is a next state. -/
def runs (o : Host.Outcome State Fault Refusal) : Bool :=
  match o with
  | .next _ => true
  | .fault _ => false
  | .refused _ => false

theorem next_after {o : Host.Outcome State Fault Refusal} (h : runs o = true) :
    o = .next (after o) := by
  cases o with
  | next t => rfl
  | fault r => cases h
  | refused r => cases h

/-- Reset, with the key of 40_aes.md R140's example in `KEY`. -/
def staged : State :=
  { State.reset with key := (0x000102030405060708090a0b0c0d0e0f : Bytes 16) ++ (0 : Bytes 16) }

/-- That key expanded. -/
def keyed : State := after (exec (.aesKeyexp 0) staged)

/-- `H` of 41_ghash.md R160's example, its table built. -/
def tabled : State := after (exec .ghLoadh { State.reset with h := 0x66e94bd4ef8a2c3b884cfa59ca342b2e })

/-- A buffer that starts with these bytes. -/
def filled {n : Nat} (x : Bytes n) : Memory := memWrite [] 0 (toList x)

/-- The inputs of 42_gcm.md R176's example. -/
def sealIn : State :=
  { keyed with
    nonce := 0x4D4D4D0000BC614E01234567
    aadBuf := filled (n := 17) 0x30D0D1D2D3D4D5D6D7D8D9DADBDCDDDEDF
    aadLen := 17
    inBuf := filled (n := 13) 0xC0010000080000010000FF0200
    inLen := 13 }

/-- The inputs of R177's example, `TAG_IN` given. -/
def openIn (tagIn : Bytes 12) : State :=
  { sealIn with inBuf := filled (n := 13) 0x411312FF935A47566827C467BC, tagIn := tagIn }

/-- The inputs of 43_keywrap.md R196's example. -/
def wrapIn : State :=
  { keyed with inBuf := filled (n := 16) 0x00112233445566778899AABBCCDDEEFF, inLen := 16 }

/-- The inputs of R197's example, with the last byte of the wrapped string given. -/
def unwrapIn (last : Byte) : State :=
  { keyed with
    inBuf := filled (n := 24) ((0x1FA68B0A8112B447AEF34BD8FB5A7B829D3E862371D2CF : Bytes 23) ++ last)
    inLen := 24 }

/-! ### The commands on the spec's own examples -/

/-- 44_system.md R210. -/
theorem test_nop_clears_err :
    (after (exec .nop { State.reset with status := 0x00000131 })).status = 0x00000101 := by decide

/-- 40_aes.md R140. -/
theorem test_keyexp_example :
    keyed.nk = 4 ∧ keyed.w[4] = 0xd6aa74fd ∧ keyed.w[43] = 0x4d2b30c5 ∧ keyed.dw[4] = 0x8c56dff0 ∧
      keyed.status = 0x00000001 := by decide +kernel

/-- 30_encoding.md R96: the reserved `KLEN` ends with CONFIG and `KEY_VALID` remains. -/
theorem test_keyexp_reserved_klen :
    (after (exec (.aesKeyexp 3) keyed)).status = 0x00000131 := by decide +kernel

/-- R141. -/
theorem test_enc_example :
    (after (exec .aesEnc { keyed with blkIn := 0x00112233445566778899aabbccddeeff })).blkOut =
      0x69c4e0d86a7b0430d8cdb78070b4c55a := by decide +kernel

/-- R142. -/
theorem test_dec_example :
    (after (exec .aesDec { keyed with blkIn := 0x69c4e0d86a7b0430d8cdb78070b4c55a })).blkOut =
      0x00112233445566778899aabbccddeeff := by decide +kernel

/-- 41_ghash.md R154, R160. -/
theorem test_loadh_example :
    tabled.m[0][8] = 0x66e94bd4ef8a2c3b884cfa59ca342b2e ∧
      tabled.m[0][1] = 0x9d5d297a9df1458771099f4b39468565 ∧
      tabled.m[31][1] = 0x52a4dcb814e54ae1b2d2402fdc6eb849 ∧ tabled.status = 0x00000002 := by
  decide +kernel

/-- R161. -/
theorem test_mulh_example :
    (after (exec .ghMulh { tabled with y := 0x0388dace60b6a392f328c2b971b2fe78 })).y =
      0x5e2ec746917062882c85b0685353deb7 := by decide +kernel

/-- R162. -/
theorem test_hash_example :
    (after (exec .ghHash
      { tabled with inBuf := filled (n := 16) 0x0388dace60b6a392f328c2b971b2fe78, inLen := 16 })).y =
      0xf38cbb1ad69223dcc3457ae5b6b0f885 := by decide +kernel

/-- 42_gcm.md R176. -/
theorem test_seal_example :
    let t := after (exec .gcmSeal sealIn)
    t.tag = 0x7D825C3BE4A77C3FCC056B6B ∧ t.h = 0xc6a13b37878f5b826f4f8162a1c8d879 ∧
      t.y = 0xac5bf9f2ffe6f066bb7b35aec2f9d2ec ∧ t.outLen = 13 ∧
      t.outBuf = filled (n := 13) 0x411312FF935A47566827C467BC := by decide +kernel

/-- R177: success. -/
theorem test_open_example :
    let t := after (exec .gcmOpen (openIn 0x7D825C3BE4A77C3FCC056B6B))
    t.outBuf = filled (n := 13) 0xC0010000080000010000FF0200 ∧ t.outLen = 13 ∧ t.err = 0 := by
  decide +kernel

/-- R177: the last bit of the tag flipped, an earlier result in `OUTBUF`. -/
theorem test_open_wrong_tag :
    let t := after (exec .gcmOpen
      { openIn 0x7D825C3BE4A77C3FCC056B6A with outBuf := filled (n := 1) 0x11, outLen := 1 })
    t.outBuf = [] ∧ t.outLen = 0 ∧ t.err = 1 ∧ t.esticky = true ∧ t.hValid = true := by
  decide +kernel

/-- 43_keywrap.md R196. -/
theorem test_wrap_example :
    let t := after (exec .kwWrap wrapIn)
    (t.outLen, t.outBuf) =
      (24, filled (n := 24) 0x1FA68B0A8112B447AEF34BD8FB5A7B829D3E862371D2CFE5) := by
  decide +kernel

/-- R197: success, in the recovered `A` and in what it leaves. -/
theorem unwrap_example :
    kwUnwrap (unwrapIn 0xE5).decBlock (unwrapIn 0xE5).dataOperand =
      (0xA6A6A6A6A6A6A6A6, toList (n := 16) 0x00112233445566778899AABBCCDDEEFF) := by decide +kernel

/-- R197: the last byte changed to E4, the recovered `A` being the one of the example. -/
theorem unwrap_corrupted :
    (kwUnwrap (unwrapIn 0xE4).decBlock (unwrapIn 0xE4).dataOperand).1 = 0xecc2839d214839b6 := by
  decide +kernel

/-! ### Tables, the bus and the host's side -/

/-- 40_aes.md R122, R123: check values, and each table the other's inverse. -/
theorem test_sbox :
    sbox 0x00 = 0x63 ∧ sbox 0x53 = 0xED ∧ sbox 0xFF = 0x16 ∧
      (List.range 256).all (fun a =>
        invSbox (sbox (BitVec.ofNat 8 a)) == BitVec.ofNat 8 a) = true := by decide +kernel

/-- 40_aes.md R121, R126. -/
theorem test_mix_columns :
    gmul 0x57 0x83 = 0xC1 ∧ gmul 0x57 0x13 = 0xFE ∧ mixWord 0xdb135345 = 0x8e4da1bc ∧
      invMixWord 0x046681e5 = 0xd4bf5d30 := by decide +kernel

/-- 41_ghash.md R151. -/
theorem test_mulx :
    mulX 0x66e94bd4ef8a2c3b884cfa59ca342b2e = 0x3374a5ea77c5161dc4267d2ce51a1597 ∧
      mulX 1 = 0xe1000000000000000000000000000000 := by decide +kernel

/-- 20_memory.md R64: the first word of the example puts bytes 00 to 03 into `BLK_IN[0..4)`. -/
theorem test_write_lanes :
    (after (step { State.reset with script := [.write32 0x040 0x03020100] })).blkIn =
      0x00010203000000000000000000000000 := by decide +kernel

/-- R69, R70: a misaligned read, a read of `KEY`, and a read of `STATUS`. -/
theorem test_read_answers :
    hostRead32 keyed 0x006 = .busError ∧ hostRead32 keyed 0x020 = .data 0 ∧
      hostRead32 keyed 0x004 = .data 1 := by decide +kernel

/-- 30_encoding.md R102: the accesses of `ldkey`, and how one is written down. -/
theorem test_ldkey_accesses :
    accesses (.ldkey (toList (n := 16) 0x000102030405060708090a0b0c0d0e0f)) =
      [.write32 0x00020 0x03020100, .write32 0x00024 0x07060504, .write32 0x00028 0x0B0A0908,
        .write32 0x0002C 0x0F0E0D0C, .write32 0x00000 0x00000001] ∧
      accessText (.write32 0x00028 0x0B0A0908) = "W 00028 0B0A0908".toList ∧
      accessText (.read32 0x20008) = "R 20008".toList := by decide +kernel

/-- 42_gcm.md R180, R181, R182: the security control bytes of suite 0, the AAD of
AUTHENTICATION_ENCRYPTION in R176's example, and a GMAC response. -/
theorem test_host_conventions :
    securityControlByte .authentication 0 = 0x10 ∧ securityControlByte .encryption 0 = 0x20 ∧
      securityControlByte .authenticationEncryption 0 = 0x30 ∧
      levelAad .authenticationEncryption 0 0xD0D1D2D3D4D5D6D7D8D9DADBDCDDDEDF [] =
        some (toList (n := 17) 0x30D0D1D2D3D4D5D6D7D8D9DADBDCDDDEDF) ∧
      gmacResponse 0 0x4D4D4D0000BC614E01234567 0x7D825C3BE4A77C3FCC056B6B =
        toList (n := 17) 0x10012345677D825C3BE4A77C3FCC056B6B := by decide +kernel

/-- A word placed by `withFetchWord` is run by the very next step. -/
theorem test_fetch_word :
    (after (step (State.reset.withFetchWord 32 0x00000010))).hValid = true := by decide +kernel

/-! ### Witnesses: states that meet the hypotheses of the obligations -/

/-- `keyed` with both lengths at a value. -/
def lengths (s : State) (n : Nat) : State :=
  { s with aadLen := BitVec.ofNat 32 n, inLen := BitVec.ofNat 32 n }

theorem toNat_length {n : Nat} (h : n ≤ 65544) : (BitVec.ofNat 32 n).toNat = n := by
  rw [BitVec.toNat_ofNat]
  omega

theorem keyed_keyValid : keyed.keyValid = true := by decide +kernel

theorem tabled_matches : tabled.hValid = true ∧ tabled.m = buildTable tabled.h :=
  ⟨by decide +kernel, by simp [tabled, exec, execGhLoadh, after]⟩

theorem keyed_schedules : keyed.schedulesMatch :=
  ⟨toList (n := 16) 0x000102030405060708090a0b0c0d0e0f, by decide +kernel⟩

theorem empty_sound : Memory.sound [] := ⟨rfl, fun _ h => nomatch h⟩

/-- The state after AES.KEYEXP satisfies the invariants. -/
theorem keyed_inv : keyed.Inv where
  nkValue := by decide +kernel
  keyValidIff := by decide +kernel
  klenValue := by decide +kernel
  schedules := fun _ => keyed_schedules
  tableMatches := fun h => absurd h (by decide +kernel)
  stickyIfErr := by decide +kernel
  errCode := by decide +kernel
  outLenFits := Nat.zero_le _
  reservedZero := by decide +kernel
  aadSound := empty_sound
  inSound := empty_sound
  outSound := empty_sound

/-- The state after GH.LOADH satisfies them too. -/
theorem tabled_inv : tabled.Inv where
  nkValue := .inl rfl
  keyValidIff := by decide +kernel
  klenValue := by decide +kernel
  schedules := fun h => absurd h (by decide +kernel)
  tableMatches := fun _ => tabled_matches.2
  stickyIfErr := by decide +kernel
  errCode := by decide +kernel
  outLenFits := Nat.zero_le _
  reservedZero := by decide +kernel
  aadSound := empty_sound
  inSound := empty_sound
  outSound := empty_sound

theorem wrapIn_inv : wrapIn.Inv :=
  { keyed_inv with
    inSound := ⟨by decide +kernel, fun c h =>
      lt_of_lt_of_le ((by decide +kernel : ∀ c ∈ wrapIn.inBuf, c.1 < 64) c h) Config.bufMax_ge⟩ }

theorem unwrapIn_fits (x : Byte) :
    (unwrapIn x).keyValid = true ∧ UnwrapLengthFits (unwrapIn x) ∧ (unwrapIn x).outBuf.wf = true :=
  ⟨keyed_keyValid, ⟨(by decide : (24 : Word).toNat % 8 = 0), (by decide : 24 ≤ (24 : Word).toNat),
    le_trans (by decide : (24 : Nat) ≤ 64) Config.bufMax_ge⟩, rfl⟩

theorem unwrapIn_exec (x : Byte) : exec .kwUnwrap (unwrapIn x) =
    if (kwUnwrap (unwrapIn x).decBlock (unwrapIn x).dataOperand).1 = integrityVector then
      .next ((unwrapIn x).putOutput
        (kwUnwrap (unwrapIn x).decBlock (unwrapIn x).dataOperand).2).succeed
    else .next ((unwrapIn x).raiseOutcome .keyUnwrapFailed) := by
  obtain ⟨hk, ⟨h8, h24, hb⟩, _⟩ := unwrapIn_fits x
  have hl : (unwrapIn x).unwrapLengthOk = true := by
    simp only [State.unwrapLengthOk, h8, h24, hb, decide_true, Bool.and_self]
  rw [exec, execKwUnwrap_eq, if_pos hk, if_pos hl]

/-- R197's example as a command: `OUT_LEN` and the code on success, the effects on failure. -/
theorem test_unwrap_command :
    (let t := after (exec .kwUnwrap (unwrapIn 0xE5))
     t.outLen = 16 ∧ t.outBuf = filled (n := 16) 0x00112233445566778899AABBCCDDEEFF ∧ t.err = 0) ∧
    (let t := after (exec .kwUnwrap (unwrapIn 0xE4))
     t.outLen = 0 ∧ t.outBuf = [] ∧ t.err = 2 ∧ t.esticky = true) := by
  rw [unwrapIn_exec, unwrapIn_exec, unwrap_example, unwrap_corrupted]
  decide +kernel

theorem witness_KeyexpBuildsSchedules :
    ((0 : Nat) ≤ 3 ∧ (3 : Nat) ≤ 3) ∧ (0 : Nat) < 3 ∧ (2 : Nat) < 3 := by decide

theorem witness_AesEncEncryptsBlkIn :
    State.reset.keyValid = false ∧ keyed.keyValid = true := ⟨by decide, keyed_keyValid⟩

theorem witness_AesDecDecryptsBlkIn :
    State.reset.keyValid = false ∧ keyed.keyValid = true := ⟨by decide, keyed_keyValid⟩

/-- Both corner values of `Y` among them. -/
theorem witness_MulhMultipliesY :
    State.reset.hValid = false ∧ tabled.hValid = true ∧ tabled.m = buildTable tabled.h ∧
      tabled.y = 0 ∧
      ({ tabled with y := 0x80000000000000000000000000000000 } : State).hValid = true :=
  ⟨by decide, tabled_matches.1, tabled_matches.2, rfl, tabled_matches.1⟩

theorem lengthsFit_bufMax (s : State) : LengthsFit (lengths s Config.bufMax) := by
  have hb := Config.bufMax_le
  simp only [LengthsFit, lengths, toNat_length (n := Config.bufMax) (by omega), le_refl, and_self]

theorem not_lengthsFit_succ (s : State) : ¬ LengthsFit (lengths s (Config.bufMax + 1)) := by
  have hb := Config.bufMax_le
  simp only [LengthsFit, lengths, toNat_length (n := Config.bufMax + 1) (by omega)]
  omega

theorem witness_HashFoldsBuffers :
    State.reset.hValid = false ∧
      ((lengths tabled (Config.bufMax + 1)).hValid = true ∧
        ¬ LengthsFit (lengths tabled (Config.bufMax + 1))) ∧
      ((lengths tabled Config.bufMax).hValid = true ∧ LengthsFit (lengths tabled Config.bufMax) ∧
        (lengths tabled Config.bufMax).m = buildTable (lengths tabled Config.bufMax).h) :=
  ⟨by decide, ⟨tabled_matches.1, not_lengthsFit_succ _⟩,
    ⟨tabled_matches.1, lengthsFit_bufMax _, tabled_matches.2⟩⟩

theorem witness_SealProducesCiphertextAndTag :
    State.reset.keyValid = false ∧
      ((lengths keyed (Config.bufMax + 1)).keyValid = true ∧
        ¬ LengthsFit (lengths keyed (Config.bufMax + 1))) ∧
      ((lengths keyed Config.bufMax).keyValid = true ∧ LengthsFit (lengths keyed Config.bufMax) ∧
        (lengths keyed Config.bufMax).outBuf.wf = true) :=
  ⟨by decide, ⟨keyed_keyValid, not_lengthsFit_succ _⟩, ⟨keyed_keyValid, lengthsFit_bufMax _, rfl⟩⟩

theorem sealIn_fits : sealIn.keyValid = true ∧ LengthsFit sealIn ∧ sealIn.outBuf.wf = true := by
  have hb := Config.bufMax_ge
  refine ⟨keyed_keyValid, ⟨?_, ?_⟩, rfl⟩
  · exact le_trans (by decide : (17 : Nat) ≤ 64) hb
  · exact le_trans (by decide : (13 : Nat) ≤ 64) hb

/-- The preconditions as for GCM.SEAL, a tag that agrees in every byte, and one that does not. -/
theorem witness_OpenVerifiesAndDecrypts :
    (State.reset.keyValid = false ∧ (lengths keyed (Config.bufMax + 1)).keyValid = true ∧
      ¬ LengthsFit (lengths keyed (Config.bufMax + 1))) ∧
    (∀ g, (openIn g).keyValid = true ∧ LengthsFit (openIn g) ∧ (openIn g).outBuf.wf = true) ∧
    (∀ i, i < 12 → byte ((openIn 0).gcmTag (openIn 0).dataOperand) i =
      byte (openIn 0x7D825C3BE4A77C3FCC056B6B).tagIn i) ∧
    ¬ ∀ i, i < 12 → byte ((openIn 0).gcmTag (openIn 0).dataOperand) i =
      byte (openIn 0x7D825C3BE4A77C3FCC056B6A).tagIn i :=
  ⟨⟨by decide, keyed_keyValid, not_lengthsFit_succ _⟩,
    fun _ => ⟨keyed_keyValid, sealIn_fits.2.1, rfl⟩, by decide +kernel, by decide +kernel⟩

/-- `IN_LEN` at both ends of what KW.WRAP accepts, and just beyond each. -/
theorem witness_WrapWritesWrappedKey :
    (State.reset.keyValid = false ∧ ∀ n, (lengths keyed n).keyValid = true) ∧
    ¬ WrapLengthFits (lengths keyed 8) ∧ ¬ WrapLengthFits (lengths keyed 17) ∧
    ¬ WrapLengthFits (lengths keyed Config.bufMax) ∧
    WrapLengthFits (lengths keyed 16) ∧ WrapLengthFits (lengths keyed (Config.bufMax - 8)) ∧
    ∀ n, (lengths keyed n).outBuf.wf = true := by
  have hb := Config.bufMax_le
  have hg := Config.bufMax_ge
  have hm := Config.bufMax_mod
  refine ⟨⟨by decide, fun _ => keyed_keyValid⟩, ?_, ?_, ?_, ?_, ?_, fun _ => rfl⟩ <;>
    simp only [WrapLengthFits, lengths] <;> rw [toNat_length (by omega)] <;> omega

/-- `IN_LEN` at both ends of what KW.UNWRAP accepts and just beyond; then a wrapped string that
verifies and one that does not. -/
theorem witness_UnwrapChecksIntegrity :
    (State.reset.keyValid = false ∧ ∀ n, (lengths keyed n).keyValid = true) ∧
    ¬ UnwrapLengthFits (lengths keyed 16) ∧ ¬ UnwrapLengthFits (lengths keyed (Config.bufMax + 8)) ∧
    UnwrapLengthFits (lengths keyed 24) ∧ UnwrapLengthFits (lengths keyed Config.bufMax) ∧
    (∀ x, (unwrapIn x).keyValid = true ∧ UnwrapLengthFits (unwrapIn x) ∧
      (unwrapIn x).outBuf.wf = true) ∧
    (∀ i, i < 8 →
      byte (kwUnwrap (unwrapIn 0xE5).decBlock (unwrapIn 0xE5).dataOperand).1 i = 0xA6) ∧
    ¬ ∀ i, i < 8 →
      byte (kwUnwrap (unwrapIn 0xE4).decBlock (unwrapIn 0xE4).dataOperand).1 i = 0xA6 := by
  have hb := Config.bufMax_le
  have hg := Config.bufMax_ge
  have hm := Config.bufMax_mod
  refine ⟨⟨by decide, fun _ => keyed_keyValid⟩, ?_, ?_, ?_, ?_,
    unwrapIn_fits, ?_, ?_⟩
  case refine_5 => rw [unwrap_example]; decide
  case refine_6 => rw [unwrap_corrupted]; decide
  all_goals
    simp only [UnwrapLengthFits, lengths] <;> rw [toNat_length (by omega)] <;> omega

/-- One command word for each precondition code. -/
theorem witness_PreconditionErrorsTouchOnlyStatus :
    (∃ t, command 0x00000002 State.reset = .next t ∧ t.err = 3) ∧
    (∃ t, command 0x00000030 keyed = .next t ∧ t.err = 4) ∧
    ∃ t, command 0x00000004 keyed = .next t ∧ t.err = 5 := by
  exact ⟨⟨_, next_after (by decide +kernel), by decide +kernel⟩,
    ⟨_, next_after (by decide +kernel), by decide +kernel⟩,
    ⟨_, next_after (by decide +kernel), by decide +kernel⟩⟩

/-- One command word for each result code. -/
theorem witness_EveryCommandEndsWithOneCode :
    (after (command 0x00000000 keyed)).err = 0 ∧
    (after (command 0x00000021 (openIn 0))).err = 1 ∧
    (after (command 0x00000301 keyed)).err = 3 ∧
    (after (command 0x00000031 keyed)).err = 4 ∧
    (after (command 0x00000130 keyed)).err = 5 ∧
    (after (command 0x00000031 (unwrapIn 0xE4))).err = 2 :=
  ⟨by decide +kernel, by decide +kernel, by decide +kernel, by decide +kernel, by decide +kernel,
    test_unwrap_command.2.2.2.1⟩

/-- One state for each branch of R226, in its order. -/
theorem witness_ChecksAreMadeInOrder :
    decode 0x00000130 = .error (.reservedBits 0x30) ∧ decode 0x00000301 = .ok (.aesKeyexp 3) ∧
    (needsKey .gcmOpen = true ∧ State.reset.keyValid = false) ∧
    (needsTable .ghHash = true ∧ State.reset.hValid = false) ∧
    badLength .gcmSeal (lengths keyed (Config.bufMax + 1)) = true ∧ badLength .kwWrap keyed = true ∧
    badLength .kwUnwrap (lengths keyed 16) = true ∧ badLength .nop keyed = false := by
  refine ⟨rfl, rfl, by decide, by decide, ?_, by decide +kernel, by decide +kernel, by decide⟩
  have hb := Config.bufMax_le
  simp only [badLength, lengths, toNat_length (n := Config.bufMax + 1) (by omega)]
  simp

theorem witness_IllegalWordsExecuteNothing :
    Next { keyed with script := [.write32 0x000 0x00000032] } (.write32 0x000 0x00000032) [] ∧
      ∃ e, decode 0x00000032 = .error e := ⟨rfl, _, rfl⟩

/-- A run of one failing command, and of none. -/
theorem witness_StickyRecordsAnyFailure :
    let s := { State.reset with script := [.write32 0x000 0x00000002] }
    runSteps 0 s = .next s ∧ runSteps 1 s = .next (after (runSteps 1 s)) ∧
      HostEvent.reset ∉ s.script.take 1 ∧ s.script[0]? = some (.write32 0x000 0x00000002) ∧
      (after (runSteps 1 s)).err ≠ 0 :=
  ⟨rfl, next_after (by decide +kernel), by decide, rfl, by decide +kernel⟩

theorem witness_StepRunsDecodedCommand :
    let s := { keyed with script := [.write32 0x000 0x00000000] }
    Next s (.write32 0x000 0x00000000) [] ∧ decode 0x00000000 = .ok .nop ∧
      exec .nop { s with script := [] } = .next (after (exec .nop { s with script := [] })) :=
  ⟨rfl, rfl, next_after (by decide +kernel)⟩

theorem witness_IdleBlockDoesNothing : keyed.script = [] := rfl

/-- A state with a key from which a step runs a command. -/
theorem witness_StepKeepsInvariants :
    let s := { keyed with script := [.write32 0x000 0x00000002] }
    s.Inv ∧ ∃ t, step s = .next t :=
  ⟨{ keyed_inv with }, _, next_after (by decide +kernel)⟩

theorem witness_ResetInputRestoresResetState :
    Next { keyed with script := [.reset, .read32 0x004] } .reset [.read32 0x004] := rfl

theorem witness_FirstCommandAfterReset :
    Instr.aesEnc ∈ [Instr.aesEnc, .aesDec, .gcmSeal, .gcmOpen, .kwWrap, .kwUnwrap, .ghMulh, .ghHash] ∧
      (0 : Nat) ≤ 2 ∧ (2 : Nat) ≤ 2 := by decide

theorem witness_WellFormedEventsComplete :
    (HostEvent.read32 0x3FFFF).wellFormed = true ∧ HostEvent.reset.wellFormed = true ∧
      0x40000 ≤ (0x40000 : Nat) := by decide

/-- Below the buffers reachability can be evaluated; `off + 3 < 0x10000`. -/
theorem reachable_examples (s : State) :
    Reachable s 0x000 ∧ Reachable s 0x004 ∧ Reachable s 0x03C ∧ Reachable s 0x060 ∧
      Reachable s 0x06C ∧ Reachable s 0x0A8 ∧ ¬ Reachable s 0x014 ∧ ¬ Reachable s 0x0AC ∧
      ¬ Reachable s 0x002 := by
  refine ⟨⟨rfl, ?_⟩, ⟨rfl, ?_⟩, ⟨rfl, ?_⟩, ⟨rfl, ?_⟩, ⟨rfl, ?_⟩, ⟨rfl, ?_⟩,
    fun h => absurd (h.2 0 (by omega)) (by simp [cellAt, mapRows]),
    fun h => absurd (h.2 0 (by omega)) (by simp [cellAt, mapRows]), fun h => absurd h.1 (by omega)⟩ <;>
    intro k hk <;> interval_cases k <;> simp [cellAt, mapRows]

/-- The first and the last word of a buffer. -/
theorem reachable_buffers (s : State) :
    Reachable s 0x10000 ∧ Reachable s (0x30000 + Config.bufMax - 4) := by
  have hg := Config.bufMax_ge
  have hm := Config.bufMax_mod
  refine ⟨⟨by omega, fun k hk => ?_⟩, ⟨by omega, fun k hk => ?_⟩⟩ <;>
    rw [cellAt, Option.isSome_map, List.find?_isSome]
  · exact ⟨⟨0x10000, Config.bufMax, .rw, s.aadBuf.read⟩, by simp [mapRows], by simp; omega⟩
  · exact ⟨⟨0x30000, Config.bufMax, .ro, s.outBuf.read⟩, by simp [mapRows], by simp; omega⟩

theorem witness_HostReadReturnsMapWord :
    (∀ off, Next { keyed with script := [.read32 off] } (.read32 off) []) ∧
      (0x0A8 < 0x40000 ∧ Reachable keyed 0x0A8) ∧ (0x000 < 0x40000 ∧ Reachable keyed 0x000) ∧
      (0x10000 < 0x40000 ∧ Reachable keyed 0x10000) ∧
      Reachable keyed (0x30000 + Config.bufMax - 4) ∧ 0x0AC < 0x40000 ∧ ¬ Reachable keyed 0x0AC :=
  have h := reachable_examples keyed
  have hb := reachable_buffers keyed
  ⟨fun _ => rfl, ⟨by omega, h.2.2.2.2.2.1⟩, ⟨by omega, h.1⟩, ⟨by omega, hb.1⟩, hb.2, by omega,
    h.2.2.2.2.2.2.2.1⟩

/-- `CMD`, a bus error, a read-only word, a write-only word, and the first and last words of `H`. -/
theorem witness_HostWriteStoresLanes :
    (∀ off v, Next { keyed with script := [.write32 off v] } (.write32 off v) []) ∧
      ¬ Reachable keyed 0x014 ∧ Reachable keyed 0x004 ∧ Reachable keyed 0x03C ∧
      Reachable keyed 0x060 ∧ Reachable keyed 0x06C ∧
      keyed.aadBuf.wf = true ∧ keyed.inBuf.wf = true ∧
      cellAt keyed 0x004 = some (.ro, lane keyed.status 0) ∧
      cellAt keyed 0x03C = some (.wo, byte keyed.key 28) ∧
      cellAt keyed 0x060 = some (.rw, byte keyed.h 0) := by
  have h := reachable_examples keyed
  refine ⟨fun _ _ => rfl, h.2.2.2.2.2.2.1, h.2.1, h.2.2.1, h.2.2.2.1, h.2.2.2.2.1, rfl, rfl, ?_, ?_, ?_⟩ <;>
    simp [cellAt, mapRows]

/-- The first and last offsets of the gaps below the buffers, and a misaligned one. -/
theorem witness_BusErrorChangesNothing :
    (∀ off, Next { keyed with script := [.read32 off] } (.read32 off) []) ∧
      (∀ off v, Next { keyed with script := [.write32 off v] } (.write32 off v) []) ∧
      0x3FFFF % 4 ≠ 0 ∧ (0x14 ≤ 0x14 ∧ 0x14 < 0x20) ∧ (0x14 ≤ 0x1C ∧ 0x1C < 0x20) ∧
      (0x8C ≤ 0x8C ∧ 0x8C < 0x90) ∧ (0x9C ≤ 0x9C ∧ 0x9C < 0xA0) ∧ (0xAC ≤ 0xAC ∧ 0xAC < 0x10000) ∧
      (0xAC ≤ 0xFFFC ∧ 0xFFFC < 0x10000) :=
  ⟨fun _ => rfl, fun _ _ => rfl, by omega, by omega, by omega, by omega, by omega, by omega, by omega⟩

theorem witness_ReadAfterWriteFollowsAccess :
    (∀ off v, Next { keyed with script := [.write32 off v, .read32 off] } (.write32 off v)
      [.read32 off]) ∧
      keyed.aadBuf.wf = true ∧ keyed.inBuf.wf = true ∧
      cellAt keyed 0x008 = some (.rw, lane keyed.aadLen 0) ∧
      cellAt keyed 0x098 = some (.rw, byte keyed.tagIn 8) ∧
      cellAt keyed 0x004 = some (.ro, lane keyed.status 0) ∧
      cellAt keyed 0x020 = some (.wo, byte keyed.key 0) := by
  refine ⟨fun _ _ => rfl, rfl, rfl, ?_, ?_, ?_, ?_⟩ <;> simp [cellAt, mapRows]

theorem witness_WriteToHClearsTableFlag :
    (∀ v, Next { tabled with script := [.write32 0x060 v] } (.write32 0x060 v) []) ∧
      (∀ v, Next { tabled with script := [.write32 0x06C v] } (.write32 0x06C v) []) ∧
      (let s := State.reset.withFetchWord 32 0x00000010
       s.hValid = false ∧ step s = .next (after (step s)) ∧ (after (step s)).hValid = true) :=
  ⟨fun _ => rfl, fun _ => rfl, by decide +kernel, next_after (by decide +kernel), by decide +kernel⟩

/-- A step that expands a key, one that sets and one that clears `H_VALID`, one that fails, one that is
no command, and a reset. -/
theorem witness_StatusFieldsChangeOnlyAsListed :
    (∀ e ∈ [HostEvent.write32 0x000 0x00000201, .write32 0x000 0x00000010, .write32 0x060 0,
        .write32 0x000 0x00000011, .read32 0x004],
      ({ tabled with script := [e] } : State).script.head? ≠ some .reset ∧
        step { tabled with script := [e] } = .next (after (step { tabled with script := [e] }))) ∧
    (State.reset.withFetchWord 32 0x00000201).nextCommand? = some (.aesKeyexp 2) ∧
    (after (step (State.reset.withFetchWord 32 0x00000010))).hValid ≠ State.reset.hValid ∧
    (after (step { tabled with script := [.write32 0x060 0] })).hValid ≠ tabled.hValid ∧
    (∀ v rest, ¬ Next { keyed with script := [.read32 0x004] } (.write32 0x000 v) rest) ∧
    (let s := { keyed with script := [.reset] }
     s.script.head? = some .reset ∧ step s = .next (after (step s))) := by
  refine ⟨?_, by decide +kernel, by decide +kernel, by decide +kernel, ?_, rfl,
    next_after (by decide +kernel)⟩
  · intro e he
    simp only [List.mem_cons, List.not_mem_nil, or_false] at he
    rcases he with rfl | rfl | rfl | rfl | rfl <;>
      exact ⟨by decide, next_after (by decide +kernel)⟩
  · intro v rest h
    exact absurd (List.cons.inj h).1 (by simp)

/-- Buffers that differ from those of the example only beyond the lengths, and an `OUTBUF` with a byte that
the seal writes and one that it keeps. -/
theorem witness_CommandsTouchOnlyTheirBuffers :
    exec .nop keyed = .next (after (exec .nop keyed)) ∧
    (exec .gcmSeal sealIn = .next (after (exec .gcmSeal sealIn)) ∧
      (∀ k, k < sealIn.aadLen.toNat → (sealIn.aadBuf.write 17 1).read k = sealIn.aadBuf.read k) ∧
      ∀ k, k < sealIn.inLen.toNat → (sealIn.inBuf.write 13 1).read k = sealIn.inBuf.read k) ∧
    (sealIn.outBuf.wf = true ∧ Memory.wf [(12, 1), (13, 1)] = true ∧
      WroteOutputByte .gcmSeal (after (exec .gcmSeal sealIn)) 12 ∧
      ¬ WroteOutputByte .gcmSeal (after (exec .gcmSeal sealIn)) 13) := by
  unfold WroteOutputByte
  exact ⟨next_after (by decide +kernel),
    ⟨next_after (by decide +kernel), by decide +kernel, by decide +kernel⟩, by decide +kernel⟩

theorem sealIn_runs : exec .gcmSeal sealIn = .next (after (exec .gcmSeal sealIn)) :=
  witness_CommandsTouchOnlyTheirBuffers.2.1.1

theorem witness_GcmIgnoresBytesBeyondLengths :
    Instr.gcmSeal ∈ [Instr.gcmSeal, .gcmOpen] ∧
      exec .gcmSeal sealIn = .next (after (exec .gcmSeal sealIn)) ∧
      (∀ k, k < sealIn.aadLen.toNat → (sealIn.aadBuf.write 17 1).read k = sealIn.aadBuf.read k) ∧
      (∀ k, k < sealIn.inLen.toNat → (sealIn.inBuf.write 13 1).read k = sealIn.inBuf.read k) ∧
      sealIn.outBuf.wf = true ∧ (after (exec .gcmSeal sealIn)).err = 0 :=
  ⟨by decide, sealIn_runs, by decide +kernel, by decide +kernel, rfl, by decide +kernel⟩

theorem witness_StagedKeyHasNoEffectUntilExpanded :
    let s := { keyed with script := [.write32 0x000 0x00000000] }
    (∀ klen, s.nextCommand? ≠ some (.aesKeyexp klen)) ∧ step s = .next (after (step s)) :=
  ⟨fun klen h => absurd (Option.some.inj h) (by simp), next_after (by decide +kernel)⟩

theorem witness_AesCipherInverts :
    ((4 : Nat) = 4 ∧ (List.replicate 16 (0 : Byte)).length = 4 * 4) ∧
      ((6 : Nat) = 6 ∧ (List.replicate 24 (0 : Byte)).length = 4 * 6) ∧
      (8 : Nat) = 8 ∧ (List.replicate 32 (0 : Byte)).length = 4 * 8 := by decide

theorem witness_DecCommandUndoesEncCommand :
    keyed.Inv ∧ keyed.keyValid = true ∧ exec .aesEnc keyed = .next (after (exec .aesEnc keyed)) := by
  exact ⟨keyed_inv, keyed_keyValid, next_after (by decide +kernel)⟩

theorem witness_TableMultiplicationIsGfMul : tabled.Inv ∧ tabled.hValid = true :=
  ⟨tabled_inv, tabled_matches.1⟩

theorem witness_MulXShiftsAcrossBytes : (1 : Nat) ≤ 1 ∧ (1 : Nat) ≤ 15 ∧ (15 : Nat) < 16 := by decide

theorem witness_GhashCornerCases :
    let d : List Byte := List.replicate 17 1
    (0 : Nat) < (d.length + 15) / 16 ∧ (1 : Nat) < (d.length + 15) / 16 ∧ (15 : Nat) < 16 := by decide

theorem witness_Inc32WrapsInLastFourBytes : (0 : Nat) < 12 ∧ (11 : Nat) < 12 := by decide

theorem witness_GctrUsesCounterFromTwo :
    (0 : Nat) < (List.replicate 17 (1 : Byte)).length ∧
      (16 : Nat) < (List.replicate 17 (1 : Byte)).length := by decide

theorem witness_OpenRecoversSealedPlaintext :
    sealIn.keyValid = true ∧ LengthsFit sealIn ∧ sealIn.outBuf.wf = true ∧
      exec .gcmSeal sealIn = .next (after (exec .gcmSeal sealIn)) :=
  ⟨sealIn_fits.1, sealIn_fits.2.1, sealIn_fits.2.2, sealIn_runs⟩

theorem witness_SealOfCiphertextReturnsPlaintext :
    sealIn.keyValid = true ∧ LengthsFit sealIn ∧ sealIn.outBuf.wf = true ∧
      exec .gcmSeal sealIn = .next (after (exec .gcmSeal sealIn)) :=
  ⟨sealIn_fits.1, sealIn_fits.2.1, sealIn_fits.2.2, sealIn_runs⟩

theorem witness_SealHashAgreesWithGhHash :
    sealIn.keyValid = true ∧ LengthsFit sealIn ∧ sealIn.outBuf.wf = true ∧
      exec .gcmSeal sealIn = .next (after (exec .gcmSeal sealIn)) :=
  ⟨sealIn_fits.1, sealIn_fits.2.1, sealIn_fits.2.2, sealIn_runs⟩

theorem witness_UnwrapInvertsWrap :
    (List.replicate 16 (0 : Byte)).length = 4 * 4 ∧ (List.replicate 16 (1 : Byte)).length % 8 = 0 ∧
      16 ≤ (List.replicate 16 (1 : Byte)).length := by decide

theorem witness_UnwrapCommandUndoesWrapCommand :
    wrapIn.Inv ∧ wrapIn.keyValid = true ∧ WrapLengthFits wrapIn ∧
      exec .kwWrap wrapIn = .next (after (exec .kwWrap wrapIn)) := by
  refine ⟨wrapIn_inv, keyed_keyValid, ⟨by decide, by decide, ?_⟩, next_after (by decide +kernel)⟩
  have hg := Config.bufMax_ge
  have h16 : wrapIn.inLen.toNat = 16 := by decide
  omega

/-- The empty string, and one that fills the buffer. -/
theorem witness_LdaadLoadsOperand :
    keyed.aadBuf.wf = true ∧ ([] : List Byte).length ≤ Config.bufMax ∧
      (List.replicate Config.bufMax (1 : Byte)).length ≤ Config.bufMax ∧
      ∀ d, ({ keyed with script := accesses (.ldaad d) } : State).script = accesses (.ldaad d) :=
  ⟨rfl, Nat.zero_le _, by simp, fun _ => rfl⟩

theorem witness_LdkeyExpandsKey :
    (List.replicate 16 (1 : Byte)).length = 16 ∧ (List.replicate 24 (1 : Byte)).length = 24 ∧
      (List.replicate 32 (1 : Byte)).length = 32 ∧
      ∀ d, ({ keyed with script := accesses (.ldkey d) } : State).script = accesses (.ldkey d) :=
  ⟨by decide, by decide, by decide, fun _ => rfl⟩

end Sys2Proof.Tests
end

section
/-! The invariants of the state (10_state.md R45): what a step does at the port, what every next state of a
command satisfies, and from these that every update, command and step keeps the invariants. -/

namespace Sys2Proof.Machine

/-! ### One step, by the next event of the script -/

theorem step_of_script_nil {s : State} (h : s.script = []) : step s = .next s := by
  simp only [step, advance, h]

theorem step_reset {s : State} {rest : List HostEvent} (h : s.script = .reset :: rest) :
    step s = .next { State.reset with script := rest } := by
  simp only [step, advance, h, perform]

/-- A write that reaches no location ends with the bus error (20_memory.md R69). -/
theorem step_write_busError {s : State} {off : Nat} {v : Word} {rest : List HostEvent}
    (h : s.script = .write32 off v :: rest) (ho : off < Config.windowSize) (hl : locate off = none) :
    step s = .next { s with script := rest, answer := some .busError } := by
  rw [step_write h ho, hostWrite32, hl]
  rfl

/-- A write to a location other than `CMD` stores the word and completes (20_memory.md R63). -/
theorem step_write_store {s : State} {off : Nat} {v : Word} {rest : List HostEvent} {l : Loc}
    (h : s.script = .write32 off v :: rest) (hl : locate off = some l) (hc : l ≠ .cmd) :
    step s = .next ((locStore { s with script := rest } l (off - locOffset l) v).answered .done) := by
  rw [step_write h (lt_windowSize_of_locate hl), hostWrite32, hl]
  cases l
  case cmd => exact absurd rfl hc
  all_goals rfl

/-- A write to `CMD` completes when the command has ended (20_memory.md R68). -/
theorem step_write_cmd {s : State} {v : Word} {rest : List HostEvent}
    (h : s.script = .write32 (locOffset .cmd) v :: rest) :
    step s = completed (command v { s with script := rest }) := by
  rw [step_write h (lt_windowSize_of_locate locate_cmd), hostWrite32, locate_cmd]

/-- A store touches nothing of the bus. -/
theorem locStore_withScript (s : State) (l : Loc) (k : Nat) (v : Word) (script : List HostEvent) :
    locStore { s with script := script } l k v = { locStore s l k v with script := script } := by
  cases l <;> rfl

/-- What the engine does with a word written to `CMD`: the command it encodes, or ILLEGAL_CMD. -/
theorem command_cases {c : Word} {s t : State} (h : command c s = .next t) :
    (∃ i, decode c = .ok i ∧ exec i s = .next t) ∨
      (∃ e, decode c = .error e ∧ t = s.raise .illegalCmd) := by
  unfold command at h
  split at h
  · rename_i i hd
    exact .inl ⟨i, hd, h⟩
  · rename_i e hd
    injection h with h
    exact .inr ⟨e, hd, h.symm⟩

theorem nextCommand?_of_decode {s : State} {c : Word} {rest : List HostEvent} {i : Instr}
    (h : s.script = .write32 (locOffset .cmd) c :: rest) (hd : decode c = .ok i) :
    s.nextCommand? = some i := by
  simp only [State.nextCommand?, h, hd, if_true]

theorem nextCommand?_of_illegal {s : State} {c : Word} {rest : List HostEvent} {e : DecodeError}
    (h : s.script = .write32 (locOffset .cmd) c :: rest) (hd : decode c = .error e) :
    s.nextCommand? = none := by
  simp only [State.nextCommand?, h, hd, if_true]

/-- A script that does not begin with a write to `CMD` issues no command. -/
theorem nextCommand?_eq_none {s : State}
    (h : ∀ c rest, s.script ≠ .write32 (locOffset .cmd) c :: rest) : s.nextCommand? = none := by
  unfold State.nextCommand?
  split
  · rename_i off c rest hs
    have hoff : off ≠ locOffset .cmd := fun ho => h c rest (ho ▸ hs)
    rw [if_neg hoff]
  · rfl

/-! ### What holds of every next state an outcome can be -/

/-- If the outcome is a next state, that state satisfies `P`. -/
def NextSatisfies (P : State → Prop) (o : Host.Outcome State Fault Refusal) : Prop :=
  ∀ t, o = .next t → P t

theorem nextSatisfies_next {P : State → Prop} {t : State} (h : P t) : NextSatisfies P (.next t) := by
  rintro u ⟨⟩
  exact h

/-- A command behind its checks satisfies `P` when the error of each check does, and so does its body
once all checks have passed. -/
theorem nextSatisfies_checked {P : State → Prop} {s : State} {cs : List (Bool × ResultCode)}
    {body : Unit → Host.Outcome State Fault Refusal}
    (hraise : ∀ pc ∈ cs, P (s.raise pc.2))
    (hbody : (∀ pc ∈ cs, pc.1 = true) → NextSatisfies P (body ())) :
    NextSatisfies P (s.checked cs body) := by
  intro t h
  obtain ⟨c, hc, rfl⟩ | ⟨hc, hb⟩ := checked_cases h
  · exact hraise (false, c) (firstFailure_mem hc)
  · exact hbody (firstFailure_eq_none.1 hc) t hb

theorem nextSatisfies_ite {P : State → Prop} {p : Prop} [Decidable p]
    {a b : Host.Outcome State Fault Refusal} (ha : NextSatisfies P a) (hb : NextSatisfies P b) :
    NextSatisfies P (if p then a else b) := by
  split
  · exact ha
  · exact hb

/-- What holds of every next state of a command word's outcome: ILLEGAL_CMD, or the command's own. -/
theorem nextSatisfies_command {P : State → Prop} {c : Word} {s : State}
    (hill : P (s.raise .illegalCmd)) (hexec : ∀ i, NextSatisfies P (exec i s)) :
    NextSatisfies P (command c s) := by
  intro t h
  obtain ⟨i, -, hi⟩ | ⟨e, -, rfl⟩ := command_cases h
  · exact hexec i t hi
  · exact hill

/-! ### The lengths of the operands and of the outputs -/

@[simp] theorem length_dataOperand (s : State) : s.dataOperand.length = s.inLen.toNat :=
  length_memRead _ _ _

@[simp] theorem length_ctr (s : State) (d : List Byte) : (s.ctr d).length = d.length :=
  length_gctr _ _ _

theorem length_keyOperand (s : State) {nk : Nat} (h : 4 * nk ≤ 32) :
    (s.keyOperand nk).length = 4 * nk := by
  simp [State.keyOperand, h]

theorem lengthsOk_iff {s : State} : s.lengthsOk = true ↔
    s.aadLen.toNat ≤ Config.bufMax ∧ s.inLen.toNat ≤ Config.bufMax := by
  simp [State.lengthsOk]

theorem wrapLengthOk_iff {s : State} : s.wrapLengthOk = true ↔
    s.inLen.toNat % 8 = 0 ∧ 16 ≤ s.inLen.toNat ∧ s.inLen.toNat + 8 ≤ Config.bufMax := by
  simp [State.wrapLengthOk, and_assoc]

theorem unwrapLengthOk_iff {s : State} : s.unwrapLengthOk = true ↔
    s.inLen.toNat % 8 = 0 ∧ 24 ≤ s.inLen.toNat ∧ s.inLen.toNat ≤ Config.bufMax := by
  simp [State.unwrapLengthOk, and_assoc]

/-- The output of KW.WRAP fits in `OUTBUF` when its length check passes (43_keywrap.md R193). -/
theorem length_kwWrap_le {s : State} (enc : Block → Block) (h : s.wrapLengthOk = true) :
    (kwWrap enc s.dataOperand).length ≤ Config.bufMax := by
  obtain ⟨hmod, -, hle⟩ := wrapLengthOk_iff.1 h
  rwa [length_kwWrap enc (by rwa [length_dataOperand]), length_dataOperand]

/-- The output of KW.UNWRAP fits in `OUTBUF` when its length check passes (43_keywrap.md R193). -/
theorem length_kwUnwrap_le {s : State} (dec : Block → Block) (h : s.unwrapLengthOk = true) :
    (kwUnwrap dec s.dataOperand).2.length ≤ Config.bufMax := by
  obtain ⟨hmod, -, hle⟩ := unwrapLengthOk_iff.1 h
  rw [length_kwUnwrap dec (by rwa [length_dataOperand]), length_dataOperand]
  omega

/-! ### The updates of the state keep the invariants -/

/-- The invariants speak of none of these fields. -/
theorem State.Inv.withFrame {s : State} (hs : s.Inv) {key : Bytes 32} {blkIn blkOut y : Block}
    {nonce tagIn tag : Bytes 12} {aadLen inLen : Word} {script : List HostEvent}
    {answer : Option BusAnswer} :
    State.Inv { s with
      key := key, blkIn := blkIn, blkOut := blkOut, y := y, nonce := nonce, tagIn := tagIn,
      tag := tag, aadLen := aadLen, inLen := inLen, script := script, answer := answer } :=
  { hs with }

/-- `STATUS.ERR` and `STATUS.ESTICKY` may take any values that R45 (c) and R220 allow. -/
theorem State.Inv.withStatus {s : State} (hs : s.Inv) {st : Word}
    (hkey : keyValidOf st = keyValidOf s.status) (hh : hValidOf st = hValidOf s.status)
    (hklen : klenOf st = klenOf s.status) (hres : reservedOf st = reservedOf s.status)
    (hsticky : errOf st ≠ 0 → estickyOf st = true) (herr : (errOf st).toNat ≤ 5) :
    (s.withStatus st).Inv :=
  { hs with
    keyValidIff := by rw [withStatus_keyValid, hkey]; exact hs.keyValidIff
    klenValue := by rw [withStatus_klen, hklen]; exact hs.klenValue
    schedules := fun h => hs.schedules (by rwa [withStatus_keyValid, hkey] at h)
    tableMatches := fun h => hs.tableMatches (by rwa [withStatus_hValid, hh] at h)
    stickyIfErr := hsticky
    errCode := herr
    reservedZero := by rw [withStatus_status, hres]; exact hs.reservedZero }

theorem State.Inv.succeed {s : State} (hs : s.Inv) : s.succeed.Inv :=
  hs.withStatus (by simp) (by simp) (by simp) (by simp) (by simp) (by simp)

theorem State.Inv.raise {s : State} (hs : s.Inv) (c : ResultCode) : (s.raise c).Inv :=
  hs.withStatus (by simp) (by simp) (by simp) (by simp) (by simp) (by simpa using errValue_le c)

/-- `H`, `M` and `H_VALID`, and `Y` with them, may change together, as long as the table of a valid `H`
belongs to it (R45 (b)). -/
theorem State.Inv.withTable {s : State} (hs : s.Inv) {h y : Block} {m : Table} {valid : Bool}
    (hm : valid = true → m = buildTable h) :
    (State.setHValid { s with h := h, m := m, y := y } valid).Inv :=
  { hs with
    keyValidIff := by rw [setHValid_keyValid]; exact hs.keyValidIff
    klenValue := by rw [setHValid_klen]; exact hs.klenValue
    schedules := fun hv => hs.schedules (by rwa [setHValid_keyValid] at hv)
    tableMatches := fun hv => hm (by rwa [setHValid_hValid] at hv)
    stickyIfErr := by rw [setHValid_err, setHValid_esticky]; exact hs.stickyIfErr
    errCode := by rw [setHValid_err]; exact hs.errCode
    reservedZero := by rw [setHValid_status, reservedOf_putHValid]; exact hs.reservedZero }

theorem State.Inv.putGcm {s : State} (hs : s.Inv) (c : List Byte) : (s.putGcm c).Inv :=
  hs.withTable fun _ => rfl

theorem State.Inv.withOutput {s : State} (hs : s.Inv) {out : Memory} {len : Word}
    (hout : out.sound) (hlen : len.toNat ≤ Config.bufMax) :
    State.Inv { s with outBuf := out, outLen := len } :=
  { hs with outLenFits := hlen, outSound := hout }

theorem State.Inv.putOutput {s : State} (hs : s.Inv) {v : List Byte}
    (hv : v.length ≤ Config.bufMax) : (s.putOutput v).Inv := by
  have hlen : (BitVec.ofNat 32 v.length).toNat ≤ Config.bufMax :=
    (BitVec.toNat_ofNat _ _).trans_le ((Nat.mod_le _ _).trans hv)
  have hbounds : (memWrite s.outBuf 0 v).inBounds :=
    inBounds_memWrite hs.outSound.2 (by rwa [Nat.zero_add])
  exact hs.withOutput ⟨wf_memWrite hs.outSound.1 _ _, hbounds⟩ hlen

theorem State.Inv.raiseOutcome {s : State} (hs : s.Inv) (c : ResultCode) : (s.raiseOutcome c).Inv :=
  (hs.withOutput ⟨wf_zeros, inBounds_zeros⟩ (Nat.zero_le _)).raise c

/-- A word stored inside a buffer keeps the buffer's form. -/
theorem sound_bufStore {m : Memory} (hm : m.sound) {k : Nat} (hk : k + 4 ≤ Config.bufMax) (v : Word) :
    (bufStore m k v).sound :=
  ⟨wf_bufStore hm.1 k v, inBounds_bufStore hm.2 hk v⟩

/-- A host write inside a location keeps the invariants (20_memory.md R63). -/
theorem State.Inv.locStore {s : State} (hs : s.Inv) (l : Loc) {k : Nat} (hk : k + 4 ≤ locSize l)
    (v : Word) : (locStore s l k v).Inv := by
  cases l with
  | cmd | status | outLen | blkOut | tag | outBuf => exact hs
  | aadLen | inLen | key | blkIn | y | nonce | tagIn => exact hs.withFrame
  | h => exact hs.withTable (by simp)
  | aadBuf => exact { hs with aadSound := sound_bufStore hs.aadSound hk v }
  | inBuf => exact { hs with inSound := sound_bufStore hs.inSound hk v }

/-- The reset state satisfies the invariants (R44, R45). -/
theorem reset_inv : State.reset.Inv where
  nkValue := .inl rfl
  keyValidIff := by decide
  klenValue := rfl
  schedules := fun h => nomatch h
  tableMatches := fun h => nomatch h
  stickyIfErr := fun h => absurd rfl h
  errCode := Nat.zero_le _
  outLenFits := Nat.zero_le _
  reservedZero := rfl
  aadSound := ⟨wf_zeros, inBounds_zeros⟩
  inSound := ⟨wf_zeros, inBounds_zeros⟩
  outSound := ⟨wf_zeros, inBounds_zeros⟩

/-! ### The commands keep the invariants -/

/-- The schedules and the key's length may change together, as long as the schedules belong to one key
of that length (R45 (a), R36). -/
theorem State.Inv.withSchedules {s : State} (hs : s.Inv) {w dw : KeyFile} {klen : Nat} (hklen : klen < 3)
    {k : List Byte} (hk : k.length = 4 * (4 + 2 * klen))
    (hw : w.toList.take (4 * (4 + 2 * klen + 7)) = keyExpansion (4 + 2 * klen) k)
    (hdw : dw.toList.take (4 * (4 + 2 * klen + 7)) =
      decKeySchedule (keyExpansion (4 + 2 * klen) k) (4 + 2 * klen + 6)) :
    (State.setKeyLoaded { s with w := w, dw := dw } (4 + 2 * klen) klen).Inv :=
  { hs with
    nkValue := by rw [setKeyLoaded_nk]; omega
    keyValidIff := by simp only [setKeyLoaded_keyValid, setKeyLoaded_nk, true_iff]; omega
    klenValue := by rw [setKeyLoaded_klen, setKeyLoaded_nk, BitVec.toNat_ofNat]; omega
    schedules := fun _ => ⟨k, hk, hw, hdw⟩
    tableMatches := by rw [setKeyLoaded_hValid]; exact hs.tableMatches
    stickyIfErr := by rw [setKeyLoaded_err, setKeyLoaded_esticky]; exact hs.stickyIfErr
    errCode := by rw [setKeyLoaded_err]; exact hs.errCode
    reservedZero := by
      rw [setKeyLoaded_status, reservedOf_putKlen, reservedOf_putKeyValid]; exact hs.reservedZero }

/-- A schedule loaded into a register file stands in the file's first words (R33). -/
theorem take_loadFile_of_length (f : KeyFile) {ws : Schedule} {n : Nat} (h : ws.length = n)
    (hn : n ≤ 60) : (loadFile f ws).toList.take n = ws := by
  subst h
  exact take_loadFile f hn

theorem State.Inv.execAesKeyexp {s : State} (hs : s.Inv) (klen : Nat) :
    NextSatisfies State.Inv (execAesKeyexp klen s) := by
  by_cases hklen : klen < 3
  · rw [execAesKeyexp_eq hklen]
    have hw := take_loadFile_of_length s.w (length_keyExpansion (4 + 2 * klen)
      (s.keyOperand (4 + 2 * klen))) (by omega)
    have hdw := take_loadFile_of_length s.dw (length_decKeySchedule (keyExpansion (4 + 2 * klen)
      (s.keyOperand (4 + 2 * klen))) (4 + 2 * klen + 6)) (by omega)
    have hk := length_keyOperand s (nk := 4 + 2 * klen) (by omega)
    exact nextSatisfies_next (hs.withSchedules hklen hk hw hdw).succeed
  · rw [execAesKeyexp_reserved hklen]
    exact nextSatisfies_next (hs.raise _)

theorem State.Inv.execGcmSeal {s : State} (hs : s.Inv) :
    NextSatisfies State.Inv (execGcmSeal s) := by
  refine nextSatisfies_checked (fun _ _ => hs.raise _) fun hpass => ?_
  obtain ⟨-, hlen⟩ := lengthsOk_iff.1 (hpass s.lengthCheck (by simp))
  have hout : (s.ctr s.dataOperand).length ≤ Config.bufMax := by
    rwa [length_ctr, length_dataOperand]
  exact nextSatisfies_next ((hs.putGcm _).putOutput hout).withFrame.succeed

theorem State.Inv.execGcmOpen {s : State} (hs : s.Inv) :
    NextSatisfies State.Inv (execGcmOpen s) := by
  refine nextSatisfies_checked (fun _ _ => hs.raise _) fun hpass => ?_
  obtain ⟨-, hlen⟩ := lengthsOk_iff.1 (hpass s.lengthCheck (by simp))
  have hout : (s.ctr s.dataOperand).length ≤ Config.bufMax := by
    rwa [length_ctr, length_dataOperand]
  exact nextSatisfies_ite (nextSatisfies_next ((hs.putGcm _).putOutput hout).succeed)
    (nextSatisfies_next ((hs.putGcm _).raiseOutcome _))

theorem State.Inv.execKwWrap {s : State} (hs : s.Inv) :
    NextSatisfies State.Inv (execKwWrap s) := by
  refine nextSatisfies_checked (fun _ _ => hs.raise _) fun hpass => ?_
  have hlen : s.wrapLengthOk = true := hpass s.wrapCheck (by simp)
  exact nextSatisfies_next (hs.putOutput (length_kwWrap_le _ hlen)).succeed

theorem State.Inv.execKwUnwrap {s : State} (hs : s.Inv) :
    NextSatisfies State.Inv (execKwUnwrap s) := by
  refine nextSatisfies_checked (fun _ _ => hs.raise _) fun hpass => ?_
  have hlen : s.unwrapLengthOk = true := hpass s.unwrapCheck (by simp)
  exact nextSatisfies_ite (nextSatisfies_next (hs.putOutput (length_kwUnwrap_le _ hlen)).succeed)
    (nextSatisfies_next (hs.raiseOutcome _))

/-- Every command keeps the invariants. -/
theorem State.Inv.exec {s : State} (hs : s.Inv) (i : Instr) :
    NextSatisfies State.Inv (exec i s) := by
  cases i with
  | nop => exact nextSatisfies_next hs.succeed
  | aesKeyexp klen => exact hs.execAesKeyexp klen
  | aesEnc | aesDec | ghMulh | ghHash =>
    rw [Machine.exec]
    refine nextSatisfies_checked (fun _ _ => hs.raise _) fun _ => ?_
    exact nextSatisfies_next hs.withFrame.succeed
  | ghLoadh => exact nextSatisfies_next (hs.withTable fun _ => rfl).succeed
  | gcmSeal => exact hs.execGcmSeal
  | gcmOpen => exact hs.execGcmOpen
  | kwWrap => exact hs.execKwWrap
  | kwUnwrap => exact hs.execKwUnwrap

/-- Settles O21, by the cases of a step: every access, command and reset keeps the invariants. -/
theorem stepKeepsInvariants : Obligations.StepKeepsInvariants := by
  unfold Obligations.StepKeepsInvariants
  intro s t hs h
  obtain ⟨-, rfl⟩ | ⟨rest, -, rfl⟩ | ⟨off, rest, -, -, rfl⟩ | ⟨off, v, rest, -, -, -, rfl⟩ |
    ⟨off, v, rest, l, -, hl, -, rfl⟩ | ⟨v, rest, u, -, hu, rfl⟩ := step_cases h
  · -- the idle step
    exact hs
  · -- a reset
    exact reset_inv.withFrame
  · -- a read
    exact hs.withFrame
  · -- a bus error
    exact hs.withFrame
  · -- a store
    obtain ⟨-, -, hin⟩ := locate_eq_some.1 hl
    exact (hs.locStore l hin v).withFrame
  · -- a command
    have hrest : State.Inv { s with script := rest } := hs.withFrame
    exact (nextSatisfies_command (hrest.raise _) hrest.exec u hu).withFrame

/-- Settles O22. -/
theorem resetSatisfiesInvariants : Obligations.ResetSatisfiesInvariants := reset_inv

/-- Settles O20. -/
theorem idleBlockDoesNothing : Obligations.IdleBlockDoesNothing := fun _ h => step_of_script_nil h

/-- Settles O23: the registers by definition, the files and the table entry by entry. -/
theorem resetStateHoldsResetValues : Obligations.ResetStateHoldsResetValues := by
  refine ⟨rfl, rfl, rfl, rfl, rfl, rfl, rfl, rfl, rfl, rfl, rfl, rfl, rfl, ?_, ?_, ?_⟩
  · intro i hi
    exact ⟨Vector.getElem_replicate hi, Vector.getElem_replicate hi⟩
  · intro p j hp hj
    simp [State.reset]
  · intro a
    exact ⟨read_zeros a, read_zeros a, read_zeros a⟩

end Sys2Proof.Machine
end

section
/-! The fields of `STATUS` (10_state.md R32): how a command leaves them, and how every other step does. -/

namespace Sys2Proof.Machine

/-! ### A result is recorded in `ERR` and `ESTICKY` alone -/

/-- `b` is the status word `a` with the result of a command recorded in it (60_exceptions.md R220). -/
def RecordsResult (a b : Word) : Prop :=
  b = statusOk a ∨ ∃ c, c ≠ ResultCode.ok ∧ b = statusError a c

theorem recordsResult_statusOk (a : Word) : RecordsResult a (statusOk a) := .inl rfl

theorem recordsResult_statusError (a : Word) {c : ResultCode} (hc : c ≠ .ok) :
    RecordsResult a (statusError a c) := .inr ⟨c, hc, rfl⟩

section
variable {a b : Word}

theorem RecordsResult.keyValidOf_eq (h : RecordsResult a b) : keyValidOf b = keyValidOf a := by
  obtain rfl | ⟨c, -, rfl⟩ := h <;> simp

theorem RecordsResult.hValidOf_eq (h : RecordsResult a b) : hValidOf b = hValidOf a := by
  obtain rfl | ⟨c, -, rfl⟩ := h <;> simp

theorem RecordsResult.klenOf_eq (h : RecordsResult a b) : klenOf b = klenOf a := by
  obtain rfl | ⟨c, -, rfl⟩ := h <;> simp

theorem RecordsResult.reservedOf_eq (h : RecordsResult a b) : reservedOf b = reservedOf a := by
  obtain rfl | ⟨c, -, rfl⟩ := h <;> simp

/-- `ESTICKY` is set with any error and never cleared (R32). -/
theorem RecordsResult.estickyOf_iff (h : RecordsResult a b) :
    estickyOf b = true ↔ estickyOf a = true ∨ errOf b ≠ 0 := by
  obtain rfl | ⟨c, hc, rfl⟩ := h
  · simp
  · have herr : errValue c ≠ 0 := fun h0 => hc (errValue_injective (d := .ok) h0)
    exact iff_of_true (estickyOf_statusError a c) (.inr (by rwa [errOf_statusError]))

end

/-! ### What a write to `CMD` does to `STATUS` -/

/-- The commands that give `H_VALID` the value 1 (R32). -/
def loadsTable : List Instr := [.ghLoadh, .gcmSeal, .gcmOpen]

/-- The status word is `a` before and `b` after the write to `CMD` of the command `c`, or of an illegal
word when `c` is none (R32). -/
structure StatusAfter (c : Option Instr) (a b : Word) : Prop where
  keyValid : keyValidOf b = true ↔ keyValidOf a = true ∨ ∃ k, k < 3 ∧ c = some (.aesKeyexp k)
  klenWritten : ∀ k, k < 3 → c = some (.aesKeyexp k) → klenOf b = BitVec.ofNat 2 k
  klenKept : (∀ k, k < 3 → c ≠ some (.aesKeyexp k)) → klenOf b = klenOf a
  hValid : hValidOf b ≠ hValidOf a → hValidOf b = true ∧ c ∈ loadsTable.map some
  esticky : estickyOf b = true ↔ estickyOf a = true ∨ errOf b ≠ 0
  reserved : reservedOf b = reservedOf a

/-- A command that expands no key and writes no flag. -/
theorem StatusAfter.of_recordsResult {c : Option Instr} {a b : Word}
    (hc : ∀ k, k < 3 → c ≠ some (.aesKeyexp k)) (h : RecordsResult a b) : StatusAfter c a b where
  keyValid := by
    rw [h.keyValidOf_eq]
    exact ⟨.inl, fun hk => hk.resolve_right fun ⟨k, hlt, he⟩ => hc k hlt he⟩
  klenWritten := fun k hlt he => absurd he (hc k hlt)
  klenKept := fun _ => h.klenOf_eq
  hValid := fun hne => absurd h.hValidOf_eq hne
  esticky := h.estickyOf_iff
  reserved := h.reservedOf_eq

/-- A command that loads the table. -/
theorem StatusAfter.of_loadsTable {i : Instr} {a b : Word} (hi : i ∈ loadsTable)
    (h : RecordsResult (putHValid a true) b) : StatusAfter (some i) a b where
  keyValid := by
    have hno : ¬ ∃ k, k < 3 ∧ some i = some (Instr.aesKeyexp k) := by
      rintro ⟨k, -, ⟨⟩⟩
      simp [loadsTable] at hi
    rw [h.keyValidOf_eq, keyValidOf_putHValid, or_iff_left hno]
  klenWritten := by
    rintro k - ⟨⟩
    simp [loadsTable] at hi
  klenKept := fun _ => by rw [h.klenOf_eq, klenOf_putHValid]
  hValid := fun _ => ⟨by rw [h.hValidOf_eq, hValidOf_putHValid], List.mem_map_of_mem hi⟩
  esticky := by rw [h.estickyOf_iff, estickyOf_putHValid]
  reserved := by rw [h.reservedOf_eq, reservedOf_putHValid]

/-- AES.KEYEXP with a legal `KLEN` (40_aes.md R140). -/
theorem StatusAfter.of_keyLoaded {klen : Nat} {a b : Word} (hlt : klen < 3)
    (h : RecordsResult (putKlen (putKeyValid a true) (BitVec.ofNat 2 klen)) b) :
    StatusAfter (some (.aesKeyexp klen)) a b where
  keyValid := by
    rw [h.keyValidOf_eq, keyValidOf_putKlen, keyValidOf_putKeyValid]
    exact iff_of_true rfl (.inr ⟨klen, hlt, rfl⟩)
  klenWritten := by
    rintro k - ⟨⟩
    rw [h.klenOf_eq, klenOf_putKlen]
  klenKept := fun hno => absurd rfl (hno klen hlt)
  hValid := fun hne => absurd (by
    rw [h.hValidOf_eq, hValidOf_putKlen, hValidOf_putKeyValid]) hne
  esticky := by rw [h.estickyOf_iff, estickyOf_putKlen, estickyOf_putKeyValid]
  reserved := by rw [h.reservedOf_eq, reservedOf_putKlen, reservedOf_putKeyValid]

/-- The state's status word is one the write of the command `c` may leave after `a`. -/
abbrev StatusFollows (c : Option Instr) (a : Word) (t : State) : Prop := StatusAfter c a t.status

@[simp] theorem keyCheck_snd (s : State) : s.keyCheck.2 = .config := rfl
@[simp] theorem tableCheck_snd (s : State) : s.tableCheck.2 = .config := rfl
@[simp] theorem lengthCheck_snd (s : State) : s.lengthCheck.2 = .length := rfl
@[simp] theorem wrapCheck_snd (s : State) : s.wrapCheck.2 = .length := rfl
@[simp] theorem unwrapCheck_snd (s : State) : s.unwrapCheck.2 = .length := rfl

/-- Behind checks that each raise an error, only the body has to be looked at. -/
theorem statusFollows_checked {c : Option Instr} {s : State} {cs : List (Bool × ResultCode)}
    {body : Unit → Host.Outcome State Fault Refusal} (hcs : ∀ pc ∈ cs, pc.2 ≠ .ok)
    (hc : ∀ k, k < 3 → c ≠ some (.aesKeyexp k))
    (hbody : NextSatisfies (StatusFollows c s.status) (body ())) :
    NextSatisfies (StatusFollows c s.status) (s.checked cs body) :=
  nextSatisfies_checked
    (fun pc hpc => .of_recordsResult hc (recordsResult_statusError _ (hcs pc hpc))) fun _ => hbody

/-- A command that ends with success and has written no flag. -/
theorem statusFollows_succeed {c : Option Instr} {s u : State}
    (hc : ∀ k, k < 3 → c ≠ some (.aesKeyexp k)) (hu : u.status = s.status) :
    NextSatisfies (StatusFollows c s.status) (.next u.succeed) :=
  nextSatisfies_next (.of_recordsResult hc (hu ▸ recordsResult_statusOk _))

theorem execAesKeyexp_status (s : State) (klen : Nat) :
    NextSatisfies (StatusFollows (some (.aesKeyexp klen)) s.status) (execAesKeyexp klen s) := by
  by_cases hlt : klen < 3
  · rw [execAesKeyexp_eq hlt]
    exact nextSatisfies_next (.of_keyLoaded hlt (recordsResult_statusOk _))
  · rw [execAesKeyexp_reserved hlt]
    have hne : ∀ k, k < 3 → some (Instr.aesKeyexp klen) ≠ some (.aesKeyexp k) := by
      rintro k hk ⟨⟩
      exact hlt hk
    exact nextSatisfies_next (.of_recordsResult hne (recordsResult_statusError _ (by decide)))

/-- How each command leaves `STATUS` (R32). -/
theorem exec_status (s : State) (i : Instr) :
    NextSatisfies (StatusFollows (some i) s.status) (exec i s) := by
  cases i with
  | nop => exact statusFollows_succeed (fun _ _ => nofun) rfl
  | aesKeyexp klen => exact execAesKeyexp_status s klen
  | ghLoadh => exact nextSatisfies_next (.of_loadsTable (by decide) (recordsResult_statusOk _))
  | aesEnc | aesDec | ghMulh | ghHash =>
    rw [exec]
    refine statusFollows_checked (by simp) (fun _ _ => nofun) ?_
    exact statusFollows_succeed (fun _ _ => nofun) rfl
  | gcmSeal =>
    rw [exec]
    refine statusFollows_checked (by simp) (fun _ _ => nofun) ?_
    exact nextSatisfies_next (.of_loadsTable (by decide) (recordsResult_statusOk _))
  | gcmOpen =>
    rw [exec]
    refine statusFollows_checked (by simp) (fun _ _ => nofun) ?_
    exact nextSatisfies_ite
      (nextSatisfies_next (.of_loadsTable (by decide) (recordsResult_statusOk _)))
      (nextSatisfies_next (.of_loadsTable (by decide) (recordsResult_statusError _ (by decide))))
  | kwWrap =>
    rw [exec]
    refine statusFollows_checked (by simp) (fun _ _ => nofun) ?_
    exact statusFollows_succeed (fun _ _ => nofun) (putOutput_status s _)
  | kwUnwrap =>
    rw [exec]
    refine statusFollows_checked (by simp) (fun _ _ => nofun) ?_
    exact nextSatisfies_ite
      (statusFollows_succeed (fun _ _ => nofun) (putOutput_status s _))
      (nextSatisfies_next
        (.of_recordsResult (fun _ _ => nofun) (recordsResult_statusError _ (by decide))))

/-! ### What a step does to `STATUS` -/

/-- A host write changes of `STATUS` at most `H_VALID`, and that only in a write to `H` (R26, R32). -/
theorem locStore_status (s : State) (l : Loc) (k : Nat) (v : Word) :
    (locStore s l k v).status = if l = .h then putHValid s.status false else s.status := by
  cases l <;> rfl

/-- The next event is a host write to a word of `H`. -/
def State.writesH (s : State) : Prop :=
  ∃ off v rest, 0x60 ≤ off ∧ off < 0x70 ∧ s.script = .write32 off v :: rest

/-- All a step but a reset does to `STATUS`: what the command does, in a write to `CMD`; otherwise at
most clear `H_VALID`, in a write to `H` (R32). -/
theorem step_status_cases {s t : State} (hr : s.script.head? ≠ some .reset) (h : step s = .next t) :
    (∃ v rest, s.script = .write32 (locOffset .cmd) v :: rest ∧
      StatusAfter s.nextCommand? s.status t.status) ∨
    ((∀ v rest, s.script ≠ .write32 (locOffset .cmd) v :: rest) ∧
      (t.status = s.status ∨ t.status = putHValid s.status false ∧ s.writesH)) := by
  obtain ⟨hs, rfl⟩ | ⟨rest, hs, -⟩ | ⟨off, rest, hs, -, rfl⟩ | ⟨off, v, rest, hs, -, hl, rfl⟩ |
    ⟨off, v, rest, l, hs, hl, hc, rfl⟩ | ⟨v, rest, u, hs, hu, rfl⟩ := step_cases h
  · -- the idle step
    exact .inr ⟨by simp [hs], .inl rfl⟩
  · -- a reset
    exact absurd (by rw [hs]; rfl) hr
  · -- a read
    exact .inr ⟨by simp [hs], .inl rfl⟩
  · -- a bus error
    refine .inr ⟨?_, .inl rfl⟩
    rintro v' rest' hs'
    obtain ⟨⟨rfl, -⟩, -⟩ := by simpa [hs] using hs'
    exact absurd hl (by simp)
  · -- a store
    refine .inr ⟨?_, ?_⟩
    · rintro v' rest' hs'
      obtain ⟨⟨rfl, -⟩, -⟩ := by simpa [hs] using hs'
      exact hc (by simpa using hl.symm)
    · by_cases hh : l = .h
      · subst hh
        obtain ⟨-, hlo, hhi⟩ := locate_eq_some.1 hl
        simp only [locOffset, locSize] at hlo hhi
        exact .inr ⟨rfl, off, v, rest, hlo, by omega, hs⟩
      · exact .inl ((locStore_status s l _ v).trans (if_neg hh))
  · -- a command
    refine .inl ⟨v, rest, hs, ?_⟩
    obtain ⟨i, hd, hi⟩ | ⟨e, hd, rfl⟩ := command_cases hu
    · rw [nextCommand?_of_decode hs hd]
      exact exec_status { s with script := rest } i u hi
    · rw [nextCommand?_of_illegal hs hd]
      exact .of_recordsResult (fun _ _ => nofun) (recordsResult_statusError _ (by decide))

/-- A reset gives `STATUS` its reset value (R44). -/
theorem step_reset_status {s t : State} (hr : s.script.head? = some .reset) (h : step s = .next t) :
    t.status = 0 := by
  obtain ⟨rest, hs⟩ := List.head?_eq_some_iff.1 hr
  rw [step_reset hs] at h
  injection h with h
  exact h ▸ rfl

/-- Without a write to `CMD` no field but `H_VALID` changes, and `H_VALID` only to 0 in a write to `H`. -/
theorem fields_of_status_cases {s t : State}
    (h : t.status = s.status ∨ t.status = putHValid s.status false ∧ s.writesH) :
    t.keyValid = s.keyValid ∧ t.klen = s.klen ∧ t.err = s.err ∧ t.esticky = s.esticky ∧
      reservedOf t.status = reservedOf s.status ∧
      (t.hValid ≠ s.hValid → t.hValid = false ∧ s.writesH) := by
  unfold State.keyValid State.klen State.err State.esticky State.hValid
  obtain h | ⟨h, hw⟩ := h
  · simp [h]
  · simp [h, hw]

/-- Settles O32, from the cases of a step as `STATUS` sees them. -/
theorem statusFieldsChangeOnlyAsListed : Obligations.StatusFieldsChangeOnlyAsListed := by
  refine ⟨fun s t hr h => ?_, fun s t => step_reset_status⟩
  obtain ⟨v, rest, hs, hst⟩ | ⟨hs, hst⟩ := step_status_cases hr h
  · exact ⟨hst.keyValid, hst.klenWritten, hst.klenKept, fun hne => .inl (hst.hValid hne),
      fun _ => hst.esticky, fun hno => absurd hs (hno v rest), hst.reserved⟩
  · have hnone : ∀ k, s.nextCommand? ≠ some (.aesKeyexp k) := by simp [nextCommand?_eq_none hs]
    obtain ⟨hkey, hklen, herr, hsticky, hres, hhv⟩ := fields_of_status_cases hst
    refine ⟨?_, fun k _ hk => absurd hk (hnone k), fun _ => hklen, fun hne => .inr (hhv hne),
      fun ⟨v, rest, hv⟩ => absurd hv (hs v rest), fun _ => ⟨herr, hsticky⟩, hres⟩
    rw [hkey]
    exact ⟨.inl, fun hk => hk.resolve_right fun ⟨k, _, he⟩ => hnone k he⟩

end Sys2Proof.Machine
end

section
/-! `KEY` is a staging register (10_state.md R23): with another content of it, every step but AES.KEYEXP's
answers the same next state, `KEY` apart. -/

namespace Sys2Proof.Machine

/-- The state with another content of `KEY`. -/
def State.withKey (s : State) (k : Bytes 32) : State := { s with key := k }

theorem withKey_nonce (s : State) (k : Bytes 32) : (s.withKey k).nonce = s.nonce := rfl

/-! ### No operand depends on `KEY` -/

theorem encBlock_withKey (s : State) (k : Bytes 32) :
    (s.withKey k).encBlock = s.encBlock := rfl

theorem decBlock_withKey (s : State) (k : Bytes 32) :
    (s.withKey k).decBlock = s.decBlock := rfl

theorem aadOperand_withKey (s : State) (k : Bytes 32) :
    (s.withKey k).aadOperand = s.aadOperand := rfl

theorem dataOperand_withKey (s : State) (k : Bytes 32) :
    (s.withKey k).dataOperand = s.dataOperand := rfl

theorem ctr_withKey (s : State) (k : Bytes 32) : (s.withKey k).ctr = s.ctr := by
  funext d; simp only [State.ctr, encBlock_withKey, withKey_nonce]

theorem gcmHash_withKey (s : State) (k : Bytes 32) :
    (s.withKey k).gcmHash = s.gcmHash := by
  funext d; simp only [State.gcmHash, State.subkey, encBlock_withKey, aadOperand_withKey]

theorem gcmTag_withKey (s : State) (k : Bytes 32) :
    (s.withKey k).gcmTag = s.gcmTag := by
  funext d; simp only [State.gcmTag, encBlock_withKey, gcmHash_withKey, withKey_nonce]

theorem putGcm_withKey (s : State) (k : Bytes 32) (c : List Byte) :
    (s.withKey k).putGcm c = (s.putGcm c).withKey k := by
  simp only [State.putGcm, State.subkey, encBlock_withKey, gcmHash_withKey]
  rfl

theorem putOutput_withKey (s : State) (k : Bytes 32) (v : List Byte) :
    (s.withKey k).putOutput v = (s.putOutput v).withKey k := rfl

theorem succeed_withKey (s : State) (k : Bytes 32) :
    (s.withKey k).succeed = s.succeed.withKey k := rfl

/-- A location the host may read does not hold `KEY`. -/
theorem locWord_withKey (s : State) (k : Bytes 32) {l : Loc} (hl : locAccess l ≠ .wo) (off : Nat) :
    locWord (s.withKey k) l off = locWord s l off := by
  cases l with
  | key => exact absurd rfl hl
  | _ => rfl

/-- No read shows `KEY`: it is write-only (20_memory.md R61, R70). -/
theorem hostRead32_withKey (s : State) (k : Bytes 32) (off : Nat) :
    hostRead32 (s.withKey k) off = hostRead32 s off := by
  unfold hostRead32
  cases locate off with
  | none => rfl
  | some l =>
    by_cases hl : locAccess l = .wo
    · simp only [if_pos hl]
    · simp only [if_neg hl, locWord_withKey s k hl]

/-! ### The commands -/

/-- The outcome whose next state, if it is one, has the content `k` in `KEY`. -/
def outcomeWithKey (k : Bytes 32) : Host.Outcome State Fault Refusal → Host.Outcome State Fault Refusal
  | .next t => .next (t.withKey k)
  | .fault r => .fault r
  | .refused r => .refused r

theorem outcomeWithKey_next (k : Bytes 32) (t : State) :
    outcomeWithKey k (.next t) = .next (t.withKey k) := rfl

theorem outcomeWithKey_ite (k : Bytes 32) (p : Prop) [Decidable p]
    (a b : Host.Outcome State Fault Refusal) :
    outcomeWithKey k (if p then a else b) =
      if p then outcomeWithKey k a else outcomeWithKey k b := by
  split <;> rfl

/-- Checks that do not depend on `KEY`, before a body that does not. -/
theorem checked_withKey {s : State} {k : Bytes 32} {cs : List (Bool × ResultCode)}
    {body body' : Unit → Host.Outcome State Fault Refusal}
    (h : body' () = outcomeWithKey k (body ())) :
    (s.withKey k).checked cs body' = outcomeWithKey k (s.checked cs body) := by
  unfold State.checked
  split
  · rfl
  · exact h

theorem execGcmSeal_withKey (s : State) (k : Bytes 32) :
    execGcmSeal (s.withKey k) = outcomeWithKey k (execGcmSeal s) := by
  refine checked_withKey (cs := [s.keyCheck, s.lengthCheck]) ?_
  simp only [ctr_withKey, gcmTag_withKey, dataOperand_withKey, putGcm_withKey]
  rfl

theorem execGcmOpen_withKey (s : State) (k : Bytes 32) :
    execGcmOpen (s.withKey k) = outcomeWithKey k (execGcmOpen s) := by
  refine checked_withKey (cs := [s.keyCheck, s.lengthCheck]) ?_
  simp only [ctr_withKey, gcmTag_withKey, dataOperand_withKey, putGcm_withKey, outcomeWithKey_ite]
  rfl

theorem execKwWrap_withKey (s : State) (k : Bytes 32) :
    execKwWrap (s.withKey k) = outcomeWithKey k (execKwWrap s) := by
  refine checked_withKey (cs := [s.keyCheck, s.wrapCheck]) ?_
  simp only [encBlock_withKey, dataOperand_withKey, putOutput_withKey, succeed_withKey,
    outcomeWithKey_next]

theorem execKwUnwrap_withKey (s : State) (k : Bytes 32) :
    execKwUnwrap (s.withKey k) = outcomeWithKey k (execKwUnwrap s) := by
  refine checked_withKey (cs := [s.keyCheck, s.unwrapCheck]) ?_
  simp only [decBlock_withKey, dataOperand_withKey, putOutput_withKey, succeed_withKey,
    outcomeWithKey_ite, outcomeWithKey_next]
  rfl

/-- No command but AES.KEYEXP depends on `KEY`. -/
theorem exec_withKey (s : State) (k : Bytes 32) {i : Instr} (hi : ∀ klen, i ≠ .aesKeyexp klen) :
    exec i (s.withKey k) = outcomeWithKey k (exec i s) := by
  cases i with
  | nop | ghLoadh => rfl
  | aesKeyexp klen => exact absurd rfl (hi klen)
  | aesEnc | aesDec | ghMulh | ghHash =>
    rw [exec, exec]
    refine checked_withKey ?_
    rfl
  | gcmSeal => exact execGcmSeal_withKey s k
  | gcmOpen => exact execGcmOpen_withKey s k
  | kwWrap => exact execKwWrap_withKey s k
  | kwUnwrap => exact execKwUnwrap_withKey s k

/-! ### The port -/

theorem command_withKey (s : State) (k : Bytes 32) {c : Word}
    (hc : ∀ klen, decode c ≠ .ok (.aesKeyexp klen)) :
    command c (s.withKey k) = outcomeWithKey k (command c s) := by
  unfold command
  cases hd : decode c with
  | ok i => exact exec_withKey s k fun klen hi => hc klen (hi ▸ hd)
  | error e => rfl

/-- A store to a location other than `KEY` leaves the new content of `KEY`; a store to `KEY` changes one
word of it. -/
theorem locStore_withKey (s : State) (k : Bytes 32) (l : Loc) (off : Nat) (v : Word) :
    ∃ k', locStore (s.withKey k) l off v = (locStore s l off v).withKey k' := by
  cases l with
  | key => exact ⟨writeLanes k off v, rfl⟩
  | _ => exact ⟨k, rfl⟩

/-- A step that does not run AES.KEYEXP depends on no content of `KEY` but for `KEY` itself. -/
theorem step_withKey {s t : State} (k : Bytes 32) (hcmd : ∀ klen, s.nextCommand? ≠ some (.aesKeyexp klen))
    (h : step s = .next t) : ∃ k', step (s.withKey k) = .next (t.withKey k') := by
  obtain ⟨hs, rfl⟩ | ⟨rest, hs, rfl⟩ | ⟨off, rest, hs, ho, rfl⟩ | ⟨off, v, rest, hs, ho, hl, rfl⟩ |
    ⟨off, v, rest, l, hs, hl, hc, rfl⟩ | ⟨v, rest, u, hs, hu, rfl⟩ := step_cases h
  · -- the idle step
    exact ⟨k, step_of_script_nil hs⟩
  · -- a reset
    exact ⟨0, step_reset hs⟩
  · -- a read
    refine ⟨k, ?_⟩
    rw [step_read (s := s.withKey k) hs ho, hostRead32_withKey]
    rfl
  · -- a bus error
    exact ⟨k, step_write_busError hs ho hl⟩
  · -- a store
    obtain ⟨k', hk'⟩ := locStore_withKey s k l (off - locOffset l) v
    refine ⟨k', ?_⟩
    rw [step_write_store (s := s.withKey k) hs hl hc, locStore_withScript, hk']
    rfl
  · -- a command
    have hdec : ∀ klen, decode v ≠ .ok (.aesKeyexp klen) := fun klen hd =>
      hcmd klen (nextCommand?_of_decode hs hd)
    have hkey := command_withKey { s with script := rest } k hdec
    rw [hu, outcomeWithKey_next] at hkey
    exact ⟨k, (step_write_cmd (s := s.withKey k) hs).trans (congrArg completed hkey)⟩

/-- Settles O35, by the cases of a step. -/
theorem stagedKeyHasNoEffectUntilExpanded : Obligations.StagedKeyHasNoEffectUntilExpanded :=
  fun _ _ k => step_withKey k

end Sys2Proof.Machine
end

section
/-! The port's events (20_memory.md sections 1 and 3): every well-formed one has a next state, and a
write to `CMD` runs the command its word encodes. -/

namespace Sys2Proof.Machine

/-! ### Every command has a next state -/

theorem exists_next_checked {s : State} {cs : List (Bool × ResultCode)}
    {body : Unit → Host.Outcome State Fault Refusal} (h : ∃ t, body () = .next t) :
    ∃ t, s.checked cs body = .next t := by
  unfold State.checked
  split
  · exact ⟨_, rfl⟩
  · exact h

theorem exists_next_ite {p : Prop} [Decidable p] (t u : State) :
    ∃ r, (if p then .next t else .next u : Host.Outcome State Fault Refusal) = .next r := by
  split
  · exact ⟨t, rfl⟩
  · exact ⟨u, rfl⟩

/-- No command stops the machine: an error is a next state too (60_exceptions.md R232). -/
theorem exec_exists_next (i : Instr) (s : State) : ∃ t, exec i s = .next t := by
  cases i with
  | nop | ghLoadh => exact ⟨_, rfl⟩
  | aesKeyexp klen =>
    rw [exec]
    by_cases h : klen < 3
    · exact ⟨_, execAesKeyexp_eq h s⟩
    · exact ⟨_, execAesKeyexp_reserved h s⟩
  | aesEnc | aesDec | ghMulh | ghHash | gcmSeal | kwWrap =>
    rw [exec]
    refine exists_next_checked ?_
    exact ⟨_, rfl⟩
  | gcmOpen | kwUnwrap =>
    rw [exec]
    refine exists_next_checked ?_
    exact exists_next_ite _ _

theorem command_exists_next (c : Word) (s : State) : ∃ t, command c s = .next t := by
  unfold command
  split
  · exact exec_exists_next _ s
  · exact ⟨_, rfl⟩

theorem hostWrite32_exists_next (s : State) (off : Nat) (v : Word) :
    ∃ t, hostWrite32 s off v = .next t := by
  unfold hostWrite32
  split
  · exact ⟨_, rfl⟩
  · obtain ⟨u, hu⟩ := command_exists_next v s
    exact ⟨_, completed_eq_next.2 ⟨u, hu, rfl⟩⟩
  · exact ⟨_, rfl⟩

/-! ### The events of the port -/

section
variable {s : State} {off : Nat}

theorem perform_read32_inside (h : off < Config.windowSize) :
    perform (.read32 off) s = .next (s.answered (hostRead32 s off)) := if_pos h

theorem perform_read32_outside (h : ¬ off < Config.windowSize) :
    perform (.read32 off) s = .fault .outsideBlock := if_neg h

theorem perform_write32_inside (v : Word) (h : off < Config.windowSize) :
    perform (.write32 off v) s = hostWrite32 s off v := if_pos h

theorem perform_write32_outside (v : Word) (h : ¬ off < Config.windowSize) :
    perform (.write32 off v) s = .fault .outsideBlock := if_neg h

end

/-- An event has a next state exactly when the spec gives it a meaning (20_memory.md R61, R66). -/
theorem wellFormed_iff_perform (e : HostEvent) (s : State) :
    e.wellFormed = true ↔ ∃ t, perform e s = .next t := by
  cases e with
  | read32 off =>
    by_cases h : off < Config.windowSize
    · simp [HostEvent.wellFormed, h, perform_read32_inside h]
    · simp [HostEvent.wellFormed, h, perform_read32_outside h]
  | write32 off v =>
    by_cases h : off < Config.windowSize
    · simp [HostEvent.wellFormed, h, perform_write32_inside v h, hostWrite32_exists_next]
    · simp [HostEvent.wellFormed, h, perform_write32_outside v h]
  | otherWidth bits => simp [HostEvent.wellFormed, perform]
  | reset => simp [HostEvent.wellFormed, perform]

/-- Settles O26: every command has a next state, so only the window and the width decide. -/
theorem wellFormedEventsComplete : Obligations.WellFormedEventsComplete := fun e s =>
  ⟨wellFormed_iff_perform e s,
    fun _ h => ⟨perform_read32_outside h.not_gt, fun v => perform_write32_outside v h.not_gt⟩,
    fun _ => rfl⟩

/-- Settles O19: the write reaches `CMD`, whose word is decoded and executed. -/
theorem stepRunsDecodedCommand : Obligations.StepRunsDecodedCommand := by
  intro s c rest i t hs hd ht
  have hcmd : command c { s with script := rest } = .next t := by
    simp only [command, hd, ht]
  exact (step_write_cmd hs).trans (congrArg completed hcmd)

end Sys2Proof.Machine
end

section
/-! The address map (20_memory.md section 1) byte by byte: the map of the statements is the one `locate`
searches, and what a read answers and a write stores, in the bytes of that map. -/

namespace Sys2Proof.Machine

open Sys2Proof.Claims

/-! ### The bytes of a location -/

/-- The bytes a location holds; `CMD` holds nothing (10_state.md R31). -/
def locByte (s : State) (l : Loc) : Nat → Byte :=
  match l with
  | .cmd => fun _ => 0
  | .status => lane s.status
  | .aadLen => lane s.aadLen
  | .inLen => lane s.inLen
  | .outLen => lane s.outLen
  | .key => byte s.key
  | .blkIn => byte s.blkIn
  | .blkOut => byte s.blkOut
  | .h => byte s.h
  | .y => byte s.y
  | .nonce => byte s.nonce
  | .tagIn => byte s.tagIn
  | .tag => byte s.tag
  | .aadBuf => s.aadBuf.read
  | .inBuf => s.inBuf.read
  | .outBuf => s.outBuf.read

theorem lane_bufWord (m : Memory) (j : Nat) {k : Nat} (hk : k < 4) :
    lane (bufWord m j) k = m.read (j + k) := by
  rw [bufWord, lane_wordOfLanes _ hk]

/-- The word read inside a location has the location's bytes in its lanes (20_memory.md R62, R64). -/
theorem lane_locWord (s : State) {l : Loc} {j k : Nat} (hj : j + 4 ≤ locSize l) (hk : k < 4) :
    lane (locWord s l j) k = locByte s l (j + k) := by
  cases l with
  | cmd => simp [locWord, locByte, lane]
  | status | aadLen | inLen | outLen =>
    obtain rfl : j = 0 := by simp only [locSize] at hj; omega
    rw [Nat.zero_add]
    rfl
  | key | blkIn | blkOut | h | y | nonce | tagIn | tag => exact lane_readLanes _ _ hk
  | aadBuf | inBuf | outBuf => exact lane_bufWord _ _ hk

/-- A store leaves every other location but `STATUS` as it was. -/
theorem locByte_locStore_other (s : State) {l l' : Loc} (k : Nat) (v : Word) (hne : l' ≠ l)
    (hst : l' ≠ .status) : locByte (locStore s l k v) l' = locByte s l' := by
  cases l with
  | cmd | status | outLen | blkOut | tag | outBuf => rfl
  | aadLen | inLen | key | blkIn | h | y | nonce | tagIn | aadBuf | inBuf =>
    cases l' <;> first | rfl | contradiction

/-- The bytes of a location after a word is stored in it: four lanes, the others as before (R63, R64). -/
theorem locByte_locStore_same {s : State} (haad : s.aadBuf.wf = true) (hin : s.inBuf.wf = true)
    {l : Loc} (hcmd : l ≠ .cmd) (hacc : locAccess l ≠ .ro) {k : Nat} (hk : k + 4 ≤ locSize l) (v : Word)
    {j : Nat} (hj : j < locSize l) :
    locByte (locStore s l k v) l j =
      if k ≤ j ∧ j < k + 4 then lane v (j - k) else locByte s l j := by
  cases l with
  | cmd => exact absurd rfl hcmd
  | status | outLen | blkOut | tag | outBuf => exact absurd rfl hacc
  | aadLen | inLen =>
    simp only [locSize] at hk hj
    obtain rfl : k = 0 := by omega
    rw [if_pos (by omega)]
    rfl
  | key | blkIn | h | y | nonce | tagIn => exact byte_writeLanes _ _ _ hj
  | aadBuf => exact read_bufStore haad _ _ _
  | inBuf => exact read_bufStore hin _ _ _

/-- A location the host may not write keeps its content (R70). -/
theorem locStore_of_ro (s : State) {l : Loc} (h : locAccess l = .ro) (k : Nat) (v : Word) :
    locStore s l k v = s := by
  cases l with
  | status | outLen | blkOut | tag | outBuf => rfl
  | cmd | aadLen | inLen | key | blkIn | h | y | nonce | tagIn | aadBuf | inBuf => exact nomatch h

/-- No host write reaches the round keys or the table (10_state.md R33 to R36). -/
theorem locStore_hidden (s : State) (l : Loc) (k : Nat) (v : Word) :
    (locStore s l k v).w = s.w ∧ (locStore s l k v).dw = s.dw ∧ (locStore s l k v).nk = s.nk ∧
      (locStore s l k v).m = s.m := by
  cases l <;> exact ⟨rfl, rfl, rfl, rfl⟩

/-- A word written to a location the host may read and write reads back (R70). -/
theorem locWord_locStore_same {s : State} (haad : s.aadBuf.wf = true) (hin : s.inBuf.wf = true)
    {l : Loc} (hacc : locAccess l = .rw) {k : Nat} (hk : k + 4 ≤ locSize l) (v : Word) :
    locWord (locStore s l k v) l k = v := by
  have hcmd : l ≠ .cmd := by rintro rfl; cases hacc
  have hro : locAccess l ≠ .ro := by rw [hacc]; decide
  refine word_ext fun i hi => ?_
  rw [lane_locWord _ hk hi, locByte_locStore_same haad hin hcmd hro hk v (by omega), if_pos (by omega),
    Nat.add_sub_cancel_left]

/-! ### The map of the statements and the map of the model -/

theorem locOffset_mod (l : Loc) : locOffset l % 4 = 0 := by cases l <;> rfl

/-- Every location is a whole number of words long, the buffers by the form of `BUF_MAX` (R61, R7). -/
theorem locSize_mod (l : Loc) : locSize l % 4 = 0 := by
  have hb := Config.bufMax_mod
  cases l with
  | aadBuf | inBuf | outBuf => rw [locSize]; omega
  | _ => rfl

/-- The row of the statements' map that describes a location. -/
def locRow (s : State) (l : Loc) : MapRow := ⟨locOffset l, locSize l, locAccess l, locByte s l⟩

theorem mapRows_eq (s : State) : mapRows s = addressMap.map (locRow s) := rfl

/-- The byte at `a` lies in a location exactly when the aligned word around it does. -/
theorem holdsWord_of_byte (l : Loc) (a : Nat) :
    decide (locOffset l ≤ a ∧ a < locOffset l + locSize l) = holdsWord (a - a % 4) l := by
  have hoff := locOffset_mod l
  have hsize := locSize_mod l
  rw [Bool.eq_iff_iff, holdsWord_iff, decide_eq_true_iff]
  omega

/-- The map byte at `a` belongs to the location that an access to the aligned word around `a` reaches. -/
theorem cellAt_eq (s : State) (a : Nat) :
    cellAt s a = (locate (a - a % 4)).map fun l => (locAccess l, locByte s l (a - locOffset l)) := by
  have hal : (a - a % 4) % 4 = 0 := by omega
  have hrow : (fun r : MapRow => decide (r.start ≤ a ∧ a < r.start + r.size)) ∘ locRow s =
      holdsWord (a - a % 4) := funext fun l => holdsWord_of_byte l a
  rw [cellAt, mapRows_eq, List.find?_map, hrow, locate, if_pos hal, Option.map_map]
  rfl

section
variable {off k : Nat}

theorem cellAt_add (s : State) (ha : off % 4 = 0) (hk : k < 4) :
    cellAt s (off + k) =
      (locate off).map fun l => (locAccess l, locByte s l (off + k - locOffset l)) := by
  have hword : off + k - (off + k) % 4 = off := by omega
  rw [cellAt_eq, hword]

theorem cellAt_of_locate (s : State) {l : Loc} (hl : locate off = some l) (hk : k < 4) :
    cellAt s (off + k) = some (locAccess l, locByte s l (off - locOffset l + k)) := by
  obtain ⟨ha, hlo, -⟩ := locate_eq_some.1 hl
  rw [cellAt_add s ha hk, hl, Option.map_some, Nat.sub_add_comm hlo]

/-- Behind an aligned mapped byte there is the word of a location. -/
theorem exists_locate_of_cellAt {s : State} {acc : Access} {b : Byte} (ha : off % 4 = 0)
    (h : cellAt s off = some (acc, b)) : ∃ l, locate off = some l ∧ locAccess l = acc := by
  rw [← Nat.add_zero off, cellAt_add s ha (by omega)] at h
  obtain ⟨l, hl, he⟩ := Option.map_eq_some_iff.1 h
  exact ⟨l, hl, congrArg Prod.fst he⟩

end

/-- An access is reachable exactly when it locates a word (R62, R66). -/
theorem reachable_iff (s : State) (off : Nat) : Reachable s off ↔ ∃ l, locate off = some l := by
  constructor
  · rintro ⟨ha, hmap⟩
    obtain ⟨⟨acc, b⟩, h⟩ := Option.isSome_iff_exists.1 (hmap 0 (by omega))
    obtain ⟨l, hl, -⟩ := exists_locate_of_cellAt ha h
    exact ⟨l, hl⟩
  · rintro ⟨l, hl⟩
    refine ⟨(locate_eq_some.1 hl).1, fun k hk => ?_⟩
    rw [cellAt_of_locate s hl hk]
    rfl

theorem locate_eq_none_of_not_reachable {s : State} {off : Nat} (h : ¬ Reachable s off) :
    locate off = none := by
  rw [reachable_iff] at h
  exact Option.eq_none_iff_forall_ne_some.2 fun l hl => h ⟨l, hl⟩

/-- `CMD` is the word at offset 0 and no other (R61). -/
theorem locate_eq_cmd {off : Nat} : locate off = some .cmd ↔ off = 0 := by
  rw [locate_eq_some]
  simp only [locOffset, locSize]
  omega

/-! ### Reads -/

theorem hostRead32_of_locate (s : State) {off : Nat} {l : Loc} (hl : locate off = some l) :
    hostRead32 s off = .data (if locAccess l = .wo then 0 else locWord s l (off - locOffset l)) := by
  rw [hostRead32, hl]

theorem hostRead32_of_locate_none (s : State) {off : Nat} (hl : locate off = none) :
    hostRead32 s off = .busError := by
  rw [hostRead32, hl]

/-- What a read answers does not depend on the fields of the bus. -/
theorem hostRead32_withBus (s : State) (script : List HostEvent) (answer : Option BusAnswer)
    (off : Nat) : hostRead32 { s with script := script, answer := answer } off = hostRead32 s off := by
  cases hl : locate off with
  | none => rw [hostRead32_of_locate_none _ hl, hostRead32_of_locate_none _ hl]
  | some l =>
    rw [hostRead32_of_locate _ hl, hostRead32_of_locate _ hl]
    cases l <;> rfl

/-- Lane `k` of the word a read answers is the map's byte, or 0 at a write-only location (R62, R70). -/
theorem lane_of_hostRead32 (s : State) {off : Nat} {l : Loc} (hl : locate off = some l) {k : Nat}
    (hk : k < 4) :
    lane (if locAccess l = .wo then 0 else locWord s l (off - locOffset l)) k =
      if locAccess l = .wo then 0 else locByte s l (off - locOffset l + k) := by
  split
  · simp [lane]
  · exact lane_locWord s (locate_eq_some.1 hl).2.2 hk

/-- Settles O27, through the location the access reaches. -/
theorem hostReadReturnsMapWord : Obligations.HostReadReturnsMapWord := by
  intro s off rest hs ho
  refine ⟨hostRead32 s off, step_read hs ho, fun hr => ?_, fun hr => ?_⟩
  · obtain ⟨l, hl⟩ := (reachable_iff s off).1 hr
    exact ⟨_, hostRead32_of_locate s hl, fun k hk =>
      ⟨_, _, cellAt_of_locate s hl hk, lane_of_hostRead32 s hl hk⟩⟩
  · exact hostRead32_of_locate_none s (locate_eq_none_of_not_reachable hr)

/-! ### Writes -/

/-- The map after a store: four bytes are the word's, every other byte outside `STATUS` is as before. -/
theorem cellAt_locStore {s : State} (haad : s.aadBuf.wf = true) (hin : s.inBuf.wf = true) {off : Nat}
    {l : Loc} (hl : locate off = some l) (hcmd : l ≠ .cmd) (hacc : locAccess l ≠ .ro) (v : Word)
    {a : Nat} (hst : a < 0x4 ∨ 0x8 ≤ a) :
    cellAt (locStore s l (off - locOffset l) v) a =
      if off ≤ a ∧ a < off + 4 then (cellAt s a).map fun c => (c.1, lane v (a - off))
      else cellAt s a := by
  obtain ⟨hal, hlo, hhi⟩ := locate_eq_some.1 hl
  have hword : off ≤ a ∧ a < off + 4 → a - a % 4 = off := by omega
  rw [cellAt_eq, cellAt_eq]
  cases hl' : locate (a - a % 4) with
  | none => simp
  | some l' =>
    obtain ⟨-, hlo', hhi'⟩ := locate_eq_some.1 hl'
    simp only [Option.map_some]
    by_cases hsame : l' = l
    · subst hsame
      rw [locByte_locStore_same haad hin hcmd hacc hhi v (by omega)]
      by_cases h : off ≤ a ∧ a < off + 4
      · rw [if_pos h, if_pos (by omega), Nat.sub_sub_sub_cancel_right hlo]
      · rw [if_neg h, if_neg (by omega)]
    · have hns : l' ≠ .status := by
        rintro rfl
        simp only [locOffset, locSize] at hlo' hhi'
        omega
      have hout : ¬ (off ≤ a ∧ a < off + 4) := fun h => by
        rw [hword h, hl] at hl'
        exact hsame (Option.some.inj hl').symm
      rw [if_neg hout, locByte_locStore_other s _ v hsame hns]

/-- The words of `H` are the four at 0x60 to 0x6C (R61). -/
theorem locate_eq_h_iff {off : Nat} {l : Loc} (hl : locate off = some l) :
    l = .h ↔ 0x60 ≤ off ∧ off < 0x70 := by
  have hal := (locate_eq_some.1 hl).1
  have hh : locate off = some .h ↔ 0x60 ≤ off ∧ off < 0x70 := by
    rw [locate_eq_some]
    simp only [locOffset, locSize]
    omega
  rw [← hh, hl, Option.some.injEq]

/-- Of the fields of `STATUS` a store changes at most `H_VALID`, cleared in a write to `H` (R63, R26). -/
theorem statusFields_locStore (s : State) {off : Nat} {l : Loc} (hl : locate off = some l) (k : Nat)
    (v : Word) :
    statusFields (locStore s l k v).status =
      if 0x60 ≤ off ∧ off < 0x70 then { statusFields s.status with hValid := false }
      else statusFields s.status := by
  rw [locStore_status, apply_ite statusFields, statusFields_putHValid]
  exact if_congr (locate_eq_h_iff hl) rfl rfl

/-- A write stores the word and leaves the bus's answer that it completed (R63). -/
theorem step_write_locStore {s : State} {off : Nat} {v : Word} {rest : List HostEvent} {l : Loc}
    (h : s.script = .write32 off v :: rest) (hl : locate off = some l) (hc : l ≠ .cmd) :
    step s =
      .next { locStore s l (off - locOffset l) v with script := rest, answer := some .done } := by
  rw [step_write_store h hl hc, locStore_withScript]
  rfl

/-- Settles O28, through the location the access reaches. -/
theorem hostWriteStoresLanes : Obligations.HostWriteStoresLanes := by
  intro s off v rest hs ho
  refine ⟨fun hr => ?_, fun h0 => ?_, fun hr h0 haad hin => ?_⟩
  · exact step_write_busError hs ho (locate_eq_none_of_not_reachable hr)
  · subst h0
    exact step_write_cmd hs
  · obtain ⟨l, hl⟩ := (reachable_iff s off).1 hr
    have hcmd : l ≠ .cmd := by
      rintro rfl
      exact h0 (locate_eq_cmd.1 hl)
    have hstep := step_write_locStore hs hl hcmd
    refine ⟨_, _, cellAt_of_locate s hl (k := 0) (by omega), fun hro => ?_, fun hro => ?_⟩
    · rwa [locStore_of_ro s hro] at hstep
    · obtain ⟨hw, hdw, hnk, hm⟩ := locStore_hidden s l (off - locOffset l) v
      exact ⟨_, hstep, rfl, rfl, hw, hdw, hnk, hm,
        fun a ha => cellAt_locStore haad hin hl hcmd hro v ha, statusFields_locStore s hl _ v⟩

/-! ### Bus errors -/

/-- An access that reaches no location changes nothing but the bus's own fields (R69). -/
theorem step_busError {s : State} {off : Nat} {rest : List HostEvent} (ho : off < Config.windowSize)
    (hl : locate off = none) :
    (s.script = .read32 off :: rest →
      step s = .next { s with script := rest, answer := some .busError }) ∧
    (∀ v, s.script = .write32 off v :: rest →
      step s = .next { s with script := rest, answer := some .busError }) := by
  refine ⟨fun hs => ?_, fun v hs => step_write_busError hs ho hl⟩
  rw [step_read hs ho, hostRead32_of_locate_none s hl]

/-- Settles O29: no location holds a misaligned word or one of a gap. -/
theorem busErrorChangesNothing : Obligations.BusErrorChangesNothing := by
  intro s off rest ho hgap
  refine step_busError ho (locate_eq_none.2 ?_)
  obtain hal | hgap := hgap
  · exact .inl hal
  · refine .inr fun l => ?_
    have hb := Config.bufMax_le
    cases l <;> simp only [locOffset, locSize] <;> omega

/-! ### A read after a write -/

theorem run_succ_of_step {M : Host.Core} {s t : M.State} (k : Nat) (h : M.step s = .next t) :
    M.run (k + 1) s = M.run k t := by
  simp only [Host.Core.run, h]

theorem runSteps_two {s t u : State} (hs : step s = .next t) (ht : step t = .next u) :
    runSteps 2 s = .next u :=
  (run_succ_of_step (M := Sys2Proof.core) 1 hs).trans (run_succ_of_step (M := Sys2Proof.core) 0 ht)

/-- A write and then a read of the same word: the read answers from the location as the write left it. -/
theorem runSteps_write_read {s : State} {off : Nat} {v : Word} {rest : List HostEvent} {l : Loc}
    (hs : s.script = .write32 off v :: .read32 off :: rest) (hl : locate off = some l)
    (hc : l ≠ .cmd) :
    ∃ t, runSteps 2 s = .next t ∧
      t.answer = some (hostRead32 (locStore s l (off - locOffset l) v) off) := by
  have hread := lt_windowSize_of_locate hl
  refine ⟨_, runSteps_two (step_write_locStore hs hl hc) (step_read rfl hread), ?_⟩
  rw [hostRead32_withBus]

/-- Settles O30, by the host's access to the location. -/
theorem readAfterWriteFollowsAccess : Obligations.ReadAfterWriteFollowsAccess := by
  intro s off v rest acc b hs haad hin hal hcell
  obtain ⟨l, hl, rfl⟩ := exists_locate_of_cellAt hal hcell
  obtain ⟨-, -, hhi⟩ := locate_eq_some.1 hl
  have hrun := runSteps_write_read hs hl
  refine ⟨fun _ hrw => ?_, fun hro => ?_, fun h0 hwo => ?_⟩
  · have hcmd : l ≠ .cmd := by rintro rfl; cases hrw
    have hread := locWord_locStore_same haad hin hrw hhi v
    simpa [hostRead32_of_locate _ hl, hrw, hread] using hrun hcmd
  · have hcmd : l ≠ .cmd := by rintro rfl; cases hro
    simpa only [locStore_of_ro s hro] using hrun hcmd
  · have hcmd : l ≠ .cmd := by
      rintro rfl
      exact h0 (locate_eq_cmd.1 hl)
    simpa [hostRead32_of_locate _ hl, hwo] using hrun hcmd

end Sys2Proof.Machine
end

section
/-! Which command touches which buffer (20_memory.md R71): what a command does to `OUTBUF` is an effect
that does not depend on its content, and the input buffers matter only below the lengths. -/

namespace Sys2Proof.Machine

open Sys2Proof.Claims

/-! ### Outcomes under a change of the state -/

/-- The outcome whose next state, if it is one, is changed by `f`. -/
def mapNext (f : State → State) : Host.Outcome State Fault Refusal → Host.Outcome State Fault Refusal
  | .next t => .next (f t)
  | .fault r => .fault r
  | .refused r => .refused r

theorem mapNext_next (f : State → State) (t : State) : mapNext f (.next t) = .next (f t) := rfl

theorem mapNext_ite (f : State → State) (p : Prop) [Decidable p]
    (a b : Host.Outcome State Fault Refusal) :
    mapNext f (if p then a else b) = if p then mapNext f a else mapNext f b := apply_ite _ _ _ _

/-- The same checks before a body that commutes with the change `f`, when recording an error does. -/
theorem checked_mapNext {f : State → State} {s : State} {cs : List (Bool × ResultCode)}
    {body body' : Unit → Host.Outcome State Fault Refusal}
    (hraise : ∀ c, (f s).raise c = f (s.raise c)) (h : body' () = mapNext f (body ())) :
    (f s).checked cs body' = mapNext f (s.checked cs body) := by
  unfold State.checked
  split
  · rw [hraise, mapNext_next]
  · exact h

/-! ### What a command can do to `OUTBUF` -/

/-- The commands that write `OUTBUF` (R71). -/
abbrev outputWriters : List Instr := [.gcmSeal, .gcmOpen, .kwWrap, .kwUnwrap]

/-- The state with another content of `OUTBUF`. -/
def State.withOutBuf (s : State) (o : Memory) : State := { s with outBuf := o }

/-- What a command does to `OUTBUF`: nothing, an output stored from byte 0 on, or all of it cleared. -/
inductive OutputEffect where
  | keep
  | store (v : List Byte)
  | clear

/-- `OUTBUF` after the effect. -/
def OutputEffect.apply : OutputEffect → Memory → Memory
  | .keep, o => o
  | .store v, o => memWrite o 0 v
  | .clear, _ => Memory.zeros

/-- The effect writes the byte at offset `k`. -/
def OutputEffect.writes : OutputEffect → Nat → Prop
  | .keep, _ => False
  | .store v, k => k < v.length
  | .clear, _ => True

namespace OutputEffect

theorem wf_apply (e : OutputEffect) {o : Memory} (ho : o.wf = true) : (e.apply o).wf = true := by
  cases e with
  | keep => exact ho
  | store v => exact wf_memWrite ho 0 v
  | clear => exact wf_zeros

/-- A byte that is written does not depend on what `OUTBUF` held. -/
theorem read_apply_of_writes {e : OutputEffect} {o o' : Memory} (ho : o.wf = true)
    (ho' : o'.wf = true) {k : Nat} (h : e.writes k) : (e.apply o').read k = (e.apply o).read k := by
  cases e with
  | keep => exact h.elim
  | store v =>
    have hk : 0 ≤ k ∧ k < 0 + v.length := ⟨Nat.zero_le k, by rwa [Nat.zero_add]⟩
    rw [apply, apply, read_memWrite ho, read_memWrite ho', if_pos hk, if_pos hk]
  | clear => rfl

/-- A byte that is not written keeps its content. -/
theorem read_apply_of_not_writes {e : OutputEffect} {o : Memory} (ho : o.wf = true) {k : Nat}
    (h : ¬ e.writes k) : (e.apply o).read k = o.read k := by
  cases e with
  | keep => rfl
  | store v =>
    have hk : ¬ (0 ≤ k ∧ k < 0 + v.length) := fun hk => h (by rw [writes]; omega)
    rw [apply, read_memWrite ho, if_neg hk]
  | clear => exact absurd trivial h

end OutputEffect

/-- The effect `e` writes the bytes of `OUTBUF` that the statements say the command `i` wrote when it
ended with the result and the output length of `t`. -/
structure EffectMatches (i : Instr) (t : State) (e : OutputEffect) : Prop where
  writes_iff : ∀ k, WroteOutputByte i t k ↔ e.writes k
  keeps : i ∉ outputWriters → e = .keep

/-- The outcomes `run o` of `i` for the contents `o` of `OUTBUF`: the next state is the same but for
`OUTBUF`, on which the command has one effect. -/
def OutputFollows (i : Instr) (run : Memory → Host.Outcome State Fault Refusal) : Prop :=
  ∃ t e, (∀ o, run o = .next (t.withOutBuf (e.apply o))) ∧ EffectMatches i t e

section
variable {i : Instr} {run : Memory → Host.Outcome State Fault Refusal} {t : State}

theorem outputFollows_keep (hrun : ∀ o, run o = .next (t.withOutBuf o))
    (h : i ∉ outputWriters ∨ t.err = 3 ∨ t.err = 4) : OutputFollows i run := by
  refine ⟨t, .keep, hrun, fun k => iff_of_false ?_ not_false, fun _ => rfl⟩
  rintro ⟨hi, herr⟩
  obtain hno | h3 | h4 := h
  · exact hno hi
  · simp [h3] at herr
  · simp [h4] at herr

/-- A success stores its output, whose length `OUT_LEN` can hold (42_gcm.md R175, 43_keywrap.md R196). -/
theorem outputFollows_store {v : List Byte} (hi : i ∈ outputWriters) (hv : v.length < 2 ^ 32)
    (hrun : ∀ o, run o = .next ((t.withOutBuf o).putOutput v).succeed) : OutputFollows i run := by
  have herr : (t.putOutput v).succeed.err = 0 := succeed_err _
  have hlen : (t.putOutput v).succeed.outLen.toNat = v.length := by
    rw [succeed_outLen, putOutput_outLen, BitVec.toNat_ofNat, Nat.mod_eq_of_lt hv]
  refine ⟨(t.putOutput v).succeed, .store v, hrun, fun k => ?_, fun hno => absurd hi hno⟩
  rw [WroteOutputByte, OutputEffect.writes, herr, hlen]
  refine ⟨?_, fun hk => ⟨hi, .inl ⟨rfl, hk⟩⟩⟩
  rintro ⟨-, ⟨-, hk⟩ | h1 | h2⟩
  · exact hk
  · exact absurd h1 (by decide)
  · exact absurd h2 (by decide)

/-- An outcome error clears all of `OUTBUF` (60_exceptions.md R225). -/
theorem outputFollows_clear {c : ResultCode} (hi : i ∈ outputWriters)
    (hc : errValue c = 1 ∨ errValue c = 2)
    (hrun : ∀ o, run o = .next ((t.withOutBuf o).raiseOutcome c)) : OutputFollows i run := by
  refine ⟨t.raiseOutcome c, .clear, hrun, fun _ => iff_of_true ⟨hi, .inr ?_⟩ trivial,
    fun hno => absurd hi hno⟩
  rwa [raiseOutcome_err]

/-- Behind checks that each raise a precondition error, only the body has to be looked at. -/
theorem outputFollows_checked {s : State} {cs : List (Bool × ResultCode)}
    (hcs : ∀ pc ∈ cs, pc.2 = .config ∨ pc.2 = .length)
    (hbody : (∀ pc ∈ cs, pc.1 = true) → OutputFollows i run) :
    OutputFollows i fun o => (s.withOutBuf o).checked cs fun _ => run o := by
  cases hf : firstFailure cs with
  | none =>
    have hpass := firstFailure_eq_none.1 hf
    simpa only [checked_passes _ _ hpass] using hbody hpass
  | some c =>
    refine outputFollows_keep (t := s.raise c) (fun o => checked_fails _ _ hf) (.inr ?_)
    obtain rfl | rfl := hcs _ (firstFailure_mem hf)
    · exact .inl (raise_err s _)
    · exact .inr (raise_err s _)

end

/-! ### Each command's effect on `OUTBUF` -/

theorem length_ctr_lt (s : State) : (s.ctr s.dataOperand).length < 2 ^ 32 := by
  rw [length_ctr, length_dataOperand]
  exact s.inLen.isLt

theorem outputFollows_gcmSeal (s : State) :
    OutputFollows .gcmSeal fun o => execGcmSeal (s.withOutBuf o) := by
  refine outputFollows_checked (cs := [s.keyCheck, s.lengthCheck]) (by simp) fun _ => ?_
  refine outputFollows_store
    (t := { s.putGcm (s.ctr s.dataOperand) with tag := s.gcmTag (s.ctr s.dataOperand) }) (by decide)
    (length_ctr_lt s) fun o => ?_
  simp only [State.withOutBuf, ctr_withOutBuf, gcmTag_withOutBuf, dataOperand_withOutBuf,
    putGcm_withOutBuf]
  rfl

theorem outputFollows_gcmOpen (s : State) :
    OutputFollows .gcmOpen fun o => execGcmOpen (s.withOutBuf o) := by
  refine outputFollows_checked (cs := [s.keyCheck, s.lengthCheck]) (by simp) fun _ => ?_
  by_cases htag : s.gcmTag s.dataOperand = s.tagIn
  · refine outputFollows_store (t := s.putGcm s.dataOperand) (by decide) (length_ctr_lt s) fun o => ?_
    simp only [State.withOutBuf, ctr_withOutBuf, gcmTag_withOutBuf, dataOperand_withOutBuf,
      putGcm_withOutBuf, if_pos htag]
  · refine outputFollows_clear (t := s.putGcm s.dataOperand) (c := .authFailed) (by decide) (.inl rfl)
      fun o => ?_
    simp only [State.withOutBuf, gcmTag_withOutBuf, dataOperand_withOutBuf, putGcm_withOutBuf,
      if_neg htag]

theorem outputFollows_kwWrap (s : State) :
    OutputFollows .kwWrap fun o => execKwWrap (s.withOutBuf o) := by
  refine outputFollows_checked (cs := [s.keyCheck, s.wrapCheck]) (by simp) fun hpass => ?_
  have hlen : s.wrapLengthOk = true := hpass s.wrapCheck (by simp)
  have hfits := (length_kwWrap_le s.encBlock hlen).trans_lt Config.bufMax_lt_word
  exact outputFollows_store (by decide) hfits fun _ => rfl

theorem outputFollows_kwUnwrap (s : State) :
    OutputFollows .kwUnwrap fun o => execKwUnwrap (s.withOutBuf o) := by
  refine outputFollows_checked (cs := [s.keyCheck, s.unwrapCheck]) (by simp) fun hpass => ?_
  have hlen : s.unwrapLengthOk = true := hpass s.unwrapCheck (by simp)
  by_cases hiv : (kwUnwrap s.decBlock s.dataOperand).1 = integrityVector
  · have hfits := (length_kwUnwrap_le s.decBlock hlen).trans_lt Config.bufMax_lt_word
    exact outputFollows_store (by decide) hfits fun _ => if_pos hiv
  · exact outputFollows_clear (by decide) (.inr rfl) fun _ => if_neg hiv

/-- A command that writes no `OUTBUF` does not depend on it. -/
theorem exec_withOutBuf (s : State) (o : Memory) {i : Instr} (hi : i ∉ outputWriters) :
    exec i (s.withOutBuf o) = mapNext (State.withOutBuf · o) (exec i s) := by
  cases i with
  | nop | ghLoadh => rfl
  | aesKeyexp klen =>
    rw [exec, exec, execAesKeyexp, execAesKeyexp]
    split <;> rfl
  | aesEnc | aesDec | ghMulh | ghHash =>
    rw [exec, exec]
    refine checked_mapNext (f := (State.withOutBuf · o)) (fun _ => rfl) ?_
    rfl
  | gcmSeal | gcmOpen | kwWrap | kwUnwrap => exact absurd (by decide) hi

/-- Every command has one effect on `OUTBUF`, whatever that holds, and otherwise does not depend on it. -/
theorem outputFollows_exec (i : Instr) (s : State) :
    OutputFollows i fun o => exec i (s.withOutBuf o) := by
  cases i with
  | gcmSeal => exact outputFollows_gcmSeal s
  | gcmOpen => exact outputFollows_gcmOpen s
  | kwWrap => exact outputFollows_kwWrap s
  | kwUnwrap => exact outputFollows_kwUnwrap s
  | nop | aesKeyexp | aesEnc | aesDec | ghLoadh | ghMulh | ghHash =>
    obtain ⟨t, ht⟩ := exec_exists_next _ s
    refine outputFollows_keep (t := t) (fun o => ?_) (.inl (by simp))
    rw [exec_withOutBuf s o (by simp), ht, mapNext_next]

/-! ### No command depends on the input buffers beyond its operands -/

/-- The commands that read `AADBUF` (R71). -/
abbrev aadReaders : List Instr := [.ghHash, .gcmSeal, .gcmOpen]

/-- The commands that read `INBUF` (R71). -/
abbrev dataReaders : List Instr := [.ghHash, .gcmSeal, .gcmOpen, .kwWrap, .kwUnwrap]

/-- The state with other contents of `AADBUF` and `INBUF`. -/
def State.withInputs (s : State) (a b : Memory) : State := { s with aadBuf := a, inBuf := b }

section
variable {s : State} {a b : Memory}

theorem aadOperand_withInputs (h : ∀ k, k < s.aadLen.toNat → a.read k = s.aadBuf.read k) :
    (s.withInputs a b).aadOperand = s.aadOperand :=
  memRead_congr fun k hk => by
    rw [Nat.zero_add]
    exact h k hk

theorem dataOperand_withInputs (h : ∀ k, k < s.inLen.toNat → b.read k = s.inBuf.read k) :
    (s.withInputs a b).dataOperand = s.dataOperand :=
  memRead_congr fun k hk => by
    rw [Nat.zero_add]
    exact h k hk

theorem encBlock_withInputs : (s.withInputs a b).encBlock = s.encBlock := rfl

theorem decBlock_withInputs : (s.withInputs a b).decBlock = s.decBlock := rfl

theorem nonce_withInputs : (s.withInputs a b).nonce = s.nonce := rfl

theorem tagIn_withInputs : (s.withInputs a b).tagIn = s.tagIn := rfl

theorem ctr_withInputs : (s.withInputs a b).ctr = s.ctr := by
  funext d
  simp only [State.ctr, encBlock_withInputs, nonce_withInputs]

theorem gcmHash_withInputs (ha : (s.withInputs a b).aadOperand = s.aadOperand) :
    (s.withInputs a b).gcmHash = s.gcmHash := by
  funext d
  simp only [State.gcmHash, State.subkey, encBlock_withInputs, ha]

theorem gcmTag_withInputs (ha : (s.withInputs a b).aadOperand = s.aadOperand) :
    (s.withInputs a b).gcmTag = s.gcmTag := by
  funext d
  simp only [State.gcmTag, encBlock_withInputs, gcmHash_withInputs ha, nonce_withInputs]

theorem putGcm_withInputs (ha : (s.withInputs a b).aadOperand = s.aadOperand) (c : List Byte) :
    (s.withInputs a b).putGcm c = (s.putGcm c).withInputs a b := by
  simp only [State.putGcm, State.subkey, encBlock_withInputs, gcmHash_withInputs ha]
  rfl

theorem putOutput_withInputs (v : List Byte) :
    (s.withInputs a b).putOutput v = (s.putOutput v).withInputs a b := rfl

theorem succeed_withInputs : (s.withInputs a b).succeed = s.succeed.withInputs a b := rfl

theorem raiseOutcome_withInputs (c : ResultCode) :
    (s.withInputs a b).raiseOutcome c = (s.raiseOutcome c).withInputs a b := rfl

/-- A command's checks do not read the input buffers. -/
theorem checked_withInputs {cs : List (Bool × ResultCode)}
    {body body' : Unit → Host.Outcome State Fault Refusal}
    (h : body' () = mapNext (State.withInputs · a b) (body ())) :
    (s.withInputs a b).checked cs body' = mapNext (State.withInputs · a b) (s.checked cs body) :=
  checked_mapNext (f := (State.withInputs · a b)) (fun _ => rfl) h

/-- With input buffers that give a command the same operands, the result is the same. -/
theorem exec_withInputs {i : Instr}
    (ha : i ∈ aadReaders → (s.withInputs a b).aadOperand = s.aadOperand)
    (hb : i ∈ dataReaders → (s.withInputs a b).dataOperand = s.dataOperand) :
    exec i (s.withInputs a b) = mapNext (State.withInputs · a b) (exec i s) := by
  cases i with
  | nop | ghLoadh => rfl
  | aesKeyexp klen =>
    rw [exec, exec, execAesKeyexp, execAesKeyexp]
    split <;> rfl
  | aesEnc | aesDec | ghMulh =>
    rw [exec, exec]
    refine checked_withInputs ?_
    rfl
  | ghHash =>
    rw [exec, exec]
    refine checked_withInputs (cs := [s.tableCheck, s.lengthCheck]) ?_
    simp only [ha (by decide), hb (by decide)]
    rfl
  | gcmSeal =>
    have ha := ha (by decide)
    rw [exec, exec]
    refine checked_withInputs (cs := [s.keyCheck, s.lengthCheck]) ?_
    simp only [hb (by decide), ctr_withInputs, gcmTag_withInputs ha, putGcm_withInputs ha]
    rfl
  | gcmOpen =>
    have ha := ha (by decide)
    rw [exec, exec]
    refine checked_withInputs (cs := [s.keyCheck, s.lengthCheck]) ?_
    simp only [hb (by decide), ctr_withInputs, gcmTag_withInputs ha, putGcm_withInputs ha,
      tagIn_withInputs, mapNext_ite, mapNext_next, putOutput_withInputs, succeed_withInputs,
      raiseOutcome_withInputs]
  | kwWrap =>
    rw [exec, exec]
    refine checked_withInputs (cs := [s.keyCheck, s.wrapCheck]) ?_
    simp only [hb (by decide), encBlock_withInputs, mapNext_next, putOutput_withInputs,
      succeed_withInputs]
  | kwUnwrap =>
    rw [exec, exec]
    refine checked_withInputs (cs := [s.keyCheck, s.unwrapCheck]) ?_
    simp only [hb (by decide), decBlock_withInputs, mapNext_ite, mapNext_next, putOutput_withInputs,
      succeed_withInputs, raiseOutcome_withInputs]

end

/-- With input buffers that agree below the lengths, a command ends in the same state but for them. -/
theorem exec_withInputs_of_agree {i : Instr} {s t : State} (h : exec i s = .next t) {a b : Memory}
    (ha : i ∈ aadReaders → ∀ k, k < s.aadLen.toNat → a.read k = s.aadBuf.read k)
    (hb : i ∈ dataReaders → ∀ k, k < s.inLen.toNat → b.read k = s.inBuf.read k) :
    exec i (s.withInputs a b) = .next (t.withInputs a b) := by
  rw [exec_withInputs (fun hi => aadOperand_withInputs (ha hi))
    fun hi => dataOperand_withInputs (hb hi), h, mapNext_next]

/-- No command writes `AADBUF` or `INBUF`: with the contents they have, it leaves those contents. -/
theorem exec_keeps_inputs {i : Instr} {s t : State} (h : exec i s = .next t) :
    t.aadBuf = s.aadBuf ∧ t.inBuf = s.inBuf := by
  have hsame : exec i s = .next (t.withInputs s.aadBuf s.inBuf) :=
    exec_withInputs_of_agree h (fun _ _ _ => rfl) fun _ _ _ => rfl
  have ht : t = t.withInputs s.aadBuf s.inBuf := Host.Outcome.next.inj (h.symm.trans hsame)
  exact ⟨(congrArg State.aadBuf ht :), (congrArg State.inBuf ht :)⟩

/-- Settles O33, by each command's effect on `OUTBUF` and its operands. -/
theorem commandsTouchOnlyTheirBuffers : Obligations.CommandsTouchOnlyTheirBuffers := by
  intro i s t h
  obtain ⟨haad, hin⟩ := exec_keeps_inputs h
  obtain ⟨u, e, hrun, hwrites, hkeeps⟩ := outputFollows_exec i s
  obtain rfl : t = u.withOutBuf (e.apply s.outBuf) :=
    Host.Outcome.next.inj (h.symm.trans (hrun s.outBuf))
  refine ⟨haad, hin, fun hi => ?_, fun o => ⟨e.apply o, hrun o, fun hi => ?_, fun hs ho => ?_⟩,
    fun a b => exec_withInputs_of_agree h⟩
  · rw [hkeeps hi]
    rfl
  · rw [hkeeps hi]
    rfl
  · refine ⟨e.wf_apply ho, fun k => ⟨fun hk => ?_, fun hk => ?_⟩⟩
    · exact OutputEffect.read_apply_of_writes hs ho ((hwrites k).1 hk)
    · exact OutputEffect.read_apply_of_not_writes ho fun hw => hk ((hwrites k).2 hw)

end Sys2Proof.Machine
end

section
/-! The decoder and the encoder (30_encoding.md R90 to R97): a row of the opcode map selects exactly the words
that encode what it reads from them. From that, which words are legal, and what a write of an illegal one
does. -/

namespace Sys2Proof.Machine

open Sys2Proof.Claims

/-! ### The rows of the opcode map -/

/-- A field taken out of a word and put back into it, whatever stood there in between. -/
theorem putField_putField_extract (c : Word) (lo : Nat) {n : Nat} (v : BitVec n) :
    putField (putField c lo v) lo (c.extractLsb' lo n) = c := by
  refine BitVec.eq_of_getLsbD_eq fun i hi => ?_
  rw [getLsbD_putField _ _ _ hi, getLsbD_putField _ _ _ hi]
  split
  · rename_i hfield
    have hlt : i - lo < n := by omega
    rw [BitVec.getLsbD_extractLsb', Nat.add_sub_cancel' hfield.1]
    simp only [hlt, decide_true, Bool.true_and]
  · rfl

/-- The mask of the AES.KEYEXP row clears `KLEN` and nothing else (R93). -/
theorem and_keyexpMask (c : Word) : c &&& 0xFFFFFCFF = putField c 8 (0 : BitVec 2) := by
  simp [putField]

/-- The word of AES.KEYEXP is opcode 0x01 with `KLEN` in its field (R93, R94). -/
theorem encode_aesKeyexp (v : BitVec 2) : encode (.aesKeyexp v.toNat) = putField 1 8 v := by
  revert v
  decide

/-- The AES.KEYEXP row selects a word exactly when all but its `KLEN` is the row's `match`. -/
theorem and_keyexpMask_eq_one_iff (c : Word) :
    c &&& 0xFFFFFCFF = 1 ↔ encode (.aesKeyexp (klenField c)) = c := by
  rw [and_keyexpMask, klenField, encode_aesKeyexp]
  constructor
  · intro h
    rw [← h, putField_putField_extract]
  · intro h
    rw [← h]
    generalize c.extractLsb' 8 2 = v
    revert v
    decide

/-- A row of the map selects a word exactly when the word encodes the command the row reads from it. -/
theorem selects_iff_encode {r : OpcodeRow} (hr : r ∈ opcodeMap) (c : Word) :
    r.selects c = true ↔ encode (r.instr c) = c := by
  have hexact (m : Word) : c &&& 0xFFFFFFFF = m ↔ m = c := by
    rw [show (0xFFFFFFFF : Word) = BitVec.allOnes 32 from rfl, BitVec.and_allOnes, eq_comm]
  simp only [opcodeMap, List.mem_cons, List.not_mem_nil, or_false] at hr
  rw [OpcodeRow.selects, beq_iff_eq]
  rcases hr with rfl | rfl | rfl | rfl | rfl | rfl | rfl | rfl | rfl | rfl | rfl
  case inr.inl => exact and_keyexpMask_eq_one_iff c
  all_goals exact hexact _

theorem klenField_le (c : Word) : klenField c ≤ 3 := by
  have := (c.extractLsb' 8 2).isLt
  unfold klenField
  omega

/-- Every row reads a well-formed command from every word. -/
theorem wellFormed_instr {r : OpcodeRow} (hr : r ∈ opcodeMap) (c : Word) :
    (r.instr c).wellFormed = true := by
  simp only [opcodeMap, List.mem_cons, List.not_mem_nil, or_false] at hr
  rcases hr with rfl | rfl | rfl | rfl | rfl | rfl | rfl | rfl | rfl | rfl | rfl
  case inr.inl => exact decide_eq_true (klenField_le c)
  all_goals rfl

/-! ### The decoder and the encoder -/

/-- What the decoder answers is read by a row that selects the word. -/
theorem exists_row_of_decode {c : Word} {i : Instr} (h : decode c = .ok i) :
    ∃ r ∈ opcodeMap, r.selects c = true ∧ r.instr c = i := by
  unfold decode at h
  split at h
  · rename_i r hr
    have hsel := List.find?_some (p := fun r : OpcodeRow => r.selects c) hr
    exact ⟨r, List.mem_of_find?_eq_some hr, hsel, Except.ok.inj h⟩
  · cases h

/-- The word of a well-formed command decodes to it, with every `KLEN` (R97). -/
theorem decode_encode {i : Instr} (h : i.wellFormed = true) : decode (encode i) = .ok i := by
  cases i with
  | aesKeyexp klen =>
    have hklen : klen ≤ 3 := of_decide_eq_true h
    interval_cases klen <;> rfl
  | nop | aesEnc | aesDec | ghLoadh | ghMulh | ghHash | gcmSeal | gcmOpen | kwWrap | kwUnwrap => rfl

/-- Settles O17: the row that decodes a word selects only the word of what it reads from it. -/
theorem decodeAndEncodeAgree : Obligations.DecodeAndEncodeAgree := by
  intro c i
  constructor
  · intro h
    obtain ⟨r, hr, hsel, rfl⟩ := exists_row_of_decode h
    exact ⟨wellFormed_instr hr c, (selects_iff_encode hr c).1 hsel⟩
  · rintro ⟨hwf, rfl⟩
    exact decode_encode hwf

/-- Settles O18, the legal words as encodings and the two illegal ones by evaluation. -/
theorem listedWordsDecode : Obligations.ListedWordsDecode :=
  ⟨decode_encode (i := .nop) rfl, decode_encode (i := .aesKeyexp 2) rfl,
    decode_encode (i := .ghMulh) rfl, decode_encode (i := .gcmOpen) rfl,
    decode_encode (i := .kwWrap) rfl, rfl, rfl⟩

/-! ### The illegal words -/

/-- A word is illegal exactly when it encodes no well-formed command. -/
theorem decode_error_iff (c : Word) :
    (∃ e, decode c = .error e) ↔ ¬ ∃ i, i.wellFormed = true ∧ encode i = c := by
  simp only [← decodeAndEncodeAgree c]
  cases decode c <;> simp

/-- Bits 7:0 of a word as a number. -/
theorem toNat_lowByte (c : Word) : (c.extractLsb' 0 8).toNat = c.toNat % 256 := by
  rw [BitVec.extractLsb'_toNat, Nat.shiftRight_zero]

/-- The bits of a word from `lo` on are zero exactly when the word is below `2 ^ lo`. -/
theorem extractLsb'_eq_zero_iff (c : Word) {lo : Nat} (hlo : lo ≤ 32) :
    c.extractLsb' lo (32 - lo) = 0 ↔ c.toNat < 2 ^ lo := by
  have hc : c.toNat < 2 ^ lo * 2 ^ (32 - lo) := by
    rw [← pow_add, Nat.add_sub_cancel' hlo]
    exact c.isLt
  rw [← BitVec.toNat_inj, BitVec.extractLsb'_toNat, Nat.shiftRight_eq_div_pow,
    Nat.mod_eq_of_lt (Nat.div_lt_of_lt_mul hc)]
  simp [Nat.div_eq_zero_iff]

theorem toNat_encode_aesKeyexp {klen : Nat} (h : klen ≤ 3) :
    (encode (.aesKeyexp klen)).toNat = 1 + 256 * klen := by
  interval_cases klen <;> rfl

/-- The commands of format N: no operand stands in their word (R91). -/
def formatN : List Instr :=
  [.nop, .aesEnc, .aesDec, .ghLoadh, .ghMulh, .ghHash, .gcmSeal, .gcmOpen, .kwWrap, .kwUnwrap]

theorem wellFormed_of_mem_formatN : ∀ i ∈ formatN, i.wellFormed = true := by decide

/-- The legal words: those of format N, and opcode 0x01 with nothing above `KLEN` (R95). -/
theorem exists_encode_iff (c : Word) :
    (∃ i, i.wellFormed = true ∧ encode i = c) ↔
      c.toNat ∈ formatN.map (fun i => (encode i).toNat) ∨ (c.toNat % 256 = 0x01 ∧ c.toNat < 1024) := by
  constructor
  · rintro ⟨i, hwf, rfl⟩
    cases i with
    | aesKeyexp klen =>
      have hklen : klen ≤ 3 := of_decide_eq_true hwf
      rw [toNat_encode_aesKeyexp hklen]
      omega
    | nop | aesEnc | aesDec | ghLoadh | ghMulh | ghHash | gcmSeal | gcmOpen | kwWrap | kwUnwrap =>
      exact .inl (List.mem_map_of_mem (by decide))
  · rintro (hc | ⟨hop, hlt⟩)
    · obtain ⟨i, hi, h⟩ := List.mem_map.1 hc
      exact ⟨i, wellFormed_of_mem_formatN i hi, BitVec.eq_of_toNat_eq h⟩
    · have hklen : c.toNat / 256 ≤ 3 := by omega
      refine ⟨.aesKeyexp (c.toNat / 256), decide_eq_true hklen, BitVec.eq_of_toNat_eq ?_⟩
      rw [toNat_encode_aesKeyexp hklen]
      omega

theorem map_encode_formatN : formatN.map (fun i => (encode i).toNat) =
    [0x00, 0x02, 0x03, 0x10, 0x11, 0x12, 0x20, 0x21, 0x30, 0x31] := rfl

/-- A write of an illegal word completes, and records ILLEGAL_CMD in `STATUS` alone (R95). -/
theorem step_write_illegal {s : State} {c : Word} {rest : List HostEvent} {e : DecodeError}
    (h : s.script = .write32 (locOffset .cmd) c :: rest) (hd : decode c = .error e) :
    step s = .next (({ s with script := rest }.raise .illegalCmd).answered .done) := by
  rw [step_write_cmd h, command, hd]
  rfl

/-- Settles O15: the legal words are the encodings, and an illegal one raises ILLEGAL_CMD. -/
theorem illegalWordsExecuteNothing : Obligations.IllegalWordsExecuteNothing := by
  constructor
  · intro c
    rw [decode_error_iff, exists_encode_iff, map_encode_formatN, toNat_lowByte, Ne,
      extractLsb'_eq_zero_iff c (lo := 8) (by omega), Ne, Ne,
      extractLsb'_eq_zero_iff c (lo := 10) (by omega)]
    simp only [List.mem_cons, List.not_mem_nil, or_false]
    omega
  · rintro c s rest hs ⟨e, hd⟩
    refine ⟨_, step_write_illegal hs hd, rfl, ?_⟩
    exact statusFields_statusError s.status .illegalCmd

end Sys2Proof.Machine
end

section
/-! Host scripts (30_encoding.md R100 to R102): what the writes that carry a string leave in the location they
write, and from that what `ldaad` and `ldkey` do. -/

namespace Sys2Proof.Machine

open Sys2Proof.Claims

/-! ### Runs in parts -/

/-- A run that reaches a state goes on as the run from that state. -/
theorem run_add {M : Host.Core} {j k : Nat} {s t : M.State} (h : M.run j s = .next t) :
    M.run (j + k) s = M.run k t := by
  induction j generalizing s with
  | zero =>
    obtain rfl : s = t := Host.Outcome.next.inj h
    rw [Nat.zero_add]
  | succ j ih =>
    cases hstep : M.step s with
    | next u =>
      rw [run_succ_of_step j hstep] at h
      rw [Nat.add_right_comm, run_succ_of_step (j + k) hstep]
      exact ih h
    | fault r | refused r => simp [Host.Core.run, hstep] at h

theorem runSteps_succ {j : Nat} {s t u : State} (h : runSteps j s = .next t) (ht : step t = .next u) :
    runSteps (j + 1) s = .next u :=
  (run_add h).trans (run_succ_of_step (M := Sys2Proof.core) 0 ht)

/-! ### The writes of `ldb` -/

/-- Word `k` of a string: its bytes `4k .. 4k+3` in lanes 0 to 3, padded with 0x00 (R101). -/
def stringWord (d : List Byte) (k : Nat) : Word := wordOfLanes fun j => d.getD (4 * k + j) 0

theorem lane_stringWord (d : List Byte) {k j : Nat} (hlo : 4 * k ≤ j) (hhi : j < 4 * k + 4) :
    lane (stringWord d k) (j - 4 * k) = d.getD j 0 := by
  have hlane : j - 4 * k < 4 := by omega
  rw [stringWord, lane_wordOfLanes _ hlane, Nat.add_sub_cancel' hlo]

theorem le_four_mul_wordCount (n : Nat) : n ≤ 4 * wordCount n := by
  unfold wordCount
  omega

/-- The writes of the first `n` words of a string, from a location's first byte on. -/
def stringWrites (l : Loc) (d : List Byte) (n : Nat) : List HostEvent :=
  (List.range n).map fun k => .write32 (locOffset l + 4 * k) (stringWord d k)

theorem loadBytes_eq (l : Loc) (d : List Byte) :
    loadBytes (.named l 0) d = stringWrites l d (wordCount d.length) := rfl

@[simp] theorem length_stringWrites (l : Loc) (d : List Byte) (n : Nat) :
    (stringWrites l d n).length = n := by
  simp [stringWrites]

theorem stringWrites_succ (l : Loc) (d : List Byte) (n : Nat) :
    stringWrites l d (n + 1) =
      stringWrites l d n ++ [.write32 (locOffset l + 4 * n) (stringWord d n)] := by
  rw [stringWrites, List.range_succ, List.map_append]
  rfl

/-- The state once the first `n` words of a string are stored in a location. -/
def State.withWords (s : State) (l : Loc) (d : List Byte) : Nat → State
  | 0 => s
  | n + 1 => locStore (s.withWords l d n) l (4 * n) (stringWord d n)

/-- The writes of a string that fits in its location all complete, and store its words (R63, R101). -/
theorem runSteps_stringWrites {s : State} {l : Loc} {d : List Byte} (hcmd : l ≠ .cmd) {n : Nat}
    (hfit : 4 * n ≤ locSize l) {rest : List HostEvent} (hs : s.script = stringWrites l d n ++ rest) :
    ∃ a, runSteps n s = .next { s.withWords l d n with script := rest, answer := a } := by
  induction n generalizing rest with
  | zero =>
    obtain rfl : s.script = rest := hs
    exact ⟨s.answer, rfl⟩
  | succ n ih =>
    rw [stringWrites_succ, List.append_assoc] at hs
    obtain ⟨a, hrun⟩ := ih (by omega) hs
    have hmod := locOffset_mod l
    have hl : locate (locOffset l + 4 * n) = some l := locate_eq_some.2 (by omega)
    refine ⟨some .done, runSteps_succ hrun ?_⟩
    rw [step_write_store rfl hl hcmd, Nat.add_sub_cancel_left, State.withWords]
    cases l <;> rfl

/-- What `n` words of a string leave at byte `j` of their location, if a store replaces the four bytes it
names there in every state that satisfies `good`, and every store leads to such a state. -/
theorem locByte_withWords {good : State → Prop} {s : State} {l : Loc} {j : Nat} (d : List Byte)
    (hgood : ∀ t k v, good t → good (locStore t l k v))
    (hstore : ∀ t k v, good t → locByte (locStore t l k v) l j =
      if k ≤ j ∧ j < k + 4 then lane v (j - k) else locByte t l j)
    (hs : good s) (n : Nat) :
    good (s.withWords l d n) ∧ locByte (s.withWords l d n) l j =
      if j < 4 * n then d.getD j 0 else locByte s l j := by
  induction n with
  | zero => exact ⟨hs, rfl⟩
  | succ n ih =>
    obtain ⟨hn, hbyte⟩ := ih
    refine ⟨hgood _ _ _ hn, ?_⟩
    rw [State.withWords, hstore _ _ _ hn, hbyte]
    by_cases hword : 4 * n ≤ j ∧ j < 4 * n + 4
    · rw [if_pos hword, if_pos (by omega), lane_stringWord d hword.1 hword.2]
    · rw [if_neg hword]
      exact if_congr (by omega) rfl rfl

/-! ### `ldaad` -/

theorem withWords_aadBuf (s : State) (d : List Byte) (n : Nat) :
    s.withWords .aadBuf d n = { s with aadBuf := (s.withWords .aadBuf d n).aadBuf } := by
  induction n with
  | zero => rfl
  | succ n ih =>
    rw [State.withWords, ih]
    rfl

theorem read_withWords_aadBuf {s : State} (hs : s.aadBuf.wf = true) (d : List Byte) (n j : Nat) :
    (s.withWords .aadBuf d n).aadBuf.read j = if j < 4 * n then d.getD j 0 else s.aadBuf.read j :=
  (locByte_withWords (good := fun t => t.aadBuf.wf = true) (l := .aadBuf) d
    (fun _ _ _ => (wf_bufStore · _ _)) (fun _ _ _ => (read_bufStore · _ _ _)) hs n).2

/-- A buffer that reads a string's bytes holds the string (00_scope.md R12). -/
theorem memRead_eq_of_read {m : Memory} {d : List Byte}
    (h : ∀ j, j < d.length → m.read j = d.getD j 0) : memRead m 0 d.length = d := by
  refine List.ext_getElem (length_memRead _ _ _) fun j _ hj => ?_
  simp [memRead, h j hj, hj]

theorem locate_aadLen : locate (locOffset .aadLen) = some .aadLen := rfl

/-- Settles O51: the words of the string, and then its length. -/
theorem ldaadLoadsOperand : Obligations.LdaadLoadsOperand := by
  intro s d hwf hlen hs
  have hmod := Config.bufMax_mod
  have hlast : 4 * wordCount d.length ≤ locSize .aadBuf := by
    simp only [wordCount, locSize]
    omega
  rw [accesses, loadBytes_eq] at hs
  obtain ⟨a, hrun⟩ := runSteps_stringWrites (by decide) hlast hs
  have hrun := runSteps_succ hrun (step_write_locStore rfl locate_aadLen (by decide))
  have hread := read_withWords_aadBuf hwf d (wordCount d.length)
  rw [hs, List.length_append, length_stringWrites]
  refine ⟨_, hrun, ?_, ?_, memRead_eq_of_read fun j hj => ?_, fun j hj => ?_⟩
  · rw [withWords_aadBuf]
    rfl
  · exact Nat.mod_eq_of_lt (hlen.trans_lt Config.bufMax_lt_word)
  · exact (hread j).trans (if_pos (hj.trans_le (le_four_mul_wordCount _)))
  · exact (hread j).trans (if_neg (Nat.not_lt.2 hj))

/-! ### `ldkey` -/

theorem byte_withWords_key (s : State) (d : List Byte) (n : Nat) {j : Nat} (hj : j < 32) :
    byte (s.withWords .key d n).key j = if j < 4 * n then d.getD j 0 else byte s.key j :=
  (locByte_withWords (good := fun _ => True) (l := .key) d (fun _ _ _ => id)
    (fun _ _ _ _ => byte_writeLanes _ _ _ hj) trivial n).2

/-- A byte string that begins with the bytes of a list begins with the list. -/
theorem take_toList_of_byte {n : Nat} {x : Bytes n} {d : List Byte} (hd : d.length ≤ n)
    (h : ∀ j, j < d.length → byte x j = d.getD j 0) : (toList x).take d.length = d := by
  refine List.ext_getElem (by simp [hd]) fun j _ hj => ?_
  simp [toList, h j hj, hj]

/-- The key `d` stands in `KEY` and is expanded: recorded, and its schedules loaded (40_aes.md R140). -/
def State.HoldsExpandedKey (t : State) (d : List Byte) : Prop :=
  t.err = 0 ∧ t.keyValid = true ∧ t.nk = d.length / 4 ∧ (toList t.key).take d.length = d ∧
    t.w.toList.take (4 * (t.nk + 7)) = keyExpansion t.nk d ∧
    t.dw.toList.take (4 * (t.nk + 7)) = decKeySchedule (keyExpansion t.nk d) (t.nk + 6)

/-- AES.KEYEXP expands the key that stands in `KEY` (R140). -/
theorem exec_aesKeyexp_expands {klen : Nat} (hklen : klen < 3) {s : State} {d : List Byte}
    (hlen : d.length = 4 * (4 + 2 * klen)) (hkey : (toList s.key).take d.length = d) :
    ∃ t, exec (.aesKeyexp klen) s = .next t ∧ t.HoldsExpandedKey d := by
  have hop : s.keyOperand (4 + 2 * klen) = d := by rwa [State.keyOperand, ← hlen]
  refine ⟨_, execAesKeyexp_eq hklen s, succeed_err _, ?_, ?_, hkey, ?_, ?_⟩
  · rw [succeed_keyValid, setKeyLoaded_keyValid]
  · rw [succeed_nk, setKeyLoaded_nk]
    omega
  · rw [hop, succeed_nk, setKeyLoaded_nk]
    exact take_loadFile_of_length s.w (length_keyExpansion _ _) (by omega)
  · rw [hop, succeed_nk, setKeyLoaded_nk]
    exact take_loadFile_of_length s.dw (length_decKeySchedule _ _) (by omega)

/-- Settles O52: the words of the key, and then AES.KEYEXP on them. -/
theorem ldkeyExpandsKey : Obligations.LdkeyExpandsKey := by
  intro s d hlen hs
  obtain ⟨klen, hklen, hd⟩ : ∃ klen, klen < 3 ∧ d.length = 4 * (4 + 2 * klen) :=
    ⟨(d.length - 16) / 8, by omega, by omega⟩
  have hfit : 4 * wordCount d.length ≤ locSize .key := by
    simp only [wordCount, locSize]
    omega
  have hfield : (d.length - 16) / 8 = klen := by omega
  rw [accesses, loadBytes_eq, hfield] at hs
  obtain ⟨a, hrun⟩ := runSteps_stringWrites (by decide) hfit hs
  have hkey : (toList (s.withWords .key d (wordCount d.length)).key).take d.length = d := by
    refine take_toList_of_byte (by omega) fun j hj => ?_
    rw [byte_withWords_key s d _ (by omega), if_pos (hj.trans_le (le_four_mul_wordCount _))]
  obtain ⟨t, hexec, ht⟩ := exec_aesKeyexp_expands hklen hd
    (s := { s.withWords .key d (wordCount d.length) with script := [], answer := a }) hkey
  have hdecode := decode_encode (i := .aesKeyexp klen) (decide_eq_true (by omega))
  rw [hs, List.length_append, length_stringWrites]
  exact ⟨_, runSteps_succ hrun (stepRunsDecodedCommand _ _ _ _ t rfl hdecode hexec), ht⟩

end Sys2Proof.Machine
end

section
/-! The round transformations of AES (40_aes.md section 2): what each byte of a result is, that each inverse
transformation undoes its transformation, and how they pass through XOR and through each other. -/

namespace Sys2Proof.Machine

/-! ### SubBytes and ShiftRows (R122 to R125) -/

/-- `INV_SBOX` is the inverse table of `SBOX` (R123), entry by entry. -/
theorem invSbox_sbox : ∀ a : Byte, invSbox (sbox a) = a := by decide +kernel

theorem byte_invSubBytes {n : Nat} (s : Bytes n) {i : Nat} (hi : i < n) :
    byte (invSubBytes s) i = invSbox (byte s i) := byte_mapBytes _ _ hi

theorem byte_shiftRows (s : Block) {i : Nat} (hi : i < 16) :
    byte (shiftRows s) i = byte s (i % 4 + 4 * ((i / 4 + i % 4) % 4)) := byte_bytesOf _ hi

theorem byte_invShiftRows (s : Block) {i : Nat} (hi : i < 16) :
    byte (invShiftRows s) i = byte s (i % 4 + 4 * ((i / 4 + 4 - i % 4) % 4)) := byte_bytesOf _ hi

theorem invSubBytes_subBytes {n : Nat} (s : Bytes n) : invSubBytes (subBytes s) = s :=
  bytes_ext fun i hi => by rw [byte_invSubBytes _ hi, subBytes, byte_mapBytes _ _ hi, invSbox_sbox]

theorem invShiftRows_shiftRows (s : Block) : invShiftRows (shiftRows s) = s := by
  refine bytes_ext fun i hi => ?_
  rw [byte_invShiftRows _ hi, byte_shiftRows _ (by omega)]
  congr 1
  omega

/-- A substitution of bytes does not care where the byte stands (40_aes.md R138). -/
theorem invSubBytes_invShiftRows (s : Block) :
    invSubBytes (invShiftRows s) = invShiftRows (invSubBytes s) := by
  refine bytes_ext fun i hi => ?_
  rw [byte_invSubBytes _ hi, byte_invShiftRows _ hi, byte_invShiftRows _ hi,
    byte_invSubBytes _ (by omega)]

/-! ### MixColumns on one column (R126) -/

theorem xtime_eq (a : Byte) : xtime a = a <<< 1 ^^^ (if a.getLsbD 7 then 0x1B else 0) := by
  unfold xtime
  split
  · rfl
  · exact (BitVec.xor_zero).symm

/-- Multiplication by 2 is linear over XOR (R121), and so is every product built from it. -/
theorem xtime_xor (a b : Byte) : xtime (a ^^^ b) = xtime a ^^^ xtime b := by
  have hcarry : ∀ p q : Bool, (if p ^^ q then (0x1B : Byte) else 0) =
      (if p then 0x1B else 0) ^^^ (if q then 0x1B else 0) := by decide
  rw [xtime_eq, xtime_eq, xtime_eq, BitVec.getLsbD_xor, BitVec.shiftLeft_xor_distrib, hcarry]
  ac_rfl

theorem mul9_xor (a b : Byte) : mul9 (a ^^^ b) = mul9 a ^^^ mul9 b := by
  simp only [mul9, xtimePow, xtime_xor]
  ac_rfl

theorem mul11_xor (a b : Byte) : mul11 (a ^^^ b) = mul11 a ^^^ mul11 b := by
  simp only [mul11, xtimePow, xtime_xor]
  ac_rfl

theorem mul13_xor (a b : Byte) : mul13 (a ^^^ b) = mul13 a ^^^ mul13 b := by
  simp only [mul13, xtimePow, xtime_xor]
  ac_rfl

theorem mul14_xor (a b : Byte) : mul14 (a ^^^ b) = mul14 a ^^^ mul14 b := by
  simp only [mul14, xtimePow, xtime_xor]
  ac_rfl

/-- The product of the two matrices of R126 has 1 on its diagonal. -/
theorem invMix_mix_diagonal : ∀ a : Byte,
    mul14 (mul2 a) ^^^ mul11 a ^^^ mul13 a ^^^ mul9 (mul3 a) = a := by decide +kernel

/-- It has 0 beside the diagonal, one lemma for each of the three other entries of a row. -/
theorem invMix_mix_next : ∀ b : Byte,
    mul14 (mul3 b) ^^^ mul11 (mul2 b) ^^^ mul13 b ^^^ mul9 b = 0 := by decide +kernel

@[inherit_doc invMix_mix_next] theorem invMix_mix_opposite : ∀ c : Byte,
    mul14 c ^^^ mul11 (mul3 c) ^^^ mul13 (mul2 c) ^^^ mul9 c = 0 := by decide +kernel

@[inherit_doc invMix_mix_next] theorem invMix_mix_previous : ∀ d : Byte,
    mul14 d ^^^ mul11 d ^^^ mul13 (mul3 d) ^^^ mul9 (mul2 d) = 0 := by decide +kernel

/-- One row of `InvMixColumns` after `MixColumns`, its terms collected by the byte they multiply. -/
theorem invMix_mix_row (a b c d : Byte) :
    mul14 (mul2 a ^^^ mul3 b ^^^ c ^^^ d) ^^^ mul11 (mul2 b ^^^ mul3 c ^^^ d ^^^ a) ^^^
      mul13 (mul2 c ^^^ mul3 d ^^^ a ^^^ b) ^^^ mul9 (mul2 d ^^^ mul3 a ^^^ b ^^^ c) = a := by
  calc
    _ = (mul14 (mul2 a) ^^^ mul11 a ^^^ mul13 a ^^^ mul9 (mul3 a)) ^^^
        (mul14 (mul3 b) ^^^ mul11 (mul2 b) ^^^ mul13 b ^^^ mul9 b) ^^^
        (mul14 c ^^^ mul11 (mul3 c) ^^^ mul13 (mul2 c) ^^^ mul9 c) ^^^
        (mul14 d ^^^ mul11 d ^^^ mul13 (mul3 d) ^^^ mul9 (mul2 d)) := by
      simp only [mul9_xor, mul11_xor, mul13_xor, mul14_xor]
      ac_rfl
    _ = a := by
      rw [invMix_mix_diagonal, invMix_mix_next, invMix_mix_opposite, invMix_mix_previous]
      simp

theorem append_eq_bytesOf (f : Nat → Byte) : (f 0 ++ f 1 ++ f 2 ++ f 3 : Bytes 4) = bytesOf 4 f := by
  have h0 : (0#0 ++ f 0 : BitVec (0 + 8)) = f 0 := by
    refine BitVec.eq_of_toNat_eq ?_
    rw [BitVec.toNat_append]
    simp
  exact congrArg (fun x : Byte => x ++ f 1 ++ f 2 ++ f 3) h0.symm

/-- Row `i` of `MixColumns`: each row of its matrix is the one above it turned by one place. -/
def mixByte (w : Bytes 4) (i : Nat) : Byte :=
  mul2 (byte w i) ^^^ mul3 (byte w ((i + 1) % 4)) ^^^ byte w ((i + 2) % 4) ^^^ byte w ((i + 3) % 4)

/-- Row `i` of `InvMixColumns`. -/
def invMixByte (w : Bytes 4) (i : Nat) : Byte :=
  mul14 (byte w i) ^^^ mul11 (byte w ((i + 1) % 4)) ^^^ mul13 (byte w ((i + 2) % 4)) ^^^
    mul9 (byte w ((i + 3) % 4))

theorem mixWord_eq (w : Bytes 4) : mixWord w = bytesOf 4 (mixByte w) := by
  rw [← append_eq_bytesOf]
  dsimp only [mixWord, mixByte, Nat.reduceAdd, Nat.reduceMod]
  ac_rfl

theorem invMixWord_eq (w : Bytes 4) : invMixWord w = bytesOf 4 (invMixByte w) := by
  rw [← append_eq_bytesOf]
  dsimp only [invMixWord, invMixByte, Nat.reduceAdd, Nat.reduceMod]
  ac_rfl

theorem byte_mixWord (w : Bytes 4) {i : Nat} (hi : i < 4) : byte (mixWord w) i = mixByte w i := by
  rw [mixWord_eq, byte_bytesOf _ hi]

theorem byte_invMixWord (w : Bytes 4) {i : Nat} (hi : i < 4) :
    byte (invMixWord w) i = invMixByte w i := by
  rw [invMixWord_eq, byte_bytesOf _ hi]

theorem invMixWord_mixWord (w : Bytes 4) : invMixWord (mixWord w) = w := by
  refine bytes_ext fun i hi => ?_
  have h4 : (i + 4) % 4 = i := by omega
  have h5 : (i + 5) % 4 = (i + 1) % 4 := by omega
  have h6 : (i + 6) % 4 = (i + 2) % 4 := by omega
  rw [byte_invMixWord _ hi, invMixByte]
  iterate 4 rw [byte_mixWord _ (by omega)]
  simp only [mixByte, Nat.mod_add_mod, Nat.add_assoc, Nat.reduceAdd, h4, h5, h6]
  exact invMix_mix_row _ _ _ _

theorem invMixWord_xor (v w : Bytes 4) :
    invMixWord (v ^^^ w) = invMixWord v ^^^ invMixWord w := by
  refine bytes_ext fun i hi => ?_
  rw [byte_xor, byte_invMixWord _ hi, byte_invMixWord _ hi, byte_invMixWord _ hi]
  simp only [invMixByte, byte_xor, mul9_xor, mul11_xor, mul13_xor, mul14_xor]
  ac_rfl

/-! ### MixColumns on the state (R120, R126) -/

/-- The state with the column `f c` in place `c`. -/
def ofColumns (f : Nat → Bytes 4) : Block := f 0 ++ f 1 ++ f 2 ++ f 3

theorem mapColumns_eq (g : Bytes 4 → Bytes 4) (s : Block) :
    mapColumns g s = ofColumns fun c => g (column s c) := rfl

theorem roundKey_eq (w : Schedule) (r : Nat) :
    roundKey w r = ofColumns fun c => w.getD (4 * r + c) 0 := rfl

theorem byte_column (s : Block) (c : Nat) {i : Nat} (hi : i < 4) :
    byte (column s c) i = byte s (4 * c + i) := byte_slice _ _ _ hi

theorem byte_ofColumns (f : Nat → Bytes 4) {c i : Nat} (hc : c < 4) (hi : i < 4) :
    byte (ofColumns f) (4 * c + i) = byte (f c) i := by
  have hsecond := byte_append (n := 4) (m := 4) (f 0) (f 1) (f 0 ++ f 1) (4 * c + i) rfl
  have hthird := byte_append (n := 8) (m := 4) (f 0 ++ f 1) (f 2) (f 0 ++ f 1 ++ f 2) (4 * c + i) rfl
  have hlast := byte_append (n := 12) (m := 4) (f 0 ++ f 1 ++ f 2) (f 3) (ofColumns f) (4 * c + i) rfl
    (by omega)
  rw [hlast]
  interval_cases c
  · rw [if_pos (by omega), hthird (by omega), if_pos (by omega), hsecond (by omega), if_pos (by omega)]
    congr 1
    omega
  · rw [if_pos (by omega), hthird (by omega), if_pos (by omega), hsecond (by omega), if_neg (by omega)]
    congr 1
    omega
  · rw [if_pos (by omega), hthird (by omega), if_neg (by omega)]
    congr 1
    omega
  · rw [if_neg (by omega)]
    congr 1
    omega

theorem column_ofColumns (f : Nat → Bytes 4) {c : Nat} (hc : c < 4) : column (ofColumns f) c = f c :=
  bytes_ext fun i hi => by rw [byte_column _ _ hi, byte_ofColumns _ hc hi]

/-- A state is its four columns. -/
theorem ofColumns_column (s : Block) : ofColumns (column s) = s := by
  refine bytes_ext fun i hi => ?_
  rw [← Nat.div_add_mod i 4, byte_ofColumns _ (by omega) (by omega), byte_column _ _ (by omega)]

theorem ofColumns_congr {f g : Nat → Bytes 4} (h : ∀ c, c < 4 → f c = g c) :
    ofColumns f = ofColumns g := by
  rw [ofColumns, ofColumns, h 0 (by omega), h 1 (by omega), h 2 (by omega), h 3 (by omega)]

theorem mapColumns_ofColumns (g : Bytes 4 → Bytes 4) (f : Nat → Bytes 4) :
    mapColumns g (ofColumns f) = ofColumns fun c => g (f c) := by
  rw [mapColumns_eq]
  exact ofColumns_congr fun c hc => congrArg g (column_ofColumns f hc)

theorem invMixColumns_mixColumns (s : Block) : invMixColumns (mixColumns s) = s := by
  rw [mixColumns, mapColumns_eq, invMixColumns, mapColumns_ofColumns]
  simp only [invMixWord_mixWord, ofColumns_column]

theorem column_xor (s k : Block) (c : Nat) : column (s ^^^ k) c = column s c ^^^ column k c :=
  bytes_ext fun i hi => by
    rw [byte_xor, byte_column _ _ hi, byte_column _ _ hi, byte_column _ _ hi, byte_xor]

theorem ofColumns_xor (f g : Nat → Bytes 4) :
    ofColumns (fun c => f c ^^^ g c) = ofColumns f ^^^ ofColumns g := by
  rw [← ofColumns_column (ofColumns f ^^^ ofColumns g)]
  refine ofColumns_congr fun c hc => ?_
  rw [column_xor, column_ofColumns f hc, column_ofColumns g hc]

/-- `InvMixColumns` is linear over XOR (40_aes.md R138). -/
theorem invMixColumns_xor (s k : Block) :
    invMixColumns (s ^^^ k) = invMixColumns s ^^^ invMixColumns k := by
  simp only [invMixColumns, mapColumns_eq, column_xor, invMixWord_xor, ofColumns_xor]

/-- Settles O37, one lemma per transformation. -/
theorem roundTransformationsInvert : Obligations.RoundTransformationsInvert := fun s =>
  ⟨invSubBytes_subBytes s, invShiftRows_shiftRows s, invMixColumns_mixColumns s⟩

end Sys2Proof.Machine
end

section
/-! The AES cipher and its inverse (40_aes.md section 4, R138): the equivalent inverse cipher is the
straightforward one, which undoes the encryption round by round; both for every schedule. -/

namespace Sys2Proof.Machine
open Claims

/-! ### The round keys of the two schedules (R129, R130) -/

theorem getD_decKeySchedule (w : Schedule) {nr i : Nat} (hi : i < 4 * (nr + 1)) :
    (decKeySchedule w nr).getD i 0 =
      if 4 ≤ i ∧ i < 4 * nr then invMixWord (w.getD i 0) else w.getD i 0 := by
  simp [decKeySchedule, List.getD_eq_getElem?_getD, hi]

/-- The first and the last round key are those of the encryption schedule. -/
theorem roundKey_decKeySchedule_outer (w : Schedule) {nr r : Nat} (hr : r = 0 ∨ r = nr) :
    roundKey (decKeySchedule w nr) r = roundKey w r := by
  rw [roundKey_eq, roundKey_eq]
  refine ofColumns_congr fun c hc => ?_
  rw [getD_decKeySchedule w (by omega), if_neg (by omega)]

/-- The round keys between them are transformed column by column (R129). -/
theorem roundKey_decKeySchedule_inner (w : Schedule) {nr r : Nat} (hpos : 0 < r) (hr : r < nr) :
    roundKey (decKeySchedule w nr) r = invMixColumns (roundKey w r) := by
  rw [roundKey_eq, roundKey_eq, invMixColumns, mapColumns_ofColumns]
  refine ofColumns_congr fun c hc => ?_
  rw [getD_decKeySchedule w (by omega), if_pos (by omega)]

/-! ### The equivalent inverse cipher is the straightforward one (R137, R138) -/

theorem decRounds_eq_straightRounds (w : Schedule) {nr r : Nat} (hr : r < nr) (s : Block) :
    decRounds (decKeySchedule w nr) s r = straightRounds w s r := by
  induction r generalizing s with
  | zero => rfl
  | succ r ih =>
    rw [decRounds, straightRounds, ih (by omega), roundKey_decKeySchedule_inner w r.succ_pos hr,
      addRoundKey, addRoundKey, ← invMixColumns_xor, invSubBytes_invShiftRows]

theorem aesDec_eq_straightInverse (w : Schedule) {nr : Nat} (hnr : 0 < nr) (x : Block) :
    aesDec (decKeySchedule w nr) nr x = straightInverse w nr x := by
  rw [aesDec, straightInverse, decRounds_eq_straightRounds w (by omega),
    roundKey_decKeySchedule_outer w (.inl rfl), roundKey_decKeySchedule_outer w (.inr rfl),
    invSubBytes_invShiftRows]

/-! ### Decryption undoes encryption (R138) -/

theorem addRoundKey_addRoundKey (s k : Block) : addRoundKey (addRoundKey s k) k = s := by
  rw [addRoundKey, addRoundKey, BitVec.xor_assoc, BitVec.xor_self, BitVec.xor_zero]

theorem invSubBytes_invShiftRows_shiftRows_subBytes (s : Block) :
    invSubBytes (invShiftRows (shiftRows (subBytes s))) = s := by
  rw [invShiftRows_shiftRows, invSubBytes_subBytes]

/-- The inverse rounds `r` to 1 take back the rounds 1 to `r`, each between the byte substitution before
it and the key addition after it. -/
theorem straightRounds_encRounds (w : Schedule) (x : Block) (r : Nat) :
    straightRounds w (shiftRows (subBytes (encRounds w x r))) r =
      shiftRows (subBytes (addRoundKey x (roundKey w 0))) := by
  induction r with
  | zero => rfl
  | succ r ih =>
    rw [straightRounds, invSubBytes_invShiftRows_shiftRows_subBytes, encRounds,
      addRoundKey_addRoundKey, invMixColumns_mixColumns, ih]

theorem straightInverse_aesEnc (w : Schedule) (nr : Nat) (x : Block) :
    straightInverse w nr (aesEnc w nr x) = x := by
  rw [straightInverse, aesEnc, addRoundKey_addRoundKey, straightRounds_encRounds,
    invSubBytes_invShiftRows_shiftRows_subBytes, addRoundKey_addRoundKey]

theorem aesDec_aesEnc (w : Schedule) {nr : Nat} (hnr : 0 < nr) (x : Block) :
    aesDec (decKeySchedule w nr) nr (aesEnc w nr x) = x := by
  rw [aesDec_eq_straightInverse w hnr, straightInverse_aesEnc]

/-- Encryption undoes decryption too: there are finitely many blocks, and an injective map of them to
themselves is onto. -/
theorem aesEnc_aesDec (w : Schedule) {nr : Nat} (hnr : 0 < nr) (x : Block) :
    aesEnc w nr (aesDec (decKeySchedule w nr) nr x) = x := by
  have hleft : Function.LeftInverse (aesDec (decKeySchedule w nr) nr) (aesEnc w nr) :=
    aesDec_aesEnc w hnr
  have honto : Function.Surjective (aesEnc w nr) :=
    Finite.injective_iff_surjective.1 hleft.injective
  exact hleft.rightInverse_of_surjective honto x

/-- Settles O38: the two ciphers undo each other under every schedule, hence under that of every key. -/
theorem aesCipherInverts : Obligations.AesCipherInverts := by
  intro nk k x _ _
  have hnr : 0 < nk + 6 := by omega
  exact ⟨aesDec_aesEnc _ hnr x, aesEnc_aesDec _ hnr x, aesDec_eq_straightInverse _ hnr x⟩

/-! ### The cipher uses the words of its round keys and no others (R130, R131, R137) -/

theorem roundKey_take (w : Schedule) {n r : Nat} (hr : 4 * (r + 1) ≤ n) :
    roundKey (w.take n) r = roundKey w r := by
  rw [roundKey_eq, roundKey_eq]
  refine ofColumns_congr fun c hc => ?_
  rw [List.getD_eq_getElem?_getD, List.getD_eq_getElem?_getD, List.getElem?_take_of_lt (by omega)]

theorem encRounds_take (w : Schedule) (x : Block) {n r : Nat} (hr : 4 * (r + 1) ≤ n) :
    encRounds (w.take n) x r = encRounds w x r := by
  induction r with
  | zero => rw [encRounds, encRounds, roundKey_take w hr]
  | succ r ih => rw [encRounds, encRounds, ih (by omega), roundKey_take w hr]

theorem aesEnc_take (w : Schedule) {n nr : Nat} (hn : 4 * (nr + 1) ≤ n) (x : Block) :
    aesEnc (w.take n) nr x = aesEnc w nr x := by
  rw [aesEnc, aesEnc, encRounds_take w x (by omega), roundKey_take w hn]

theorem decRounds_take (dw : Schedule) (s : Block) {n r : Nat} (hr : 4 * (r + 1) ≤ n) :
    decRounds (dw.take n) s r = decRounds dw s r := by
  induction r generalizing s with
  | zero => rfl
  | succ r ih => rw [decRounds, decRounds, ih _ (by omega), roundKey_take dw hr]

theorem aesDec_take (dw : Schedule) {n nr : Nat} (hn : 4 * (nr + 1) ≤ n) (x : Block) :
    aesDec (dw.take n) nr x = aesDec dw nr x := by
  rw [aesDec, aesDec, decRounds_take dw _ (by omega), roundKey_take dw hn,
    roundKey_take dw (by omega)]

end Sys2Proof.Machine
end

section
/-! The AES commands (40_aes.md section 5): what each leaves in the state, and that AES.DEC undoes AES.ENC. -/

namespace Sys2Proof.Machine
open Claims

/-! ### How a command ends (60_exceptions.md R220, R222) -/

/-- A command that raises an error ends with its code and changes nothing else. -/
theorem endsWith_of_raise {i : Instr} {s : State} {c : ResultCode} (h : exec i s = .next (s.raise c)) :
    EndsWith i s (errValue c) :=
  ⟨_, h, rfl, statusFields_statusError _ _⟩

/-- A success that wrote no flag clears `ERR` and leaves the rest of `STATUS`. -/
theorem onlyErrCleared_succeed {s u : State} (hu : u.status = s.status) : OnlyErrCleared s u.succeed := by
  rw [OnlyErrCleared, ← hu]
  exact statusFields_statusOk _

/-! ### AES.KEYEXP (R140) -/

theorem decode_keyexpWord {klen : Nat} (h : klen ≤ 3) :
    decode (0x00000001 + 0x100 * BitVec.ofNat 32 klen) = .ok (.aesKeyexp klen) :=
  decode_encode (i := .aesKeyexp klen) (decide_eq_true h)

/-- Settles O2, the schedules word by word as they stand in the loaded files. -/
theorem keyexpBuildsSchedules : Obligations.KeyexpBuildsSchedules := by
  refine ⟨fun klen h => decode_keyexpWord h,
    fun s => endsWith_of_raise (c := .config) (execAesKeyexp_reserved (klen := 3) (by decide) s),
    fun klen s hklen => ?_⟩
  refine ⟨_, execAesKeyexp_eq hklen s, rfl, fun i hi => ?_, fun i hi => ?_, ?_⟩
  · -- the words of `W`
    have := getElem_loadFile s.w (keyExpansion (4 + 2 * klen) (s.keyOperand (4 + 2 * klen))) i hi
    rwa [length_keyExpansion] at this
  · -- the words of `DW`
    have := getElem_loadFile s.dw (decKeySchedule (keyExpansion (4 + 2 * klen)
      (s.keyOperand (4 + 2 * klen))) (4 + 2 * klen + 6)) i hi
    rwa [length_decKeySchedule] at this
  · simp

/-! ### AES.ENC and AES.DEC (R141, R142) -/

theorem exec_aesEnc_of_keyValid {s : State} (h : s.keyValid = true) :
    exec .aesEnc s = .next { s with blkOut := s.encBlock s.blkIn }.succeed :=
  (execAesEnc_eq s).trans (if_pos h)

theorem exec_aesDec_of_keyValid {s : State} (h : s.keyValid = true) :
    exec .aesDec s = .next { s with blkOut := s.decBlock s.blkIn }.succeed :=
  (execAesDec_eq s).trans (if_pos h)

/-- Settles O3, by the two values of `KEY_VALID`. -/
theorem aesEncEncryptsBlkIn : Obligations.AesEncEncryptsBlkIn :=
  ⟨decode_encode (i := .aesEnc) rfl,
    fun s h => endsWith_of_raise (c := .config) ((execAesEnc_eq s).trans (if_neg (by simp [h]))),
    fun _ h => ⟨_, exec_aesEnc_of_keyValid h, rfl, onlyErrCleared_succeed rfl⟩⟩

/-- Settles O4, by the two values of `KEY_VALID`. -/
theorem aesDecDecryptsBlkIn : Obligations.AesDecDecryptsBlkIn :=
  ⟨decode_encode (i := .aesDec) rfl,
    fun s h => endsWith_of_raise (c := .config) ((execAesDec_eq s).trans (if_neg (by simp [h]))),
    fun _ h => ⟨_, exec_aesDec_of_keyValid h, rfl, onlyErrCleared_succeed rfl⟩⟩

/-- The round-key files of a state hold the schedules of one key (10_state.md R45 (a)), so decryption
under them undoes encryption. -/
theorem decBlock_encBlock {s : State} (h : s.schedulesMatch) (x : Block) :
    s.decBlock (s.encBlock x) = x := by
  obtain ⟨k, -, hw, hdw⟩ := h
  have hn : 4 * (s.nr + 1) ≤ 4 * (s.nk + 7) := by rw [State.nr]
  have hnr : 0 < s.nr := Nat.succ_pos _
  rw [State.decBlock, State.encBlock, ← aesEnc_take _ hn, ← aesDec_take _ hn, hw, hdw,
    aesDec_aesEnc _ hnr]

/-- Settles O39: AES.ENC keeps the schedules, and AES.DEC decrypts with them. -/
theorem decCommandUndoesEncCommand : Obligations.DecCommandUndoesEncCommand := by
  intro s t hs hkey h
  rw [exec_aesEnc_of_keyValid hkey] at h
  injection h with h
  subst h
  have hkey' : State.keyValid { ({ s with blkOut := s.encBlock s.blkIn } : State).succeed with
      blkIn := s.encBlock s.blkIn } = true := (succeed_keyValid _).trans hkey
  exact ⟨_, exec_aesDec_of_keyValid hkey', succeed_err _, decBlock_encBlock (hs.schedules hkey) s.blkIn⟩

end Sys2Proof.Machine
end

section
/-! The field GF(2^128) of GHASH (41_ghash.md section 1): `MulX` byte by byte, and the laws of `GfMul`, which
all follow from two facts: `GfMul(X, ·)` commutes with every linear map that commutes with `MulX`, and the
identity block is neutral on the right. -/

namespace Sys2Proof.Machine

/-! ### MulX (R151) -/

/-- The block XORed in when the bit shifted out is 1. -/
def feedbackBlock : Block := (0xE1 : Byte) ++ (0 : BitVec 120)

theorem mulX_eq (v : Block) :
    mulX v = v >>> 1 ^^^ (if v.getLsbD 0 then feedbackBlock else 0) := by
  unfold mulX
  split
  · rfl
  · exact BitVec.xor_zero.symm

theorem ite_bxor (p q : Bool) {n : Nat} (c : BitVec n) :
    (if p ^^ q then c else 0) = (if p then c else 0) ^^^ (if q then c else 0) := by
  cases p <;> cases q <;> simp

/-- `MulX` is linear over XOR. -/
theorem mulX_xor (v w : Block) : mulX (v ^^^ w) = mulX v ^^^ mulX w := by
  rw [mulX_eq, mulX_eq, mulX_eq, BitVec.getLsbD_xor, BitVec.ushiftRight_xor_distrib, ite_bxor]
  ac_rfl

/-- What bit 7 of byte `k` receives: the low bit of the byte in front, and 0 in byte 0. -/
def carryIn (v : Block) (k : Nat) : Byte := if k = 0 then 0 else (byte v (k - 1) &&& 1) <<< 7

theorem getLsbD_carryIn (v : Block) (k : Nat) {j : Nat} (hj : j < 8) :
    (carryIn v k).getLsbD j = (decide (j = 7 ∧ k ≠ 0) && (byte v (k - 1)).getLsbD 0) := by
  have hbit : ∀ b : Byte, ∀ j < 8, ((b &&& 1) <<< 7).getLsbD j = (decide (j = 7) && b.getLsbD 0) := by
    decide
  rw [carryIn]
  split
  · simp [*]
  · rw [hbit _ j hj]
    simp [*]

theorem byte_ushiftRight_one (v : Block) {k : Nat} (hk : k < 16) :
    byte (v >>> 1 : Block) k = (byte v k >>> 1) ||| carryIn v k := by
  refine BitVec.eq_of_getLsbD_eq fun j hj => ?_
  rw [getLsbD_byte _ _ _ hj, BitVec.getLsbD_or, BitVec.getLsbD_ushiftRight,
    BitVec.getLsbD_ushiftRight, getLsbD_carryIn v k hj, getLsbD_byte v (k - 1) 0 (by omega)]
  rcases Nat.lt_or_ge j 7 with h7 | h7
  · -- bits 0 to 6 stay in their byte
    rw [getLsbD_byte _ _ _ (by omega), decide_eq_false (by omega), Bool.false_and, Bool.or_false]
    congr 1
    omega
  · -- bit 7 comes from the byte in front
    have hout : (byte v k).getLsbD (1 + j) = false := BitVec.getLsbD_of_ge _ _ (by omega)
    rw [hout, Bool.false_or]
    rcases Nat.eq_zero_or_pos k with rfl | hpos
    · rw [decide_eq_false (by omega), Bool.false_and]
      exact BitVec.getLsbD_of_ge _ _ (by omega)
    · rw [decide_eq_true (by omega), Bool.true_and]
      congr 1
      omega

theorem byte_feedbackBlock {k : Nat} (hk : k < 16) :
    byte feedbackBlock k = if k = 0 then 0xE1 else 0 := by
  interval_cases k <;> rfl

theorem lowBit_iff (v : Block) : v.getLsbD 0 = true ↔ byte v 15 &&& 1 = 1 := by
  have hbyte : ∀ b : Byte, b.getLsbD 0 = true ↔ b &&& 1 = 1 := by decide
  rw [← hbyte, getLsbD_byte v 15 0 (by omega)]

theorem byte_mulX (v : Block) {k : Nat} (hk : k < 16) :
    byte (mulX v) k = ((byte v k >>> 1) ||| carryIn v k) ^^^
      (if byte v 15 &&& 1 = 1 then (if k = 0 then 0xE1 else 0) else 0) := by
  rw [mulX_eq, byte_xor, byte_ushiftRight_one v hk, apply_ite (byte · k), byte_feedbackBlock hk, byte_zero]
  simp only [lowBit_iff]

/-- Settles O40: no feedback reaches the bytes 1 to 15, and no carry byte 0. -/
theorem mulXShiftsAcrossBytes : Obligations.MulXShiftsAcrossBytes := by
  refine fun v => ⟨fun k hpos hk => ?_, ?_⟩
  · rw [byte_mulX v hk, if_neg (by omega : ¬ k = 0), ite_self]
    exact BitVec.xor_zero
  · rw [byte_mulX v (by omega), if_pos rfl, show carryIn v 0 = 0#8 from rfl, BitVec.or_zero]
    split
    · rfl
    · exact BitVec.xor_zero

/-! ### GfMul as a linear map (R152) -/

/-- A linear map of blocks that commutes with `MulX` passes through the loop of `GfMul`. -/
theorem map_gfMulLoop {f : Block → Block} (hxor : ∀ v w, f (v ^^^ w) = f v ^^^ f w)
    (hmulX : ∀ v, f (mulX v) = mulX (f v)) (x : Block) (n i : Nat) (z v : Block) :
    f (gfMulLoop x n i z v) = gfMulLoop x n i (f z) (f v) := by
  induction n generalizing i z v with
  | zero => rfl
  | succ n ih => rw [gfMulLoop, gfMulLoop, ih, hmulX, apply_ite f, hxor]

theorem gfMulLoop_xor (x : Block) (n i : Nat) (z z' v v' : Block) :
    gfMulLoop x n i (z ^^^ z') (v ^^^ v') = gfMulLoop x n i z v ^^^ gfMulLoop x n i z' v' := by
  induction n generalizing i z z' v v' with
  | zero => rfl
  | succ n ih =>
    rw [gfMulLoop, gfMulLoop, gfMulLoop, ← ih, mulX_xor]
    congr 1
    split
    · ac_rfl
    · rfl

theorem gfMul_xor_right (x y z : Block) : gfMul x (y ^^^ z) = gfMul x y ^^^ gfMul x z :=
  gfMulLoop_xor x 128 0 0 0 y z

/-- A map linear over XOR takes zero to zero. -/
theorem map_zero_of_xor {n m : Nat} {f : BitVec n → BitVec m}
    (hxor : ∀ v w, f (v ^^^ w) = f v ^^^ f w) : f 0 = 0 := by
  have h := hxor 0 0
  rwa [BitVec.xor_self, BitVec.xor_self] at h

theorem map_gfMul {f : Block → Block} (hxor : ∀ v w, f (v ^^^ w) = f v ^^^ f w)
    (hmulX : ∀ v, f (mulX v) = mulX (f v)) (x y : Block) : f (gfMul x y) = gfMul x (f y) := by
  rw [gfMul, map_gfMulLoop hxor hmulX, map_zero_of_xor hxor, gfMul]

theorem gfMul_mulX (x y : Block) : gfMul x (mulX y) = mulX (gfMul x y) :=
  (map_gfMul mulX_xor (fun _ => rfl) x y).symm

theorem gfMul_left_comm (x y z : Block) : gfMul x (gfMul y z) = gfMul y (gfMul x z) :=
  map_gfMul (gfMul_xor_right x) (gfMul_mulX x) y z

/-! ### The identity block (R150) -/

/-- The block 80 00 .. 00, the polynomial 1. -/
def oneBlock : Block := 0x80000000000000000000000000000000

theorem getLsbD_oneBlock (k : Nat) : oneBlock.getLsbD k = decide (k = 127) := by
  rw [show oneBlock = BitVec.twoPow 128 127 from rfl, BitVec.getLsbD_twoPow]
  simp [eq_comm]

/-- Below x^127, multiplication of a power of x by x is a shift without feedback. -/
theorem mulX_oneBlock_ushiftRight {i : Nat} (hi : i < 127) :
    mulX (oneBlock >>> i) = oneBlock >>> (i + 1) := by
  have hlow : (oneBlock >>> i).getLsbD 0 = false := by
    rw [BitVec.getLsbD_ushiftRight, getLsbD_oneBlock]
    exact decide_eq_false (by omega)
  rw [mulX, hlow, BitVec.shiftRight_add]
  rfl

/-- `gbit` counts from the other end than the bit vector. -/
theorem gbit_eq (x : Block) {i : Nat} (hi : i < 128) : gbit x i = x.getLsbD (127 - i) := by
  rw [gbit, getLsbD_byte _ _ _ (by omega)]
  congr 1
  omega

/-- The last `n` steps of the loop over the powers of x add the last `n` coefficients of `X`. -/
theorem getLsbD_gfMulLoop_oneBlock (x : Block) {n i : Nat} (hni : n + i = 128) (z : Block) {v : Block}
    (hv : n ≠ 0 → v = oneBlock >>> i) (k : Nat) :
    (gfMulLoop x n i z v).getLsbD k = (z.getLsbD k ^^ (decide (k < n) && x.getLsbD k)) := by
  induction n generalizing i z v with
  | zero => simp [gfMulLoop]
  | succ n ih =>
    obtain rfl := hv n.succ_ne_zero
    rw [gfMulLoop, ih (i := i + 1) (by omega) _ fun hn => mulX_oneBlock_ushiftRight (by omega),
      gbit_eq x (by omega), show 127 - i = n by omega]
    have hbit : (oneBlock >>> i).getLsbD k = decide (k = n) := by
      rw [BitVec.getLsbD_ushiftRight, getLsbD_oneBlock]
      exact decide_eq_decide.2 (by omega)
    rcases Nat.lt_trichotomy k n with h | rfl | h
    · split <;> simp [hbit, h, h.ne, Nat.lt_succ_of_lt h]
    · split <;> rename_i hx <;> simp [hbit, hx]
    · split <;> simp [hbit, h.ne', Nat.not_lt.2 h.le, Nat.not_lt.2 (Nat.succ_le_of_lt h)]

theorem gfMul_oneBlock (x : Block) : gfMul x oneBlock = x :=
  BitVec.eq_of_getLsbD_eq fun k hk => by
    have hloop := getLsbD_gfMulLoop_oneBlock x (n := 128) (i := 0) rfl 0 (v := oneBlock) (fun _ => rfl) k
    simpa [gfMul, show k < 128 from hk] using hloop

/-! ### The laws of GfMul (R153) -/

theorem gfMul_comm (x y : Block) : gfMul x y = gfMul y x := by
  have h := gfMul_left_comm x y oneBlock
  rwa [gfMul_oneBlock, gfMul_oneBlock] at h

theorem gfMul_assoc (x y z : Block) : gfMul (gfMul x y) z = gfMul x (gfMul y z) := by
  rw [gfMul_comm, gfMul_left_comm, gfMul_comm z y]

theorem gfMul_xor_left (x x' y : Block) : gfMul (x ^^^ x') y = gfMul x y ^^^ gfMul x' y := by
  rw [gfMul_comm, gfMul_xor_right, gfMul_comm y x, gfMul_comm y x']

theorem gfMul_zero_left (y : Block) : gfMul 0 y = 0 := 
  map_zero_of_xor (f := (gfMul · y)) fun v w => gfMul_xor_left v w y

theorem gfMul_zero_right (x : Block) : gfMul x 0 = 0 := map_zero_of_xor (gfMul_xor_right x)

theorem oneBlock_gfMul (y : Block) : gfMul oneBlock y = y := by rw [gfMul_comm, gfMul_oneBlock]

/-- Settles O41. -/
theorem gfMulIsFieldProduct : Obligations.GfMulIsFieldProduct := fun x x' y z =>
  ⟨gfMul_comm x y, gfMul_assoc x y z, gfMul_xor_left x x' y, gfMul_xor_right x y z, gfMul_zero_left y,
    oneBlock_gfMul y⟩

end Sys2Proof.Machine
end

section
/-! The table of the subkey (41_ghash.md section 2): a lookup is the product with one nibble of the block, and a
block is the XOR of its nibbles; so 32 lookups make the product with the block. -/

namespace Sys2Proof.Machine

/-! ### XOR over nibble positions -/

/-- The XOR of `g 0`, .., `g (n - 1)`, in the order of R155. -/
def xorBelow {w : Nat} (n : Nat) (g : Nat → BitVec w) : BitVec w :=
  (List.range n).foldl (fun z p => z ^^^ g p) 0

theorem mulH_eq (m : Table) (x : Block) : mulH m x = xorBelow 32 fun p => tableAt m p (nib x p) := rfl

theorem xorBelow_congr {w n : Nat} {f g : Nat → BitVec w} (h : ∀ p, p < n → f p = g p) :
    xorBelow n f = xorBelow n g :=
  List.foldl_ext _ _ _ fun z p hp => by rw [h p (List.mem_range.1 hp)]

theorem map_xorBelow {v w : Nat} {f : BitVec v → BitVec w} (hxor : ∀ x y, f (x ^^^ y) = f x ^^^ f y)
    (n : Nat) (g : Nat → BitVec v) : f (xorBelow n g) = xorBelow n fun p => f (g p) := by
  rw [xorBelow, ← List.foldl_hom f (g₂ := fun z p => z ^^^ f (g p)) fun z p => (hxor z (g p)).symm,
    map_zero_of_xor hxor, xorBelow]

/-! ### The nibbles of a block (R154) -/

theorem nib_lt (x : Block) (p : Nat) : nib x p < 16 := by
  rw [nib]
  split <;> omega

theorem and_xor_right {w : Nat} (b c d : BitVec w) : b &&& (c ^^^ d) = b &&& c ^^^ b &&& d := by
  ext i hi
  simp [Bool.and_xor_distrib_left]

/-- The bits of byte `k` that belong to nibble position `p`. -/
def nibbleMask (k p : Nat) : Byte := if k = p / 2 then (if p % 2 = 0 then 0xF0 else 0x0F) else 0

theorem byte_nibbleBlock_nib (x : Block) (p : Nat) {k : Nat} (hk : k < 16) :
    byte (nibbleBlock p (nib x p)) k = byte x k &&& nibbleMask k p := by
  have hhigh : ∀ b : Byte, BitVec.ofNat 8 (16 * (b.toNat / 16)) = b &&& 0xF0 := by decide
  have hlow : ∀ b : Byte, BitVec.ofNat 8 (b.toNat % 16) = b &&& 0x0F := by decide
  rw [nibbleBlock, byte_bytesOf _ hk, nib, nibbleMask]
  by_cases hkp : k = p / 2
  · rw [if_pos hkp, if_pos hkp, ← hkp]
    split
    · exact hhigh _
    · exact hlow _
  · rw [if_neg hkp, if_neg hkp]
    exact BitVec.and_zero.symm

/-- The nibble positions cover every byte. -/
theorem xorBelow_nibbleMask : ∀ k < 16, xorBelow 32 (nibbleMask k) = 0xFF := by decide

theorem xorBelow_nibbleBlock_nib (x : Block) : (xorBelow 32 fun p => nibbleBlock p (nib x p)) = x :=
  bytes_ext fun k hk =>
    calc byte (xorBelow 32 fun p => nibbleBlock p (nib x p) : Block) k
        = xorBelow 32 fun p => byte x k &&& nibbleMask k p := by
          rw [map_xorBelow (f := fun b : Block => byte b k) fun b c => byte_xor b c k]
          exact xorBelow_congr fun p _ => byte_nibbleBlock_nib x p hk
      _ = byte x k &&& xorBelow 32 (nibbleMask k) :=
          (map_xorBelow (and_xor_right (byte x k)) 32 (nibbleMask k)).symm
      _ = byte x k := by rw [xorBelow_nibbleMask k hk]; exact BitVec.and_allOnes

/-! ### Multiplication through the table (R155, R156) -/

theorem getElem_buildTable (h : Block) {p j : Nat} (hp : p < 32) (hj : j < 16) :
    (buildTable h)[p][j] = gfMul (nibbleBlock p j) h := by
  simp only [buildTable, Vector.getElem_ofFn]

theorem tableAt_eq_getElem (m : Table) {p j : Nat} (hp : p < 32) (hj : j < 16) :
    tableAt m p j = m[p][j] := by
  simp [tableAt, hp, hj]

theorem mulH_buildTable (h x : Block) : mulH (buildTable h) x = gfMul x h :=
  calc mulH (buildTable h) x
      = xorBelow 32 fun p => gfMul (nibbleBlock p (nib x p)) h := by
        rw [mulH_eq]
        exact xorBelow_congr fun p hp => by
          rw [tableAt_eq_getElem _ hp (nib_lt x p), getElem_buildTable h hp (nib_lt x p)]
    _ = gfMul (xorBelow 32 fun p => nibbleBlock p (nib x p)) h :=
        (map_xorBelow (f := (gfMul · h)) (fun b c => gfMul_xor_left b c h) 32 _).symm
    _ = gfMul x h := by rw [xorBelow_nibbleBlock_nib]

/-- Settles O42; the table of a state with `H_VALID` = 1 is that of its `H` by 10_state.md R45 (b). -/
theorem tableMultiplicationIsGfMul : Obligations.TableMultiplicationIsGfMul :=
  ⟨mulH_buildTable, fun s x hs hvalid => by rw [hs.tableMatches hvalid, mulH_buildTable]⟩

end Sys2Proof.Machine
end

section
/-! GHASH and its commands (41_ghash.md sections 3 and 4): the blocks of a string, the corner cases of the fold,
and what GH.LOADH, GH.MULH and GH.HASH leave in the state. -/

namespace Sys2Proof.Machine
open Claims

/-! ### GHASH (R157, R158) -/

theorem byte_blocks (d : List Byte) {k i : Nat} (hk : k < blockCount d.length) (hi : i < 16) :
    byte ((blocks d).getD k 0) i = d.getD (16 * k + i) 0 := by
  have hblock : (blocks d).getD k 0 = ofList 16 (d.drop (16 * k)) := by simp [blocks, hk]
  rw [hblock, byte_ofList _ hi, List.getD_eq_getElem?_getD, List.getElem?_drop,
    List.getD_eq_getElem?_getD]

theorem ghash_nil_nil (h : Block) : ghash h [] [] = 0 := by
  have hlen : lengthBlock [] [] = 0 := rfl
  have hblocks : blocks [] = [] := rfl
  rw [ghash, ghashWith, hlen, hblocks, foldBlocks, foldBlocks, List.foldl_nil, List.foldl_nil,
    BitVec.xor_self]
  exact gfMul_zero_left h

theorem ghash_zero (a c : List Byte) : ghash 0 a c = 0 := gfMul_zero_right _

/-- Settles O43. -/
theorem ghashCornerCases : Obligations.GhashCornerCases := by
  refine ⟨ghash_nil_nil, ghash_zero, fun d => ⟨length_blocks d, fun k i hk hi => ?_⟩⟩
  rw [byte_blocks d hk hi]
  split
  · rfl
  · rw [List.getD_eq_default _ _ (by omega)]

/-- The fold through the table of `H` is the GHASH under `H` (R156, R162). -/
theorem ghashWith_mulH_buildTable (h : Block) (a c : List Byte) :
    ghashWith (mulH (buildTable h)) a c = ghash h a c := by
  rw [ghash, funext (mulH_buildTable h)]

/-! ### The commands (R160 to R162) -/

/-- Settles O5, the table entry by entry. -/
theorem loadhBuildsTable : Obligations.LoadhBuildsTable :=
  ⟨decode_encode (i := .ghLoadh) rfl, fun s =>
    ⟨_, rfl, rfl, fun _ _ hp hj => getElem_buildTable s.h hp hj, by simp⟩⟩

theorem exec_ghMulh_of_hValid {s : State} (h : s.hValid = true) :
    exec .ghMulh s = .next { s with y := mulH s.m s.y }.succeed :=
  (execGhMulh_eq s).trans (if_pos h)

/-- Settles O6, by the two values of `H_VALID`. -/
theorem mulhMultipliesY : Obligations.MulhMultipliesY := by
  refine ⟨decode_encode (i := .ghMulh) rfl,
    fun s h => endsWith_of_raise (c := .config) ((execGhMulh_eq s).trans (if_neg (by simp [h]))),
    fun s h => ⟨_, exec_ghMulh_of_hValid h, rfl, onlyErrCleared_succeed rfl, fun hm => ?_⟩⟩
  have hy : mulH s.m s.y = gfMul s.y s.h := by rw [hm, mulH_buildTable]
  refine ⟨hy, fun hzero => ?_, fun hone => ?_⟩
  · exact hy.trans (by rw [hzero, gfMul_zero_left])
  · exact hy.trans (by rw [hone]; exact oneBlock_gfMul s.h)

theorem exec_ghHash_of_hValid {s : State} (h : s.hValid = true) :
    exec .ghHash s = if s.lengthsOk then
        .next { s with y := ghashWith (mulH s.m) s.aadOperand s.dataOperand }.succeed
      else .next (s.raise .length) :=
  (execGhHash_eq s).trans (if_pos h)

/-- Settles O7, by the two checks in their order. -/
theorem hashFoldsBuffers : Obligations.HashFoldsBuffers := by
  refine ⟨decode_encode (i := .ghHash) rfl,
    fun s h => endsWith_of_raise (c := .config) ((execGhHash_eq s).trans (if_neg (by simp [h]))),
    fun s h hlen => endsWith_of_raise (c := .length)
      ((exec_ghHash_of_hValid h).trans (if_neg (mt lengthsOk_iff.1 hlen))),
    fun s h hlen => ⟨_, (exec_ghHash_of_hValid h).trans (if_pos (lengthsOk_iff.2 hlen)), rfl,
      onlyErrCleared_succeed rfl, fun hm => ?_⟩⟩
  exact (congrArg (fun m => ghashWith (mulH m) s.aadOperand s.dataOperand) hm).trans
    (ghashWith_mulH_buildTable s.h _ _)

end Sys2Proof.Machine
end

section
/-! Counter mode (42_gcm.md section 2): the counter block of each data block, and from it every byte of `Gctr`. -/

namespace Sys2Proof.Machine

/-! ### Counter blocks (R171, R172) -/

/-- The block of a nonce and a 4-byte counter, the form of every counter block of `Gctr` (R171, R172). -/
def counterBlock (nonce : Bytes 12) (v : Bytes 4) : Block := nonce ++ v

theorem byte_counterBlock (nonce : Bytes 12) (v : Bytes 4) {i : Nat} (hi : i < 16) :
    byte (counterBlock nonce v) i = if i < 12 then byte nonce i else byte v (i - 12) :=
  byte_append nonce v _ i rfl hi

theorem slice_nonce_counterBlock (nonce : Bytes 12) (v : Bytes 4) :
    slice (counterBlock nonce v) 0 12 = nonce :=
  bytes_ext fun i hi => by
    rw [byte_slice _ _ _ hi, Nat.zero_add, byte_counterBlock _ _ (by omega), if_pos hi]

theorem slice_counter_counterBlock (nonce : Bytes 12) (v : Bytes 4) :
    slice (counterBlock nonce v) 12 4 = v :=
  bytes_ext fun i hi => by
    rw [byte_slice _ _ _ hi, byte_counterBlock _ _ (by omega), if_neg (by omega),
      Nat.add_sub_cancel_left]

theorem inc32_eq (cb : Block) :
    inc32 cb = counterBlock (slice cb 0 12) (be32 (beVal (slice cb 12 4) + 1)) := rfl

theorem beVal_be32 (v : Nat) : beVal (be32 v) = v % 2 ^ 32 := BitVec.toNat_ofNat v _

theorem be32_beVal_succ (v : Nat) : be32 (beVal (be32 v) + 1) = be32 (v + 1) := by
  apply BitVec.eq_of_toNat_eq
  rw [← beVal, ← beVal, beVal_be32, beVal_be32, beVal_be32, Nat.mod_add_mod]

/-- One increment takes the counter block of the value `v` to that of `v + 1` (R172). -/
theorem inc32_counterBlock (nonce : Bytes 12) (v : Nat) :
    inc32 (counterBlock nonce (be32 v)) = counterBlock nonce (be32 (v + 1)) := by
  rw [inc32_eq, slice_nonce_counterBlock, slice_counter_counterBlock, be32_beVal_succ]

/-- Settles O44, by the two parts of the incremented block. -/
theorem inc32WrapsInLastFourBytes : Obligations.Inc32WrapsInLastFourBytes := by
  refine fun cb => ⟨fun i hi => ?_, ?_⟩
  · rw [inc32_eq, byte_counterBlock _ _ (by omega), if_pos hi, byte_slice _ _ _ hi, Nat.zero_add]
  · rw [inc32_eq, slice_counter_counterBlock, beVal_be32]

/-! ### The bytes of `Gctr` (R173) -/

theorem getD_xorBytes {a b : List Byte} {i : Nat} (ha : i < a.length) (hb : i < b.length) :
    (xorBytes a b).getD i 0 = a.getD i 0 ^^^ b.getD i 0 := by
  simp [xorBytes, ha, hb]

/-- Byte `i` of the keystream whose first block is that of the counter value `v`. -/
def keystreamByte (enc : Block → Block) (nonce : Bytes 12) (v i : Nat) : Byte :=
  byte (enc (counterBlock nonce (be32 (v + i / 16)))) (i % 16)

theorem getD_take_xor_block (d : List Byte) (ks : Block) {i : Nat} (hi : i < 16) (hd : i < d.length) :
    (xorBytes (d.take 16) (toList ks)).getD i 0 = d.getD i 0 ^^^ byte ks i := by
  have htake : i < (d.take 16).length := by rw [List.length_take]; omega
  rw [getD_xorBytes htake (by rwa [length_toList]), getD_toList _ hi, List.getD_eq_getElem?_getD,
    List.getElem?_take_of_lt hi, List.getD_eq_getElem?_getD]

/-- The loop XORs each byte with the keystream that begins after the counter it stands at. -/
theorem getD_gctrLoop (enc : Block → Block) (nonce : Bytes 12) {n v i : Nat} {d : List Byte}
    (hd : i < d.length) (hn : d.length ≤ 16 * n) :
    (gctrLoop enc n (counterBlock nonce (be32 v)) d).getD i 0 =
      d.getD i 0 ^^^ keystreamByte enc nonce (v + 1) i := by
  induction n generalizing v i d with
  | zero => omega
  | succ n ih =>
    have hhead : (xorBytes (d.take 16) (toList (enc (counterBlock nonce (be32 (v + 1)))))).length =
        min 16 d.length := by simp [xorBytes, Nat.min_comm]
    rw [gctrLoop, inc32_counterBlock]
    by_cases hi : i < 16
    · -- in the first block
      rw [List.getD_append _ _ _ _ (by omega), getD_take_xor_block d _ hi hd, keystreamByte,
        Nat.div_eq_of_lt hi, Nat.mod_eq_of_lt hi, Nat.add_zero]
    · -- in a later block, which the rest of the loop makes
      have hrest : i - 16 < (d.drop 16).length := by rw [List.length_drop]; omega
      rw [List.getD_append_right _ _ _ _ (by omega), hhead, Nat.min_eq_left (by omega),
        ih hrest (by rw [List.length_drop]; omega), keystreamByte, keystreamByte,
        show v + 1 + 1 + (i - 16) / 16 = v + 1 + i / 16 by omega, show (i - 16) % 16 = i % 16 by omega,
        List.getD_eq_getElem?_getD, List.getElem?_drop, Nat.add_sub_cancel' (by omega),
        List.getD_eq_getElem?_getD]

/-- Every byte of `Gctr`: the data byte XORed with the keystream, which begins at the counter 2. -/
theorem getD_gctr (enc : Block → Block) (nonce : Bytes 12) {d : List Byte} {i : Nat}
    (hi : i < d.length) :
    (gctr enc (preCounter nonce) d).getD i 0 = d.getD i 0 ^^^ keystreamByte enc nonce 2 i :=
  getD_gctrLoop enc nonce hi (by rw [blockCount]; omega)

/-- The keystream does not depend on the data, so a second pass takes the first one back. -/
theorem gctr_gctr (enc : Block → Block) (nonce : Bytes 12) (d : List Byte) :
    gctr enc (preCounter nonce) (gctr enc (preCounter nonce) d) = d := by
  refine List.ext_getElem (by simp) fun i h hd => ?_
  have hc : i < (gctr enc (preCounter nonce) d).length := by rwa [length_gctr]
  rw [← List.getD_eq_getElem _ 0 h, ← List.getD_eq_getElem _ 0 hd, getD_gctr enc nonce hc,
    getD_gctr enc nonce hd, BitVec.xor_assoc, BitVec.xor_self, BitVec.xor_zero]

/-- Settles O45, from the bytes of `Gctr`. -/
theorem gctrUsesCounterFromTwo : Obligations.GctrUsesCounterFromTwo := by
  refine fun enc nonce d => ⟨length_gctr enc _ d, fun i hi => ?_, gctr_gctr enc nonce d⟩
  rw [Nat.add_comm (i / 16) 2]
  exact getD_gctr enc nonce hi

end Sys2Proof.Machine
end

section
/-! The commands GCM.SEAL and GCM.OPEN (42_gcm.md sections 4 and 5): what each leaves in the state, and what a
receiver with the same key, nonce and AAD gets from a sealed string. -/

namespace Sys2Proof.Machine
open Claims

/-! ### The checks of both commands (R176, R177) -/

section
variable {i : Instr} {s : State}

/-- Both commands check the key first and then the lengths. -/
theorem exec_gcm_checked (hi : i ∈ [Instr.gcmSeal, .gcmOpen]) :
    ∃ body, exec i s = s.checked [s.keyCheck, s.lengthCheck] body := by
  obtain rfl | rfl : i = .gcmSeal ∨ i = .gcmOpen := by simpa using hi
  · exact ⟨_, by rw [exec, execGcmSeal]⟩
  · exact ⟨_, by rw [exec, execGcmOpen]⟩

theorem gcm_endsWith_config (hi : i ∈ [Instr.gcmSeal, .gcmOpen]) (hkey : s.keyValid = false) :
    EndsWith i s 3 := by
  obtain ⟨body, h⟩ := exec_gcm_checked (s := s) hi
  rw [State.keyCheck, checked_cons, hkey] at h
  exact endsWith_of_raise (c := .config) h

theorem gcm_endsWith_length (hi : i ∈ [Instr.gcmSeal, .gcmOpen]) (hkey : s.keyValid = true)
    (hlen : ¬ LengthsFit s) : EndsWith i s 4 := by
  obtain ⟨body, h⟩ := exec_gcm_checked (s := s) hi
  have hbad : s.lengthsOk = false := Bool.eq_false_iff.2 (mt lengthsOk_iff.1 hlen)
  rw [State.keyCheck, checked_cons, hkey, State.lengthCheck, checked_cons, hbad] at h
  exact endsWith_of_raise (c := .length) h

end

/-! ### The states the commands end in -/

/-- The state GCM.SEAL ends in when its checks pass (R176). -/
def State.sealed (s : State) : State :=
  { (s.putGcm (s.ctr s.dataOperand)).putOutput (s.ctr s.dataOperand) with
    tag := s.gcmTag (s.ctr s.dataOperand) }.succeed

/-- The state GCM.OPEN ends in when the tag agrees (R177). -/
def State.opened (s : State) : State :=
  ((s.putGcm s.dataOperand).putOutput (s.ctr s.dataOperand)).succeed

/-- The state GCM.OPEN ends in when the tag does not agree (R177). -/
def State.openFailed (s : State) : State := (s.putGcm s.dataOperand).raiseOutcome .authFailed

theorem exec_gcmSeal_of_checks {s : State} (hkey : s.keyValid = true) (hlen : LengthsFit s) :
    exec .gcmSeal s = .next s.sealed :=
  (execGcmSeal_eq s).trans ((if_pos hkey).trans (if_pos (lengthsOk_iff.2 hlen)))

theorem exec_gcmOpen_of_checks {s : State} (hkey : s.keyValid = true) (hlen : LengthsFit s) :
    exec .gcmOpen s =
      if s.gcmTag s.dataOperand = s.tagIn then .next s.opened else .next s.openFailed :=
  (execGcmOpen_eq s).trans ((if_pos hkey).trans (if_pos (lengthsOk_iff.2 hlen)))

/-- Counter mode keeps the length, so `OUT_LEN` becomes `IN_LEN` (R173, R176). -/
theorem ofNat_length_ctr (s : State) : BitVec.ofNat 32 (s.ctr s.dataOperand).length = s.inLen := by
  rw [length_ctr, length_dataOperand, BitVec.ofNat_toNat, BitVec.setWidth_eq]

/-- What both commands write, field by field. -/
theorem putGcm_eq (s : State) (c : List Byte) :
    s.putGcm c = { s with
      h := s.subkey, m := buildTable s.subkey, y := s.gcmHash c, status := putHValid s.status true } := by
  simp only [State.putGcm, State.setHValid, State.withStatus]

theorem sealed_eq (s : State) :
    s.sealed = { s with
      h := s.subkey, m := buildTable s.subkey, y := s.gcmHash (s.ctr s.dataOperand),
      outBuf := s.sealed.outBuf, outLen := s.inLen, tag := s.gcmTag (s.ctr s.dataOperand),
      status := s.sealed.status } := by
  simp only [State.sealed, putGcm_eq, State.putOutput, State.succeed, State.withStatus,
    ofNat_length_ctr]

theorem opened_eq (s : State) :
    s.opened = { s with
      h := s.subkey, m := buildTable s.subkey, y := s.gcmHash s.dataOperand,
      outBuf := s.opened.outBuf, outLen := s.opened.outLen, status := s.opened.status } := by
  simp only [State.opened, putGcm_eq, State.putOutput, State.succeed, State.withStatus]

theorem openFailed_eq (s : State) :
    s.openFailed = { s with
      h := s.subkey, m := buildTable s.subkey, y := s.gcmHash s.dataOperand,
      outBuf := s.openFailed.outBuf, outLen := s.openFailed.outLen, status := s.openFailed.status } := by
  simp only [State.openFailed, putGcm_eq, State.raiseOutcome, State.raise, State.withStatus]

theorem sealed_err (s : State) : s.sealed.err = 0 := succeed_err _

theorem opened_err (s : State) : s.opened.err = 0 := succeed_err _

theorem openFailed_err (s : State) : s.openFailed.err = 1 := raiseOutcome_err _ _

theorem sealed_keyValid (s : State) : s.sealed.keyValid = s.keyValid :=
  (succeed_keyValid _).trans (putGcm_keyValid s _)

theorem sealed_hValid (s : State) : s.sealed.hValid = true :=
  (succeed_hValid _).trans (putGcm_hValid s _)

theorem opened_outLen (s : State) : s.opened.outLen = s.inLen := ofNat_length_ctr s

/-- A string stored from byte 0 on, with its length in `OUT_LEN`, is the output (R175). -/
theorem outputIs_of_memWrite {s u : State} {v : List Byte} (hs : s.outBuf.wf = true)
    (hv : v.length < 2 ^ 32) (hbuf : u.outBuf = memWrite s.outBuf 0 v)
    (hlen : u.outLen = BitVec.ofNat 32 v.length) : OutputIs s u v := by
  refine ⟨?_, ?_, fun a ha => ?_, fun a ha => ?_⟩
  · rw [hlen, BitVec.toNat_ofNat, Nat.mod_eq_of_lt hv]
  · rw [hbuf]
    exact wf_memWrite hs 0 v
  · rw [hbuf, read_memWrite hs, if_pos (by omega), Nat.sub_zero]
  · rw [hbuf, read_memWrite hs, if_neg (by omega)]

theorem outputIs_sealed {s : State} (hs : s.outBuf.wf = true) :
    OutputIs s s.sealed (s.ctr s.dataOperand) :=
  outputIs_of_memWrite hs (length_ctr_lt s) rfl rfl

theorem outputIs_opened {s : State} (hs : s.outBuf.wf = true) :
    OutputIs s s.opened (s.ctr s.dataOperand) :=
  outputIs_of_memWrite hs (length_ctr_lt s) rfl rfl

theorem outputCleared_openFailed (s : State) : OutputCleared s.openFailed :=
  ⟨rfl, wf_zeros, read_zeros⟩

/-- Settles O8, by the two checks in their order. -/
theorem sealProducesCiphertextAndTag : Obligations.SealProducesCiphertextAndTag := by
  refine ⟨decode_encode (i := .gcmSeal) rfl, fun _ => gcm_endsWith_config (by decide),
    fun _ => gcm_endsWith_length (by decide), fun s hkey hlen hs => ?_⟩
  exact ⟨_, exec_gcmSeal_of_checks hkey hlen, sealed_eq s, outputIs_sealed hs, by simp [State.sealed]⟩

/-- Settles O9, by the two checks in their order and the comparison of the tags byte by byte. -/
theorem openVerifiesAndDecrypts : Obligations.OpenVerifiesAndDecrypts := by
  refine ⟨decode_encode (i := .gcmOpen) rfl, fun _ => gcm_endsWith_config (by decide),
    fun _ => gcm_endsWith_length (by decide), fun s hkey hlen hs => ?_⟩
  have hexec := exec_gcmOpen_of_checks hkey hlen
  by_cases htag : s.gcmTag s.dataOperand = s.tagIn
  · refine ⟨s.opened, hexec.trans (if_pos htag), opened_eq s, fun _ => ?_, fun hne => ?_⟩
    · exact ⟨opened_outLen s, outputIs_opened hs, by simp [State.opened]⟩
    · exact absurd (fun i _ => congrArg (byte · i) htag) hne
  · refine ⟨s.openFailed, hexec.trans (if_neg htag), openFailed_eq s, fun heq => ?_, fun _ => ?_⟩
    · exact absurd (bytes_ext heq) htag
    · exact ⟨outputCleared_openFailed s, by simp [State.openFailed, errValue]⟩

/-! ### Bytes beyond the lengths (R175) -/

/-- A GCM command that succeeds leaves its counter-mode result as the output. -/
theorem outputIs_of_gcm_success {i : Instr} (hi : i ∈ [Instr.gcmSeal, .gcmOpen]) {s : State}
    (hs : s.outBuf.wf = true) :
    NextSatisfies (fun u => u.err = 0 → OutputIs s u (s.ctr s.dataOperand)) (exec i s) := by
  have hraise : ∀ pc ∈ [s.keyCheck, s.lengthCheck],
      (s.raise pc.2).err = 0 → OutputIs s (s.raise pc.2) (s.ctr s.dataOperand) := by
    intro pc hpc herr
    rw [raise_err] at herr
    obtain rfl | rfl : pc = s.keyCheck ∨ pc = s.lengthCheck := by simpa using hpc
    · exact absurd herr (by decide : errValue .config ≠ 0)
    · exact absurd herr (by decide : errValue .length ≠ 0)
  obtain rfl | rfl : i = .gcmSeal ∨ i = .gcmOpen := by simpa using hi
  · rw [exec, execGcmSeal]
    exact nextSatisfies_checked hraise fun _ => nextSatisfies_next fun _ => outputIs_sealed hs
  · rw [exec, execGcmOpen]
    refine nextSatisfies_checked hraise fun _ => nextSatisfies_ite
      (nextSatisfies_next fun _ => outputIs_opened hs) (nextSatisfies_next fun herr => ?_)
    exact absurd ((openFailed_err s).symm.trans herr) (by decide)

/-- Settles O34, by the commands' operands and by the output of a success. -/
theorem gcmIgnoresBytesBeyondLengths : Obligations.GcmIgnoresBytesBeyondLengths := by
  intro i s t a b hi h ha hb
  refine ⟨exec_withInputs_of_agree h (fun _ => ha) fun _ => hb, fun hs herr k hk => ?_⟩
  obtain ⟨-, -, -, habove⟩ := outputIs_of_gcm_success hi hs t h herr
  exact habove k (by rwa [length_ctr, length_dataOperand])

/-! ### What a receiver gets from a sealed string (R178) -/

/-- `r` holds what GCM.SEAL makes from `s`: the key, nonce and AAD of `s`, and as its data the ciphertext of the
data of `s`. -/
structure ReceivesSealOf (r s : State) : Prop where
  encBlock : r.encBlock = s.encBlock
  nonce : r.nonce = s.nonce
  aad : r.aadOperand = s.aadOperand
  data : r.dataOperand = s.ctr s.dataOperand

namespace ReceivesSealOf

variable {r s : State}

theorem ctr_data (h : ReceivesSealOf r s) : r.ctr r.dataOperand = s.dataOperand := by
  rw [h.data, State.ctr, h.encBlock, h.nonce]
  exact gctr_gctr s.encBlock s.nonce s.dataOperand

theorem gcmHash_data (h : ReceivesSealOf r s) :
    r.gcmHash r.dataOperand = s.gcmHash (s.ctr s.dataOperand) := by
  rw [State.gcmHash, State.gcmHash, State.subkey, State.subkey, h.encBlock, h.aad, h.data]

theorem gcmTag_data (h : ReceivesSealOf r s) :
    r.gcmTag r.dataOperand = s.gcmTag (s.ctr s.dataOperand) := by
  rw [State.gcmTag, State.gcmTag, h.gcmHash_data, h.encBlock, h.nonce]

/-- An output that is counter mode over the received data is the data that was sealed. -/
theorem read_output (h : ReceivesSealOf r s) {u : State}
    (hu : OutputIs r u (r.ctr r.dataOperand)) {k : Nat} (hk : k < s.inLen.toNat) :
    u.outBuf.read k = s.inBuf.read k := by
  obtain ⟨-, -, hread, -⟩ := hu
  rw [h.ctr_data] at hread
  rw [hread k (by rwa [length_dataOperand]), State.dataOperand, getD_memRead _ _ hk, Nat.zero_add]

end ReceivesSealOf

/-- The state after GCM.SEAL in which the ciphertext of `OUTBUF` has been copied into `INBUF`, with any
`TAG_IN`. -/
theorem receivesSealOf_sealed {s : State} (hs : s.outBuf.wf = true) {b : Memory}
    (hb : ∀ k, k < s.inLen.toNat → b.read k = s.sealed.outBuf.read k) (tagIn : Bytes 12) :
    ReceivesSealOf { s.sealed with inBuf := b, tagIn := tagIn } s where
  encBlock := rfl
  nonce := rfl
  aad := rfl
  data := by
    have hlen : (s.ctr s.dataOperand).length = s.inLen.toNat := by
      rw [length_ctr, length_dataOperand]
    have hcopy : memRead b 0 s.inLen.toNat = memRead s.sealed.outBuf 0 s.inLen.toNat :=
      memRead_congr fun k hk => by
        rw [Nat.zero_add]
        exact hb k hk
    exact hcopy.trans (hlen ▸ memRead_memWrite hs 0 (s.ctr s.dataOperand))

/-- The checks that GCM.SEAL passed are passed again after it. -/
theorem sealed_checks {s : State} (hkey : s.keyValid = true) (hlen : LengthsFit s) (b : Memory)
    (tagIn : Bytes 12) :
    State.keyValid { s.sealed with inBuf := b, tagIn := tagIn } = true ∧
      LengthsFit { s.sealed with inBuf := b, tagIn := tagIn } :=
  ⟨(sealed_keyValid s).trans hkey, hlen⟩

/-- Settles O46: the tag of the received ciphertext is the one GCM.SEAL made. -/
theorem openRecoversSealedPlaintext : Obligations.OpenRecoversSealedPlaintext := by
  intro s t b hkey hlen hs h hb
  obtain rfl : s.sealed = t := Host.Outcome.next.inj ((exec_gcmSeal_of_checks hkey hlen).symm.trans h)
  have hrecv := receivesSealOf_sealed hs hb s.sealed.tag
  obtain ⟨hkey', hlen'⟩ := sealed_checks hkey hlen b s.sealed.tag
  refine ⟨_, (exec_gcmOpen_of_checks hkey' hlen').trans (if_pos hrecv.gcmTag_data), opened_err _,
    opened_outLen _, fun k hk => ?_⟩
  exact hrecv.read_output (outputIs_opened (wf_memWrite hs 0 _)) hk

/-- Settles O47: counter mode is its own inverse. -/
theorem sealOfCiphertextReturnsPlaintext : Obligations.SealOfCiphertextReturnsPlaintext := by
  intro s t b hkey hlen hs h hb
  obtain rfl : s.sealed = t := Host.Outcome.next.inj ((exec_gcmSeal_of_checks hkey hlen).symm.trans h)
  have hrecv := receivesSealOf_sealed hs hb s.sealed.tagIn
  obtain ⟨hkey', hlen'⟩ := sealed_checks hkey hlen b s.sealed.tagIn
  refine ⟨_, exec_gcmSeal_of_checks hkey' hlen', sealed_err _, fun k hk => ?_⟩
  exact hrecv.read_output (outputIs_sealed (wf_memWrite hs 0 _)) hk

/-- Settles O48: GCM.SEAL leaves the table of its own subkey, through which GH.HASH computes. -/
theorem sealHashAgreesWithGhHash : Obligations.SealHashAgreesWithGhHash := by
  intro s t b hkey hlen hs h hb
  obtain rfl : s.sealed = t := Host.Outcome.next.inj ((exec_gcmSeal_of_checks hkey hlen).symm.trans h)
  have hrecv := receivesSealOf_sealed hs hb s.sealed.tagIn
  obtain ⟨-, hlen'⟩ := sealed_checks hkey hlen b s.sealed.tagIn
  have hvalid : State.hValid { s.sealed with inBuf := b } = true := sealed_hValid s
  refine ⟨⟨_, (exec_ghHash_of_hValid hvalid).trans (if_pos (lengthsOk_iff.2 hlen')), succeed_err _,
    ?_⟩, fun i hi => ?_⟩
  · exact (ghashWith_mulH_buildTable s.subkey _ _).trans hrecv.gcmHash_data
  · exact (byte_slice _ 0 12 hi).trans (congrArg (byte _) (Nat.zero_add i))

end Sys2Proof.Machine
end

section
/-! The RFC 3394 key wrap (43_keywrap.md section 2): a string is its 8-byte blocks in order, each pass of
`KwUnwrap` takes back the pass of `KwWrap` with the same `j`, and so unwrapping what was wrapped gives the
integrity vector and the key data (R195). -/

namespace Sys2Proof.Machine

/-! ### The 8-byte blocks of a string (R192, R194) -/

theorem ofList_toList_append {n : Nat} (x : Bytes n) (d : List Byte) : ofList n (toList x ++ d) = x :=
  bytes_ext fun i hi => by
    rw [byte_ofList _ hi, List.getD_append _ _ _ _ (by rwa [length_toList]), getD_toList _ hi]

/-- A string that begins with 8 known bytes has them as its first block. -/
theorem halfBlocks_toList_append (x : Bytes 8) (d : List Byte) :
    halfBlocks (toList x ++ d) = x :: halfBlocks d := by
  have hcount : halfBlockCount (toList x ++ d) = halfBlockCount d + 1 := by
    rw [halfBlockCount, halfBlockCount, List.length_append, length_toList, Nat.add_div_left _ (by decide)]
  have hrest : ∀ i, (toList x ++ d).drop (8 * (i + 1)) = d.drop (8 * i) := fun i => by
    rw [Nat.mul_succ, Nat.add_comm, ← List.drop_drop, List.drop_left' (length_toList x)]
  rw [halfBlocks, hcount, List.range_succ_eq_map, List.map_cons, List.map_map, Nat.mul_zero,
    List.drop_zero, ofList_toList_append, halfBlocks]
  exact congrArg _ (List.map_congr_left fun i _ => congrArg (ofList 8) (hrest i))

theorem halfBlocks_flatMap_toList (r : List (Bytes 8)) : halfBlocks (r.flatMap toList) = r := by
  induction r with
  | nil => rfl
  | cons x r ih => rw [List.flatMap_cons, halfBlocks_toList_append, ih]

/-- A string of `n` 8-byte blocks is put together from them again. -/
theorem flatMap_toList_halfBlocks {n : Nat} {p : List Byte} (hp : p.length = 8 * n) :
    (halfBlocks p).flatMap toList = p := by
  induction n generalizing p with
  | zero =>
    obtain rfl := List.eq_nil_of_length_eq_zero hp
    rfl
  | succ n ih =>
    have hfirst : toList (ofList 8 (p.take 8)) = p.take 8 :=
      toList_ofList (by rw [List.length_take]; omega)
    have hrest : (p.drop 8).length = 8 * n := by rw [List.length_drop]; omega
    calc (halfBlocks p).flatMap toList
        = (halfBlocks (toList (ofList 8 (p.take 8)) ++ p.drop 8)).flatMap toList := by
          rw [hfirst, List.take_append_drop]
      _ = toList (ofList 8 (p.take 8)) ++ p.drop 8 := by
          rw [halfBlocks_toList_append, List.flatMap_cons, ih hrest]
      _ = p := by rw [hfirst, List.take_append_drop]

/-! ### The two halves of a block (R192, R194) -/

/-- The block `A ‖ R[i]`, which every step of both loops takes apart and puts together. -/
def joinHalves (a r : Bytes 8) : Block := a ++ r

theorem byte_joinHalves (a r : Bytes 8) {i : Nat} (hi : i < 16) :
    byte (joinHalves a r) i = if i < 8 then byte a i else byte r (i - 8) :=
  byte_append a r _ i rfl hi

theorem slice_left_joinHalves (a r : Bytes 8) : slice (joinHalves a r) 0 8 = a :=
  bytes_ext fun i hi => by
    rw [byte_slice _ _ _ hi, Nat.zero_add, byte_joinHalves _ _ (by omega), if_pos hi]

theorem slice_right_joinHalves (a r : Bytes 8) : slice (joinHalves a r) 8 8 = r :=
  bytes_ext fun i hi => by
    rw [byte_slice _ _ _ hi, byte_joinHalves _ _ (by omega), if_neg (by omega),
      Nat.add_sub_cancel_left]

theorem joinHalves_slice (b : Block) : joinHalves (slice b 0 8) (slice b 8 8) = b :=
  bytes_ext fun i hi => by
    rw [byte_joinHalves _ _ hi]
    split
    · rw [byte_slice _ _ _ ‹_›, Nat.zero_add]
    · rw [byte_slice _ _ _ (by omega), Nat.add_sub_cancel' (by omega)]

theorem wrapPass_cons (enc : Block → Block) (t : Nat) (a r : Bytes 8) (rs : List (Bytes 8)) :
    wrapPass enc t a (r :: rs) =
      ((wrapPass enc (t + 1) (slice (enc (joinHalves a r)) 0 8 ^^^ be64 t) rs).1,
        slice (enc (joinHalves a r)) 8 8 ::
          (wrapPass enc (t + 1) (slice (enc (joinHalves a r)) 0 8 ^^^ be64 t) rs).2) := rfl

theorem unwrapPass_cons (dec : Block → Block) (t : Nat) (a r : Bytes 8) (rs : List (Bytes 8)) :
    unwrapPass dec t a (r :: rs) =
      (slice (dec (joinHalves ((unwrapPass dec (t + 1) a rs).1 ^^^ be64 t) r)) 0 8,
        slice (dec (joinHalves ((unwrapPass dec (t + 1) a rs).1 ^^^ be64 t) r)) 8 8 ::
          (unwrapPass dec (t + 1) a rs).2) := rfl

/-! ### Unwrapping takes wrapping back (R195) -/

section
variable {enc dec : Block → Block}

/-- The pass of `KwUnwrap` goes through the blocks from the last to the first, and so meets each step of the
`KwWrap` pass after all later ones are taken back. -/
theorem unwrapPass_wrapPass (hdec : ∀ x, dec (enc x) = x) (t : Nat) (a : Bytes 8)
    (r : List (Bytes 8)) :
    unwrapPass dec t (wrapPass enc t a r).1 (wrapPass enc t a r).2 = (a, r) := by
  induction r generalizing t a with
  | nil => rfl
  | cons r rs ih =>
    rw [wrapPass_cons, unwrapPass_cons, ih, BitVec.xor_assoc, BitVec.xor_self, BitVec.xor_zero,
      joinHalves_slice, hdec, slice_left_joinHalves, slice_right_joinHalves]

/-- The rounds of `KwUnwrap` go through the values of `j` in the opposite order. -/
theorem unwrapRounds_wrapRounds (hdec : ∀ x, dec (enc x) = x) (ar : Bytes 8 × List (Bytes 8))
    (js : List Nat) : unwrapRounds dec (wrapRounds enc ar js) js.reverse = ar := by
  induction js generalizing ar with
  | nil => rfl
  | cons j js ih =>
    have hlater : unwrapRounds dec (wrapRounds enc ar (j :: js)) js.reverse =
        wrapPass enc (ar.2.length * j + 1) ar.1 ar.2 := ih _
    rw [unwrapRounds] at hlater
    rw [unwrapRounds, List.reverse_cons, List.foldl_append, hlater, List.foldl_cons, List.foldl_nil,
      length_wrapPass, unwrapPass_wrapPass hdec]

/-- A string given as `A` and its blocks is unwrapped from exactly these. -/
theorem kwUnwrap_toList_append (dec : Block → Block) (ar : Bytes 8 × List (Bytes 8)) :
    kwUnwrap dec (toList ar.1 ++ ar.2.flatMap toList) =
      ((unwrapRounds dec ar [5, 4, 3, 2, 1, 0]).1,
        (unwrapRounds dec ar [5, 4, 3, 2, 1, 0]).2.flatMap toList) := by
  rw [kwUnwrap, ofList_toList_append, List.drop_left' (length_toList ar.1), halfBlocks_flatMap_toList]

/-- R195, for every pair of block functions of which the second takes the first back. -/
theorem kwUnwrap_kwWrap (hdec : ∀ x, dec (enc x) = x) {p : List Byte} (hp : p.length % 8 = 0) :
    kwUnwrap dec (kwWrap enc p) = (integrityVector, p) := by
  have hrounds := unwrapRounds_wrapRounds hdec (integrityVector, halfBlocks p) [0, 1, 2, 3, 4, 5]
  have hjs : [0, 1, 2, 3, 4, 5].reverse = [5, 4, 3, 2, 1, 0] := rfl
  rw [kwWrap, kwUnwrap_toList_append, ← hjs, hrounds,
    flatMap_toList_halfBlocks (Nat.mul_div_cancel' (Nat.dvd_of_mod_eq_zero hp)).symm]

end

/-- Settles O49. -/
theorem unwrapInvertsWrap : Obligations.UnwrapInvertsWrap := by
  intro nk k p _ _ hp _
  exact kwUnwrap_kwWrap (aesDec_aesEnc _ (by omega)) hp

end Sys2Proof.Machine
end

section
/-! The commands KW.WRAP and KW.UNWRAP (43_keywrap.md section 3): what each leaves in the state, and that KW.UNWRAP
of the output of KW.WRAP gives the key data back. -/

namespace Sys2Proof.Machine
open Claims

/-! ### The length checks (R193) -/

theorem wrapLengthOk_iff_fits {s : State} : s.wrapLengthOk = true ↔ WrapLengthFits s := by
  rw [wrapLengthOk_iff, WrapLengthFits]
  omega

theorem unwrapLengthOk_iff_fits {s : State} : s.unwrapLengthOk = true ↔ UnwrapLengthFits s :=
  unwrapLengthOk_iff

/-! ### The integrity vector (R191) -/

theorem byte_integrityVector : ∀ i < 8, byte integrityVector i = 0xA6 := by decide

theorem eq_integrityVector_iff {a : Bytes 8} : a = integrityVector ↔ ∀ i, i < 8 → byte a i = 0xA6 := by
  refine ⟨fun h => h ▸ byte_integrityVector, fun h => bytes_ext fun i hi => ?_⟩
  rw [h i hi, byte_integrityVector i hi]

/-! ### The state a success ends in (R196, R197) -/

/-- The state a command ends in that succeeds with the output `v` and writes nothing else. -/
def State.succeedWith (s : State) (v : List Byte) : State := (s.putOutput v).succeed

/-- The state `s.succeedWith v` after the host has copied the output into `INBUF`, which holds `b`, and `OUT_LEN`
into `IN_LEN`. -/
def State.copiedBack (s : State) (v : List Byte) (b : Memory) : State :=
  { s.succeedWith v with inBuf := b, inLen := (s.succeedWith v).outLen }

section
variable {s : State} {v : List Byte} {b : Memory}

theorem succeedWith_eq : s.succeedWith v = { s with
    outBuf := (s.succeedWith v).outBuf, outLen := BitVec.ofNat 32 v.length,
    status := (s.succeedWith v).status } := rfl

theorem succeedWith_err : (s.succeedWith v).err = 0 := succeed_err _

theorem onlyErrCleared_succeedWith : OnlyErrCleared s (s.succeedWith v) := onlyErrCleared_succeed rfl

theorem outputIs_succeedWith (hs : s.outBuf.wf = true) (hv : v.length ≤ Config.bufMax) :
    OutputIs s (s.succeedWith v) v :=
  outputIs_of_memWrite hs (hv.trans_lt Config.bufMax_lt_word) rfl rfl

theorem copiedBack_keyValid : (s.copiedBack v b).keyValid = s.keyValid := succeed_keyValid _

theorem copiedBack_decBlock : (s.copiedBack v b).decBlock = s.decBlock := rfl

theorem copiedBack_outBuf_wf (hs : s.outBuf.wf = true) : (s.copiedBack v b).outBuf.wf = true :=
  wf_memWrite hs 0 v

theorem copiedBack_inLen (hs : s.outBuf.wf = true) (hv : v.length ≤ Config.bufMax) :
    (s.copiedBack v b).inLen.toNat = v.length :=
  (outputIs_succeedWith hs hv).1

/-- The output that was copied is the next command's data. -/
theorem copiedBack_dataOperand (hs : s.outBuf.wf = true) (hv : v.length ≤ Config.bufMax)
    (hb : ∀ k, k < (s.succeedWith v).outLen.toNat → b.read k = (s.succeedWith v).outBuf.read k) :
    (s.copiedBack v b).dataOperand = v := by
  have hlen : (s.succeedWith v).outLen.toNat = v.length := copiedBack_inLen (b := b) hs hv
  calc (s.copiedBack v b).dataOperand
      = memRead (s.succeedWith v).outBuf 0 (s.succeedWith v).outLen.toNat :=
        memRead_congr fun k hk => by
          rw [Nat.zero_add]
          exact hb k hk
    _ = memRead (s.succeedWith v).outBuf 0 v.length := by rw [hlen]
    _ = v := memRead_memWrite hs 0 v

end

/-! ### The commands (R196, R197) -/

section
variable {s : State}

theorem exec_kwWrap_of_keyValid (h : s.keyValid = true) :
    exec .kwWrap s =
      if s.wrapLengthOk then .next (s.succeedWith (kwWrap s.encBlock s.dataOperand))
      else .next (s.raise .length) :=
  (execKwWrap_eq s).trans (if_pos h)

theorem exec_kwWrap_of_checks (hkey : s.keyValid = true) (hlen : WrapLengthFits s) :
    exec .kwWrap s = .next (s.succeedWith (kwWrap s.encBlock s.dataOperand)) :=
  (exec_kwWrap_of_keyValid hkey).trans (if_pos (wrapLengthOk_iff_fits.2 hlen))

theorem exec_kwUnwrap_of_keyValid (h : s.keyValid = true) :
    exec .kwUnwrap s =
      if s.unwrapLengthOk then
        if (kwUnwrap s.decBlock s.dataOperand).1 = integrityVector then
          .next (s.succeedWith (kwUnwrap s.decBlock s.dataOperand).2)
        else .next (s.raiseOutcome .keyUnwrapFailed)
      else .next (s.raise .length) :=
  (execKwUnwrap_eq s).trans (if_pos h)

theorem exec_kwUnwrap_of_checks (hkey : s.keyValid = true) (hlen : UnwrapLengthFits s) :
    exec .kwUnwrap s =
      if (kwUnwrap s.decBlock s.dataOperand).1 = integrityVector then
        .next (s.succeedWith (kwUnwrap s.decBlock s.dataOperand).2)
      else .next (s.raiseOutcome .keyUnwrapFailed) :=
  (exec_kwUnwrap_of_keyValid hkey).trans (if_pos (unwrapLengthOk_iff_fits.2 hlen))

theorem length_kwWrap_dataOperand (enc : Block → Block) (hlen : WrapLengthFits s) :
    (kwWrap enc s.dataOperand).length = s.inLen.toNat + 8 := by
  rw [length_kwWrap _ (by rw [length_dataOperand]; exact hlen.1), length_dataOperand]

theorem length_kwUnwrap_dataOperand (dec : Block → Block) (hlen : UnwrapLengthFits s) :
    (kwUnwrap dec s.dataOperand).2.length = s.inLen.toNat - 8 := by
  rw [length_kwUnwrap _ (by rw [length_dataOperand]; exact hlen.1), length_dataOperand]

/-- `OUT_LEN` after KW.WRAP, as a word. -/
theorem ofNat_length_kwWrap (enc : Block → Block) (hlen : WrapLengthFits s) :
    BitVec.ofNat 32 (kwWrap enc s.dataOperand).length = s.inLen + 8 := by
  rw [length_kwWrap_dataOperand enc hlen]
  bv_omega

/-- `OUT_LEN` after KW.UNWRAP, as a word; the check keeps the subtraction from passing below 0. -/
theorem ofNat_length_kwUnwrap (dec : Block → Block) (hlen : UnwrapLengthFits s) :
    BitVec.ofNat 32 (kwUnwrap dec s.dataOperand).2.length = s.inLen - 8 := by
  rw [length_kwUnwrap_dataOperand dec hlen]
  obtain ⟨-, hmin, -⟩ := hlen
  bv_omega

end

/-- Settles O10, by the two checks in their order. -/
theorem wrapWritesWrappedKey : Obligations.WrapWritesWrappedKey := by
  refine ⟨decode_encode (i := .kwWrap) rfl,
    fun s h => endsWith_of_raise (c := .config) ((execKwWrap_eq s).trans (if_neg (by simp [h]))),
    fun s h hlen => endsWith_of_raise (c := .length)
      ((exec_kwWrap_of_keyValid h).trans (if_neg (mt wrapLengthOk_iff_fits.1 hlen))),
    fun s h hlen hs => ⟨_, exec_kwWrap_of_checks h hlen, ?_,
      outputIs_succeedWith hs (length_kwWrap_le _ (wrapLengthOk_iff_fits.2 hlen)),
      onlyErrCleared_succeedWith⟩⟩
  rw [← ofNat_length_kwWrap s.encBlock hlen]
  exact succeedWith_eq

/-- Settles O11, by the two checks in their order and the comparison of `A` byte by byte. -/
theorem unwrapChecksIntegrity : Obligations.UnwrapChecksIntegrity := by
  refine ⟨decode_encode (i := .kwUnwrap) rfl,
    fun s h => endsWith_of_raise (c := .config) ((execKwUnwrap_eq s).trans (if_neg (by simp [h]))),
    fun s h hlen => endsWith_of_raise (c := .length)
      ((exec_kwUnwrap_of_keyValid h).trans (if_neg (mt unwrapLengthOk_iff_fits.1 hlen))),
    fun s h hlen hs => ?_⟩
  have hexec := exec_kwUnwrap_of_checks h hlen
  by_cases hiv : (kwUnwrap s.decBlock s.dataOperand).1 = integrityVector
  · refine ⟨_, hexec.trans (if_pos hiv), succeedWith_eq, fun _ => ?_, fun hne => ?_⟩
    · exact ⟨ofNat_length_kwUnwrap s.decBlock hlen,
        outputIs_succeedWith hs (length_kwUnwrap_le _ (unwrapLengthOk_iff_fits.2 hlen)),
        onlyErrCleared_succeedWith⟩
    · exact absurd (eq_integrityVector_iff.1 hiv) hne
  · refine ⟨_, hexec.trans (if_neg hiv), rfl, fun heq => ?_, fun _ => ?_⟩
    · exact absurd (eq_integrityVector_iff.2 heq) hiv
    · exact ⟨⟨rfl, wf_zeros, read_zeros⟩, statusFields_statusError _ _⟩

/-! ### Unwrapping the output of KW.WRAP (R195 to R197) -/

section
variable {s : State} {b : Memory}

/-- The output of KW.WRAP has a length KW.UNWRAP accepts (R193). -/
theorem unwrapLengthFits_copiedBack (hs : s.outBuf.wf = true) (hlen : WrapLengthFits s) :
    UnwrapLengthFits (s.copiedBack (kwWrap s.encBlock s.dataOperand) b) := by
  have hmax := length_kwWrap_le s.encBlock (wrapLengthOk_iff_fits.2 hlen)
  rw [UnwrapLengthFits, copiedBack_inLen hs hmax]
  rw [length_kwWrap_dataOperand _ hlen] at hmax ⊢
  obtain ⟨hmod, hmin, -⟩ := hlen
  omega

/-- The round-key files of a state with a key belong to one key (10_state.md R45 (a)), so R195 applies to the
output of KW.WRAP. -/
theorem kwUnwrap_copiedBack (hs : s.Inv) (hkey : s.keyValid = true) (hlen : WrapLengthFits s)
    (hdata : (s.copiedBack (kwWrap s.encBlock s.dataOperand) b).dataOperand =
      kwWrap s.encBlock s.dataOperand) :
    kwUnwrap (s.copiedBack (kwWrap s.encBlock s.dataOperand) b).decBlock
        (s.copiedBack (kwWrap s.encBlock s.dataOperand) b).dataOperand =
      (integrityVector, s.dataOperand) := by
  rw [hdata, copiedBack_decBlock]
  exact kwUnwrap_kwWrap (decBlock_encBlock (hs.schedules hkey))
    (by rw [length_dataOperand]; exact hlen.1)

end

/-- Settles O50: the recovered `A` is the integrity vector, so KW.UNWRAP stores the key data. -/
theorem unwrapCommandUndoesWrapCommand : Obligations.UnwrapCommandUndoesWrapCommand := by
  intro s t b hs hkey hlen h hb
  obtain rfl := Host.Outcome.next.inj ((exec_kwWrap_of_checks hkey hlen).symm.trans h)
  have hmax := length_kwWrap_le s.encBlock (wrapLengthOk_iff_fits.2 hlen)
  have hap := kwUnwrap_copiedBack hs hkey hlen (copiedBack_dataOperand hs.outSound.1 hmax hb)
  have hfits := unwrapLengthFits_copiedBack (b := b) hs.outSound.1 hlen
  have hexec := (exec_kwUnwrap_of_checks (copiedBack_keyValid.trans hkey) hfits).trans
    (if_pos (congrArg Prod.fst hap))
  rw [hap] at hexec
  have hdata : s.dataOperand.length ≤ Config.bufMax := by
    rw [length_kwWrap_dataOperand _ hlen] at hmax
    rw [length_dataOperand]
    omega
  obtain ⟨houtLen, -, hread, -⟩ :=
    outputIs_succeedWith (copiedBack_outBuf_wf (b := b) hs.outSound.1) hdata
  rw [length_dataOperand] at houtLen hread
  refine ⟨_, hexec, succeedWith_err, BitVec.eq_of_toNat_eq houtLen, fun k hk => ?_⟩
  rw [hread k hk, State.dataOperand, getD_memRead _ _ hk, Nat.zero_add]

end Sys2Proof.Machine
end

section
/-!
The system command NOP (44_system.md): it ends like every command that succeeds, and has no other effect.
-/

namespace Sys2Proof.Machine
open Claims

/-- NOP takes the state to its success, in every state (R210). -/
theorem exec_nop (s : State) : exec .nop s = .next s.succeed := rfl

/-- Settles O1: a success rewrites `STATUS` alone, and of `STATUS` the field `ERR` alone. -/
theorem nopReportsSuccess : Obligations.NopReportsSuccess :=
  ⟨decode_encode (i := .nop) rfl,
    fun s => ⟨s.succeed, exec_nop s, rfl, onlyErrCleared_succeed rfl⟩⟩

end Sys2Proof.Machine
end

section
/-! Results and the order of checks (60_exceptions.md R220 to R226): each command behind the one list of checks
of R226, and from this how every command word ends. -/

namespace Sys2Proof.Machine
open Claims

/-! ### The checks of R226 -/

/-- The checks 2 to 5 of R226 in their order; one that a command does not make passes. -/
def State.orderedChecks (s : State) (i : Instr) : List (Bool × ResultCode) :=
  [(decide (i ≠ .aesKeyexp 3), .config), (!needsKey i || s.keyValid, .config),
    (!needsTable i || s.hValid, .config), (!badLength i s, .length)]

/-- The first check of R226 that fails, as the chain of conditions the rule lists. -/
theorem firstFailure_orderedChecks (s : State) (i : Instr) : firstFailure (s.orderedChecks i) =
    if i = .aesKeyexp 3 then some .config
    else if needsKey i = true ∧ s.keyValid = false then some .config
    else if needsTable i = true ∧ s.hValid = false then some .config
    else if badLength i s = true then some .length
    else none := by
  have hkey : (!needsKey i || s.keyValid) = true ↔ ¬ (needsKey i = true ∧ s.keyValid = false) := by
    simp [imp_iff_not_or]
  have htable : (!needsTable i || s.hValid) = true ↔ ¬ (needsTable i = true ∧ s.hValid = false) := by
    simp [imp_iff_not_or]
  simp only [State.orderedChecks, firstFailure_cons, firstFailure_nil, hkey, htable, decide_eq_true_eq,
    Bool.not_eq_true', ← Bool.not_eq_true, ite_not, ne_eq]

section
variable {i : Instr} (s : State)

/-- Check 5 of GH.HASH, GCM.SEAL and GCM.OPEN (R224). -/
theorem lengthCheck_eq (hi : i ∈ [Instr.ghHash, .gcmSeal, .gcmOpen]) :
    s.lengthCheck = (!badLength i s, .length) := by
  have hok : s.lengthsOk = !badLength i s := by
    rw [Bool.eq_iff_iff, lengthsOk_iff, badLength, if_pos hi]
    simp
  rw [State.lengthCheck, hok]

/-- Check 5 of KW.WRAP (R193). -/
theorem wrapCheck_eq : s.wrapCheck = (!badLength .kwWrap s, .length) := by
  have hok : s.wrapLengthOk = !badLength .kwWrap s := by
    rw [Bool.eq_iff_iff, wrapLengthOk_iff_fits, WrapLengthFits, badLength, if_neg (by decide), if_pos rfl]
    simp
  rw [State.wrapCheck, hok]

/-- Check 5 of KW.UNWRAP (R193). -/
theorem unwrapCheck_eq : s.unwrapCheck = (!badLength .kwUnwrap s, .length) := by
  have hok : s.unwrapLengthOk = !badLength .kwUnwrap s := by
    rw [Bool.eq_iff_iff, unwrapLengthOk_iff_fits, UnwrapLengthFits, badLength, if_neg (by decide),
      if_neg (by decide), if_pos rfl]
    simp
  rw [State.unwrapCheck, hok]

end

/-! ### How a command ends -/

/-- The codes a command's own work ends with, once its checks have passed (R220, R225). -/
def EndsAsBody (i : Instr) (t : State) : Prop :=
  t.err = 0 ∨ (i = .gcmOpen ∧ t.err = 1) ∨ (i = .kwUnwrap ∧ t.err = 2)

/-- The command ends in `t` as R226 says: with the error of the first check that fails, which changes nothing
but `STATUS` (R222), or with its own work. -/
def EndsInOrder (i : Instr) (s t : State) : Prop :=
  (∃ c, firstFailure (s.orderedChecks i) = some c ∧ t = s.raise c) ∨
    (firstFailure (s.orderedChecks i) = none ∧ EndsAsBody i t)

section
variable {i : Instr} {s t : State}

theorem EndsInOrder.err_eq (h : EndsInOrder i s t) {c : ResultCode}
    (hc : firstFailure (s.orderedChecks i) = some c) : t.err = errValue c := by
  obtain ⟨d, hd, rfl⟩ | ⟨hnone, -⟩ := h
  · obtain rfl := Option.some.inj (hd.symm.trans hc)
    exact raise_err s d
  · exact nomatch hnone.symm.trans hc

theorem EndsInOrder.endsAsBody (h : EndsInOrder i s t)
    (hnone : firstFailure (s.orderedChecks i) = none) : EndsAsBody i t := by
  obtain ⟨d, hd, -⟩ | ⟨-, hbody⟩ := h
  · exact nomatch hd.symm.trans hnone
  · exact hbody

end

theorem endsInOrder_checked {i : Instr} {s : State} {cs : List (Bool × ResultCode)}
    {body : Unit → Host.Outcome State Fault Refusal}
    (hcs : firstFailure (s.orderedChecks i) = firstFailure cs)
    (hbody : NextSatisfies (EndsAsBody i) (body ())) :
    NextSatisfies (EndsInOrder i s) (s.checked cs body) := by
  intro t h
  rw [EndsInOrder, hcs]
  exact (checked_cases h).imp_right fun ⟨hnone, hb⟩ => ⟨hnone, hbody t hb⟩

theorem endsAsBody_succeed (i : Instr) (u : State) :
    NextSatisfies (EndsAsBody i) (.next u.succeed) :=
  nextSatisfies_next (.inl (succeed_err u))

/-- The checks a command makes are those of R226 that can fail for it, in that order. -/
theorem exec_endsInOrder {i : Instr} (hi : i.wellFormed = true) (s : State) :
    NextSatisfies (EndsInOrder i s) (exec i s) := by
  cases i with
  | nop | ghLoadh => exact nextSatisfies_next (.inr ⟨rfl, .inl (succeed_err _)⟩)
  | aesKeyexp klen =>
    rw [exec]
    by_cases hlt : klen < 3
    · rw [execAesKeyexp_eq hlt]
      refine nextSatisfies_next (.inr ⟨?_, .inl (succeed_err _)⟩)
      have hne : Instr.aesKeyexp klen ≠ .aesKeyexp 3 := by
        rintro ⟨⟩
        exact absurd hlt (by decide)
      exact (firstFailure_orderedChecks s _).trans (if_neg hne)
    · obtain rfl : klen = 3 := le_antisymm (of_decide_eq_true hi) (not_lt.1 hlt)
      rw [execAesKeyexp_reserved hlt]
      exact nextSatisfies_next (.inl ⟨.config, rfl, rfl⟩)
  | aesEnc | aesDec | ghMulh =>
    rw [exec]
    exact endsInOrder_checked rfl (endsAsBody_succeed _ _)
  | ghHash =>
    rw [exec]
    refine endsInOrder_checked ?_ (endsAsBody_succeed _ _)
    rw [lengthCheck_eq (i := .ghHash) s (by decide)]
    rfl
  | gcmSeal =>
    rw [exec]
    refine endsInOrder_checked ?_ (endsAsBody_succeed _ _)
    rw [lengthCheck_eq (i := .gcmSeal) s (by decide)]
    rfl
  | gcmOpen =>
    rw [exec]
    refine endsInOrder_checked ?_
      (nextSatisfies_ite (endsAsBody_succeed _ _)
        (nextSatisfies_next (.inr (.inl ⟨rfl, raiseOutcome_err _ _⟩))))
    rw [lengthCheck_eq (i := .gcmOpen) s (by decide)]
    rfl
  | kwWrap =>
    rw [exec]
    refine endsInOrder_checked ?_ (endsAsBody_succeed _ _)
    rw [wrapCheck_eq]
    rfl
  | kwUnwrap =>
    rw [exec]
    refine endsInOrder_checked ?_
      (nextSatisfies_ite (endsAsBody_succeed _ _)
        (nextSatisfies_next (.inr (.inr ⟨rfl, raiseOutcome_err _ _⟩))))
    rw [unwrapCheck_eq]
    rfl

/-- How every command word ends (R226): an illegal one at check 1, and any other by the checks after it. -/
theorem command_endsInOrder {c : Word} {s t : State} (h : command c s = .next t) :
    (∃ e, decode c = .error e ∧ t = s.raise .illegalCmd) ∨
      ∃ i, decode c = .ok i ∧ EndsInOrder i s t := by
  obtain ⟨i, hd, hi⟩ | hill := command_cases h
  · obtain ⟨hwf, -⟩ := (decodeAndEncodeAgree c i).1 hd
    exact .inr ⟨i, hd, exec_endsInOrder hwf s t hi⟩
  · exact .inl hill

/-! ### The errors of the checks and the commands that raise them -/

/-- The error of a failed check, and which commands make the check that failed (R223, R224). -/
theorem orderedChecks_failure {i : Instr} {s : State} {c : ResultCode}
    (h : firstFailure (s.orderedChecks i) = some c) :
    (c = .config ∧ (i = .aesKeyexp 3 ∨ needsKey i = true ∨ needsTable i = true)) ∨
      (c = .length ∧ badLength i s = true) := by
  rw [firstFailure_orderedChecks] at h
  split_ifs at h with h3 hkey htable hlen
  · exact .inl ⟨(Option.some.inj h).symm, .inl h3⟩
  · exact .inl ⟨(Option.some.inj h).symm, .inr (.inl hkey.1)⟩
  · exact .inl ⟨(Option.some.inj h).symm, .inr (.inr htable.1)⟩
  · exact .inr ⟨(Option.some.inj h).symm, hlen⟩

/-- The commands CONFIG comes from (R220). -/
theorem mem_of_config {i : Instr} (h : i = .aesKeyexp 3 ∨ needsKey i = true ∨ needsTable i = true) :
    i ∈ [Instr.aesKeyexp 3, .aesEnc, .aesDec, .ghMulh, .ghHash, .gcmSeal, .gcmOpen, .kwWrap,
      .kwUnwrap] := by
  simp only [needsKey, needsTable, decide_eq_true_eq, List.mem_cons, List.not_mem_nil] at h ⊢
  tauto

/-- The commands LENGTH comes from (R220). -/
theorem mem_of_badLength {i : Instr} {s : State} (h : badLength i s = true) :
    i ∈ [Instr.ghHash, .gcmSeal, .gcmOpen, .kwWrap, .kwUnwrap] := by
  unfold badLength at h
  split_ifs at h with htwo hwrap hunwrap
  · exact List.mem_append_left [Instr.kwWrap, .kwUnwrap] htwo
  · simp [hwrap]
  · simp [hunwrap]

/-- Settles O12: the codes 3, 4 and 5 come from no command's own work, so the command ended with `raise`. -/
theorem preconditionErrorsTouchOnlyStatus : Obligations.PreconditionErrorsTouchOnlyStatus := by
  intro c s t h herr
  have hraise : ∃ code, t = s.raise code := by
    obtain ⟨e, -, rfl⟩ | ⟨i, -, ⟨code, -, rfl⟩ | ⟨-, hbody⟩⟩ := command_endsInOrder h
    · exact ⟨_, rfl⟩
    · exact ⟨_, rfl⟩
    · obtain h0 | ⟨-, h1⟩ | ⟨-, h2⟩ := hbody
      · simp [h0] at herr
      · simp [h1] at herr
      · simp [h2] at herr
  obtain ⟨code, rfl⟩ := hraise
  refine ⟨rfl, ?_⟩
  rw [raise_err]
  exact statusFields_statusError s.status code

/-- Settles O13, by how the command word ends: each end has one code, and a check's code tells the command. -/
theorem everyCommandEndsWithOneCode : Obligations.EveryCommandEndsWithOneCode := by
  intro c s
  obtain ⟨t, ht⟩ := command_exists_next c s
  refine ⟨t, ht, ?_⟩
  obtain ⟨e, hd, rfl⟩ | ⟨i, hd, ⟨code, hfail, rfl⟩ | ⟨-, hbody⟩⟩ := command_endsInOrder ht
  · simp [hd, errValue]
  · obtain ⟨rfl, hi⟩ | ⟨rfl, hi⟩ := orderedChecks_failure hfail
    · have := mem_of_config hi
      simpa [hd, errValue] using this
    · have := mem_of_badLength hi
      simpa [hd, errValue] using this
  · obtain h0 | ⟨rfl, h1⟩ | ⟨rfl, h2⟩ := hbody
    · simp [hd, h0]
    · simp [hd, h1]
    · simp [hd, h2]

/-- Settles O14: the first of the ordered checks that fails, by the conditions of R226. -/
theorem checksAreMadeInOrder : Obligations.ChecksAreMadeInOrder := by
  intro c s
  obtain ⟨t, ht⟩ := command_exists_next c s
  refine ⟨t, ht, ?_⟩
  obtain ⟨e, hd, rfl⟩ | ⟨i, hd, hend⟩ := command_endsInOrder ht
  · rw [hd]
    exact raise_err s .illegalCmd
  · rw [hd]
    dsimp only
    have hchain := firstFailure_orderedChecks s i
    split_ifs at hchain ⊢ with h3 hkey htable hlen
    · exact hend.err_eq hchain
    · exact hend.err_eq hchain
    · exact hend.err_eq hchain
    · exact hend.err_eq hchain
    · exact hend.endsAsBody hchain

end Sys2Proof.Machine
end

section
/-! `ESTICKY` over a run (60_exceptions.md R232): a step takes the next event of the script, and with every event
but a reset `ESTICKY` records whether the command that event issued has failed. -/

namespace Sys2Proof.Machine
open Claims

/-! ### A step takes one event of the script -/

/-- Behind its checks a command keeps the script if its body does. -/
theorem keepsScript_checked {s : State} {cs : List (Bool × ResultCode)}
    {body : Unit → Host.Outcome State Fault Refusal}
    (hbody : NextSatisfies (fun t => t.script = s.script) (body ())) :
    NextSatisfies (fun t => t.script = s.script) (s.checked cs body) :=
  nextSatisfies_checked (fun _ _ => raise_script s _) fun _ => hbody

/-- No command touches the host's events to come. -/
theorem exec_script (i : Instr) (s : State) :
    NextSatisfies (fun t => t.script = s.script) (exec i s) := by
  cases i with
  | nop | ghLoadh => exact nextSatisfies_next (succeed_script _)
  | aesKeyexp klen =>
    rw [exec]
    by_cases hlt : klen < 3
    · rw [execAesKeyexp_eq hlt]
      exact nextSatisfies_next ((succeed_script _).trans (setKeyLoaded_script _ _ _))
    · rw [execAesKeyexp_reserved hlt]
      exact nextSatisfies_next (raise_script s _)
  | aesEnc | aesDec | ghMulh | ghHash =>
    rw [exec]
    refine keepsScript_checked ?_
    exact nextSatisfies_next (succeed_script _)
  | gcmSeal =>
    rw [exec]
    refine keepsScript_checked ?_
    exact nextSatisfies_next ((succeed_script _).trans (putGcm_script s (s.ctr s.dataOperand)))
  | kwWrap =>
    rw [exec]
    refine keepsScript_checked ?_
    exact nextSatisfies_next ((succeed_script _).trans (putOutput_script _ _))
  | gcmOpen | kwUnwrap =>
    rw [exec]
    refine keepsScript_checked ?_
    exact nextSatisfies_ite
      (nextSatisfies_next ((succeed_script _).trans (putOutput_script _ _)))
      (nextSatisfies_next (raiseOutcome_script _ _))

theorem command_script {c : Word} {s t : State} (h : command c s = .next t) : t.script = s.script :=
  nextSatisfies_command (P := fun t => t.script = s.script) (raise_script s _)
    (fun i => exec_script i s) t h

theorem step_script {s t : State} (h : step s = .next t) : t.script = s.script.tail := by
  obtain ⟨hs, rfl⟩ | ⟨rest, hs, rfl⟩ | ⟨off, rest, hs, -, rfl⟩ | ⟨off, v, rest, hs, -, -, rfl⟩ |
    ⟨off, v, rest, l, hs, -, -, rfl⟩ | ⟨v, rest, u, hs, hu, rfl⟩ := step_cases h
  · rw [hs, List.tail_nil]
  · rw [hs, List.tail_cons]
  · rw [hs, List.tail_cons]
  · rw [hs, List.tail_cons]
  · rw [hs, List.tail_cons]
  · rw [hs, List.tail_cons, answered_script, command_script hu]

/-! ### The events of a run -/

/-- Event `k` of the run from `s` is a write to `CMD`, and the command it issued ended with an error. -/
def FailsAt (s : State) (k : Nat) : Prop :=
  ∃ u v, s.script[k]? = some (.write32 0x000 v) ∧ runSteps (k + 1) s = .next u ∧ u.err ≠ 0

section
variable {s t : State}

theorem runSteps_succ_of_step (h : step s = .next t) (n : Nat) : runSteps (n + 1) s = runSteps n t :=
  run_succ_of_step (M := Sys2Proof.core) n h

/-- A run of at least one step that answers a next state begins with a step that does. -/
theorem exists_step_of_runSteps_succ {n : Nat} (h : runSteps (n + 1) s = .next t) :
    ∃ u, step s = .next u ∧ runSteps n u = .next t := by
  cases hstep : Sys2Proof.core.step s with
  | next u => exact ⟨u, hstep, (runSteps_succ_of_step hstep n).symm.trans h⟩
  | fault r | refused r => simp [runSteps, Host.Core.run, hstep] at h

theorem failsAt_zero_of_step (h : step s = .next t) :
    FailsAt s 0 ↔ (∃ v rest, Next s (.write32 0x000 v) rest) ∧ t.err ≠ 0 := by
  have hrun : runSteps 1 s = .next t := runSteps_succ_of_step h 0
  constructor
  · rintro ⟨u, v, hv, hu, herr⟩
    obtain rfl := Host.Outcome.next.inj (hrun.symm.trans hu)
    rw [← List.head?_eq_getElem?, List.head?_eq_some_iff] at hv
    exact ⟨⟨v, hv⟩, herr⟩
  · rintro ⟨⟨v, rest, hs⟩, herr⟩
    refine ⟨t, v, ?_, hrun, herr⟩
    rw [show s.script = _ from hs, List.getElem?_cons_zero]

theorem failsAt_succ_of_step (h : step s = .next t) (k : Nat) : FailsAt s (k + 1) ↔ FailsAt t k := by
  simp only [FailsAt, runSteps_succ_of_step h, step_script h, List.getElem?_tail]

/-- `ESTICKY` over one step (10_state.md R32). -/
theorem step_esticky (h : step s = .next t) (hr : s.script.head? ≠ some .reset) :
    t.esticky = true ↔ s.esticky = true ∨ FailsAt s 0 := by
  obtain ⟨-, -, -, -, hcmd, hother, -⟩ := statusFieldsChangeOnlyAsListed.1 s t hr h
  rw [failsAt_zero_of_step h]
  by_cases hs : ∃ v rest, Next s (.write32 0x000 v) rest
  · rw [hcmd hs, and_iff_right hs]
  · obtain ⟨-, hkeep⟩ := hother fun v rest hv => hs ⟨v, rest, hv⟩
    rw [hkeep, or_iff_left fun hf => hs hf.1]

end

/-- `ESTICKY` over a run: it records every event at which a command fails. -/
theorem runSteps_esticky {n : Nat} {s t : State} (h : runSteps n s = .next t)
    (hr : HostEvent.reset ∉ s.script.take n) :
    t.esticky = true ↔ s.esticky = true ∨ ∃ k, k < n ∧ FailsAt s k := by
  induction n generalizing s with
  | zero =>
    obtain rfl := Host.Outcome.next.inj h
    simp
  | succ n ih =>
    obtain ⟨u, hstep, h⟩ := exists_step_of_runSteps_succ h
    have hhead : s.script.head? ≠ some .reset := by
      intro hs
      obtain ⟨rest, hs⟩ := List.head?_eq_some_iff.1 hs
      simp [hs] at hr
    have htail : HostEvent.reset ∉ u.script.take n := by
      rw [step_script hstep]
      cases hs : s.script with
      | nil => simp
      | cons e rest =>
        rw [hs, List.take_succ_cons] at hr
        exact fun hmem => hr (List.mem_cons_of_mem e hmem)
    rw [ih h htail, step_esticky hstep hhead, Nat.exists_lt_succ_left, or_assoc]
    simp only [failsAt_succ_of_step hstep]

/-- Settles O16, by the run's events one after another. -/
theorem stickyRecordsAnyFailure : Obligations.StickyRecordsAnyFailure := by
  intro n s t h hr
  rw [runSteps_esticky h hr]
  simp only [FailsAt, exists_and_left]

end Sys2Proof.Machine
end

section
/-! Key material cannot be read back (60_exceptions.md R230): `KEY` is write-only, and the files `W` and `DW` and the
table `M` stand at no address. -/

namespace Sys2Proof.Machine

/-- No location of the address map holds a word of `W`, `DW` or `M` (20_memory.md R61). -/
theorem hostRead32_withFiles (s : State) (w dw : KeyFile) (m : Table) (off : Nat) :
    hostRead32 { s with w := w, dw := dw, m := m } off = hostRead32 s off := by
  cases hl : locate off with
  | none => rw [hostRead32_of_locate_none _ hl, hostRead32_of_locate_none _ hl]
  | some l =>
    rw [hostRead32_of_locate _ hl, hostRead32_of_locate _ hl]
    cases l <;> rfl

/-- Settles O36: `KEY` is not shown by its location, and the rest has none. -/
theorem keyMaterialCannotBeReadBack : Obligations.KeyMaterialCannotBeReadBack := fun s k w dw m off =>
  (hostRead32_withFiles (s.withKey k) w dw m off).trans (hostRead32_withKey s k off)

end Sys2Proof.Machine
end

section
/-! Reset and the GHASH table flag (70_reset_and_hazards.md sections 1 and 3): what the reset input leaves, how
each command ends as the first one after it, and that a write to `H` makes the table unusable until it is built
again. -/

namespace Sys2Proof.Machine
open Claims

/-! ### A command whose checks fail -/

section
variable {i : Instr} {s : State}

/-- A command ends with the error of the first check of R226 that fails, and changes nothing but `STATUS`. -/
theorem endsWith_of_firstFailure {c : ResultCode} (hi : i.wellFormed = true)
    (h : firstFailure (s.orderedChecks i) = some c) : EndsWith i s (errValue c) := by
  obtain ⟨t, ht⟩ := exec_exists_next i s
  obtain ⟨d, hd, rfl⟩ | ⟨hnone, -⟩ := exec_endsInOrder hi s t ht
  · obtain rfl := Option.some.inj (hd.symm.trans h)
    exact endsWith_of_raise ht
  · exact nomatch hnone.symm.trans h

/-- A command that needs a key or a table there is none of ends with CONFIG, whatever the lengths (R223, R226). -/
theorem endsWith_config_of_missing
    (h : (needsKey i = true ∧ s.keyValid = false) ∨ (needsTable i = true ∧ s.hValid = false)) :
    EndsWith i s 3 := by
  have hwf : i.wellFormed = true := by
    cases i with
    | aesKeyexp klen => simp [needsKey, needsTable] at h
    | nop | aesEnc | aesDec | ghLoadh | ghMulh | ghHash | gcmSeal | gcmOpen | kwWrap | kwUnwrap => rfl
  have hfail : firstFailure (s.orderedChecks i) = some .config := by
    rw [firstFailure_orderedChecks]
    obtain hkey | htable := h
    · rw [if_pos hkey, ite_self]
    · rw [if_pos htable, ite_self, ite_self]
  exact endsWith_of_firstFailure hwf hfail

end

/-! ### The write to `H` (R264) -/

/-- The four words of `H` in the address map (20_memory.md R61). -/
theorem locate_wordsOfH : ∀ off ∈ [0x060, 0x064, 0x068, 0x06C], locate off = some .h := by decide

/-- The value written does not matter. -/
theorem hValid_locStore_h (s : State) (k : Nat) (v : Word) : (locStore s .h k v).hValid = false :=
  setHValid_hValid _ false

/-- A step that sets `H_VALID` runs a command that builds the table: a reset clears the flag, and so does a write
to `H` if it changes it at all (10_state.md R26). -/
theorem nextCommand?_of_hValid_set {s t : State} (hclear : s.hValid = false) (hstep : step s = .next t)
    (hset : t.hValid = true) : s.nextCommand? ∈ [some Instr.ghLoadh, some .gcmSeal, some .gcmOpen] := by
  have hreset : s.script.head? ≠ some .reset := by
    intro hr
    have hst : t.status = 0 := step_reset_status hr hstep
    rw [State.hValid, hst] at hset
    exact absurd hset (by decide)
  obtain ⟨-, -, -, hflag, -⟩ := statusFieldsChangeOnlyAsListed.1 s t hreset hstep
  obtain ⟨-, hmem⟩ | ⟨hno, -⟩ := hflag (by rw [hset, hclear]; decide)
  · exact hmem
  · exact nomatch hset.symm.trans hno

/-- Settles O31: the store to `H` clears the flag both commands check, and the steps that set it are those of
the table of `STATUS`. -/
theorem writeToHClearsTableFlag : Obligations.WriteToHClearsTableFlag := by
  refine ⟨fun s off v rest hoff hs => ?_, fun s t => nextCommand?_of_hValid_set⟩
  have hstep := step_write_store hs (locate_wordsOfH off hoff) (by decide)
  have hclear := hValid_locStore_h { s with script := rest } (off - locOffset .h) v
  exact ⟨_, hstep, hclear, endsWith_config_of_missing (.inr ⟨rfl, hclear⟩),
    endsWith_config_of_missing (.inr ⟨rfl, hclear⟩)⟩

/-! ### Reset (R250, R251) -/

/-- Settles O24. -/
theorem resetInputRestoresResetState : Obligations.ResetInputRestoresResetState :=
  fun _ _ h => step_reset h

theorem reset_keyValid : State.reset.keyValid = false := rfl

theorem reset_hValid : State.reset.hValid = false := rfl

/-- A success leaves the reset state as it is: `ERR` is 0 already. -/
theorem succeed_reset : State.reset.succeed = State.reset :=
  congrArg State.reset.withStatus (show statusOk 0 = 0 by decide)

/-- The table of the all-zero subkey (41_ghash.md R154). -/
theorem getElem_buildTable_zero {p j : Nat} (hp : p < 32) (hj : j < 16) : (buildTable 0)[p][j] = 0 := by
  rw [getElem_buildTable 0 hp hj, gfMul_zero_right]

theorem toList_zero (n : Nat) : toList (0 : Bytes n) = List.replicate n 0 :=
  List.eq_replicate_iff.2 ⟨length_toList _, List.forall_mem_map.2 fun i _ => byte_zero i⟩

/-- The key `KEY` holds after reset, at each length a key can have (10_state.md R23, R44). -/
theorem take_toList_reset_key {n : Nat} (hn : n ≤ 32) :
    (toList State.reset.key).take n = List.replicate n 0 := by
  rw [show State.reset.key = 0 from rfl, toList_zero, List.take_replicate, min_eq_left hn]

/-- The commands that cannot be the first one after reset lack the key or the table (60_exceptions.md R223). -/
theorem needsKey_or_needsTable :
    ∀ i ∈ [Instr.aesEnc, .aesDec, .gcmSeal, .gcmOpen, .kwWrap, .kwUnwrap, .ghMulh, .ghHash],
      needsKey i = true ∨ needsTable i = true := by decide

/-- AES.KEYEXP on the reset state expands the all-zero key of the length `KLEN` selects (R251). -/
theorem exec_aesKeyexp_reset {klen : Nat} (h : klen < 3) :
    ∃ t, exec (.aesKeyexp klen) State.reset = .next t ∧ t.nk = 4 + 2 * klen ∧
      t.HoldsExpandedKey (List.replicate (4 * t.nk) 0) := by
  have hkey := take_toList_reset_key (n := 4 * (4 + 2 * klen)) (by omega)
  obtain ⟨t, hexec, ht⟩ := exec_aesKeyexp_expands h (s := State.reset)
    (d := List.replicate (4 * (4 + 2 * klen)) 0) List.length_replicate (by rwa [List.length_replicate])
  have hnk : t.nk = 4 + 2 * klen := by
    obtain ⟨-, -, hnk, -⟩ := ht
    rw [List.length_replicate] at hnk
    omega
  exact ⟨t, hexec, hnk, by rwa [hnk]⟩

/-- Settles O25: `KEY_VALID` and `H_VALID` are 0, and `KEY` and `H` are zero. -/
theorem firstCommandAfterReset : Obligations.FirstCommandAfterReset := by
  refine ⟨fun i hi => ?_, ?_, ?_, fun klen hklen => ?_⟩
  · -- the commands that need a key or a table
    exact endsWith_config_of_missing
      ((needsKey_or_needsTable i hi).imp (⟨·, reset_keyValid⟩) (⟨·, reset_hValid⟩))
  · -- NOP
    exact ⟨_, exec_nop _, succeed_err _, succeed_reset⟩
  · -- GH.LOADH
    exact ⟨_, rfl, succeed_err _, by rw [succeed_hValid, setHValid_hValid],
      fun _ _ hp hj => getElem_buildTable_zero hp hj⟩
  · -- AES.KEYEXP
    obtain ⟨t, hexec, hnk, herr, hvalid, -, -, hw, hdw⟩ := exec_aesKeyexp_reset (Nat.lt_succ_of_le hklen)
    exact ⟨t, hexec, herr, hvalid, hnk, hw, hdw⟩

end Sys2Proof.Machine
end
